-- ==== Sys2Proof/Word.lean ====
section
/-! DEFINITION. The widths of the datapath's values (spec/00_scope.md R6, R8, R10). -/

namespace Sys2Proof

/-- `BYTE`, 8 bits (R10); one byte of memory (R43). -/
abbrev Byte := BitVec 8

/-- `WORD` of R10, 16 bits; a halfword lane (R230). -/
abbrev Half := BitVec 16

/-- A 32-bit register or datapath value: `XLEN` = 32 (R6). -/
abbrev Word := BitVec 32

/-- The widened accumulator: `WIDEN` = 64 (R6). -/
abbrev DWord := BitVec 64

end Sys2Proof
end

