-- ==== Sys2Proof/Syntax.lean ====
section
/-! DEFINITION. The decoded operations: one constructor of `Instr` per row of spec/opcode_table.json,
with the operands the operation word carries (spec/30_encoding.md R61-R69, R80). -/

namespace Sys2Proof

/-- A general register number, 0..15 (R20). -/
abbrev Reg := Fin 16

/-- The sixteen condition suffixes (R70). -/
inductive Cond
  | eq | ne | cs | cc | mi | pl | vs | vc | hi | ls | ge | lt | gt | le | al | nv
deriving DecidableEq, Repr

/-- The condition suffix of a mnemonic: `none` is `P` = 0, no suffix (R61, R170). -/
abbrev Suffix := Option Cond

/-- The shift kinds of the `sh` field (R61). -/
inductive ShiftKind
  | lsl | lsr | asr | ror
deriving DecidableEq, Repr

/-- The shift kinds a saturate takes (R69). -/
inductive SatShift
  | lsl | asr
deriving DecidableEq, Repr

/-- The shifter operand of format DP, by `form` (R62). -/
inductive Op2
  /-- form IMM: an 8-bit value rotated right by twice `rot` (R131). -/
  | imm (imm8 : BitVec 8) (rot : BitVec 4)
  /-- form REG_IMM: a register shifted by an immediate amount (R132). -/
  | regImm (rm : Reg) (sh : ShiftKind) (amount : BitVec 6)
  /-- form REG_REG: a register shifted by a register (R138). -/
  | regReg (rm : Reg) (sh : ShiftKind) (rs : Reg)
  /-- form RRX: rotate right with extend (R137). -/
  | rrx (rm : Reg)
deriving DecidableEq, Repr

/-- The index mode `idx` of a memory operation (R65, R151). -/
inductive Index
  | offset | pre | post
deriving DecidableEq, Repr

/-- The offset of addressing mode two (R65). -/
inductive Off2
  | imm (imm12 : BitVec 12)
  | reg (rm : Reg) (sh : ShiftKind) (amount : BitVec 6)
deriving DecidableEq, Repr

/-- The offset of addressing mode three (R66). -/
inductive Off3
  | imm (imm8 : BitVec 8)
  | reg (rm : Reg)
deriving DecidableEq, Repr

/-- The sub-mode `am` of a block transfer (R67). -/
inductive BlockMode
  | ia | ib | da | db
deriving DecidableEq, Repr

/-- One decoded operation (R80). `c` is the condition suffix, `s` the flag-setting bit, `u` the
add-offset bit, `w` the write-back bit; register operands stand in the order of R89's fields:
destination, then Rn, Rm, then the field `Rs`. -/
inductive Instr
  | and (c : Suffix) (s : Bool) (rd rn : Reg) (op2 : Op2)
  | eor (c : Suffix) (s : Bool) (rd rn : Reg) (op2 : Op2)
  | orr (c : Suffix) (s : Bool) (rd rn : Reg) (op2 : Op2)
  | orn (c : Suffix) (s : Bool) (rd rn : Reg) (op2 : Op2)
  | bic (c : Suffix) (s : Bool) (rd rn : Reg) (op2 : Op2)
  | mov (c : Suffix) (s : Bool) (rd : Reg) (op2 : Op2)
  | mvn (c : Suffix) (s : Bool) (rd : Reg) (op2 : Op2)
  | add (c : Suffix) (s : Bool) (rd rn : Reg) (op2 : Op2)
  | sub (c : Suffix) (s : Bool) (rd rn : Reg) (op2 : Op2)
  | sbc (c : Suffix) (s : Bool) (rd rn : Reg) (op2 : Op2)
  | neg (c : Suffix) (s : Bool) (rd rm : Reg)
  | cmp (c : Suffix) (rn : Reg) (op2 : Op2)
  | tst (c : Suffix) (rn : Reg) (op2 : Op2)
  | qadd16 (c : Suffix) (rd rn rm : Reg)
  | qasx (c : Suffix) (rd rn rm : Reg)
  | uqsax (c : Suffix) (rd rn rm : Reg)
  | uhasx (c : Suffix) (rd rn rm : Reg)
  | uadd16 (c : Suffix) (rd rn rm : Reg)
  | shadd16 (c : Suffix) (rd rn rm : Reg)
  | uhsub8 (c : Suffix) (rd rn rm : Reg)
  | mla (c : Suffix) (s : Bool) (rd rn rm ra : Reg)
  | smull (c : Suffix) (s : Bool) (rdLo rn rm rdHi : Reg)
  | umull (c : Suffix) (s : Bool) (rdLo rn rm rdHi : Reg)
  | umaal (c : Suffix) (rdLo rn rm rdHi : Reg)
  | smmul (c : Suffix) (rd rn rm : Reg)
  | smmulr (c : Suffix) (rd rn rm : Reg)
  | smulwb (c : Suffix) (rd rn rm : Reg)
  | smulwt (c : Suffix) (rd rn rm : Reg)
  | str (c : Suffix) (rt rn : Reg) (u : Bool) (idx : Index) (off : Off2)
  | strh (c : Suffix) (rt rn : Reg) (u : Bool) (idx : Index) (off : Off3)
  | strd (c : Suffix) (rt rn : Reg) (u : Bool) (idx : Index) (off : Off3)
  | ldrt (c : Suffix) (rt rn : Reg) (u : Bool) (off : Off2)
  | stm (c : Suffix) (rn : Reg) (list : BitVec 16) (am : BlockMode) (w : Bool)
  | sbfx (c : Suffix) (rd rn : Reg) (lsb : BitVec 5) (width : BitVec 6)
  | bfc (c : Suffix) (rd : Reg) (lsb : BitVec 5) (width : BitVec 6)
  | bfi (c : Suffix) (rd rn : Reg) (lsb : BitVec 5) (width : BitVec 6)
  | movt (c : Suffix) (rd : Reg) (imm16 : BitVec 16)
  | ssat (c : Suffix) (rd rn : Reg) (sh : SatShift) (amount : BitVec 6) (sat : BitVec 6)
  | usat (c : Suffix) (rd rn : Reg) (sh : SatShift) (amount : BitVec 6) (sat : BitVec 6)
  | rev (c : Suffix) (rd rm : Reg)
  | revsh (c : Suffix) (rd rm : Reg)
  | rbit (c : Suffix) (rd rm : Reg)
deriving DecidableEq, Repr

/-- The condition suffix an operation carries (R70). -/
def Instr.suffix : Instr → Suffix
  | .and c _ _ _ _ => c
  | .eor c _ _ _ _ => c
  | .orr c _ _ _ _ => c
  | .orn c _ _ _ _ => c
  | .bic c _ _ _ _ => c
  | .mov c _ _ _ => c
  | .mvn c _ _ _ => c
  | .add c _ _ _ _ => c
  | .sub c _ _ _ _ => c
  | .sbc c _ _ _ _ => c
  | .neg c _ _ _ => c
  | .cmp c _ _ => c
  | .tst c _ _ => c
  | .qadd16 c _ _ _ => c
  | .qasx c _ _ _ => c
  | .uqsax c _ _ _ => c
  | .uhasx c _ _ _ => c
  | .uadd16 c _ _ _ => c
  | .shadd16 c _ _ _ => c
  | .uhsub8 c _ _ _ => c
  | .mla c _ _ _ _ _ => c
  | .smull c _ _ _ _ _ => c
  | .umull c _ _ _ _ _ => c
  | .umaal c _ _ _ _ => c
  | .smmul c _ _ _ => c
  | .smmulr c _ _ _ => c
  | .smulwb c _ _ _ => c
  | .smulwt c _ _ _ => c
  | .str c _ _ _ _ _ => c
  | .strh c _ _ _ _ _ => c
  | .strd c _ _ _ _ _ => c
  | .ldrt c _ _ _ _ => c
  | .stm c _ _ _ _ => c
  | .sbfx c _ _ _ _ => c
  | .bfc c _ _ _ => c
  | .bfi c _ _ _ _ => c
  | .movt c _ _ => c
  | .ssat c _ _ _ _ _ => c
  | .usat c _ _ _ _ _ => c
  | .rev c _ _ => c
  | .revsh c _ _ => c
  | .rbit c _ _ => c

end Sys2Proof
end

