-- ==== Sys2Proof/Machine/Opcodes.lean ====
section
/-! DEFINITION. The opcode map (spec/30_encoding.md R80): one named `opc` value per operation. -/

namespace Sys2Proof

def opcAND : BitVec 6 := 0x00#6
def opcEOR : BitVec 6 := 0x01#6
def opcORR : BitVec 6 := 0x02#6
def opcORN : BitVec 6 := 0x03#6
def opcBIC : BitVec 6 := 0x04#6
def opcMOV : BitVec 6 := 0x05#6
def opcMVN : BitVec 6 := 0x06#6
def opcADD : BitVec 6 := 0x07#6
def opcSUB : BitVec 6 := 0x08#6
def opcSBC : BitVec 6 := 0x09#6
def opcNEG : BitVec 6 := 0x0A#6
def opcCMP : BitVec 6 := 0x0B#6
def opcTST : BitVec 6 := 0x0C#6
def opcQADD16 : BitVec 6 := 0x10#6
def opcQASX : BitVec 6 := 0x11#6
def opcUQSAX : BitVec 6 := 0x12#6
def opcUHASX : BitVec 6 := 0x13#6
def opcUADD16 : BitVec 6 := 0x14#6
def opcSHADD16 : BitVec 6 := 0x15#6
def opcUHSUB8 : BitVec 6 := 0x16#6
def opcMLA : BitVec 6 := 0x18#6
def opcSMULL : BitVec 6 := 0x19#6
def opcUMULL : BitVec 6 := 0x1A#6
def opcUMAAL : BitVec 6 := 0x1B#6
def opcSMMUL : BitVec 6 := 0x1C#6
def opcSMMULR : BitVec 6 := 0x1D#6
def opcSMULWB : BitVec 6 := 0x1E#6
def opcSMULWT : BitVec 6 := 0x1F#6
def opcSTR : BitVec 6 := 0x20#6
def opcSTRH : BitVec 6 := 0x21#6
def opcSTRD : BitVec 6 := 0x22#6
def opcLDRT : BitVec 6 := 0x23#6
def opcSTM : BitVec 6 := 0x24#6
def opcSBFX : BitVec 6 := 0x28#6
def opcBFC : BitVec 6 := 0x29#6
def opcBFI : BitVec 6 := 0x2A#6
def opcMOVT : BitVec 6 := 0x2B#6
def opcSSAT : BitVec 6 := 0x2C#6
def opcUSAT : BitVec 6 := 0x2D#6
def opcREV : BitVec 6 := 0x30#6
def opcREVSH : BitVec 6 := 0x31#6
def opcRBIT : BitVec 6 := 0x32#6

end Sys2Proof
end

