-- ==== Sys2Proof/Machine/Datapath.lean ====
section
/-! DEFINITION. The combinational primitives of spec/40_datapath_primitives.md R100-R116: pure functions
of their arguments. Exact integers are `Int`; a result is narrowed to its width at the end (R8). -/

namespace Sys2Proof.Machine

/-! ## Masks and extension -/

/-- R100: ones in bits lsb .. lsb+width-1 of a `w`-bit value. -/
def maskOnes (w lsb width : Nat) : BitVec w := BitVec.ofNat w ((2 ^ width - 1) * 2 ^ lsb)

/-- R101: zeros over the same bits, ones elsewhere. -/
def maskZeros (w lsb width : Nat) : BitVec w := ~~~ maskOnes w lsb width

/-- R102: `sext_m(v)`. -/
def sext {n : Nat} (m : Nat) (v : BitVec n) : BitVec m := BitVec.ofInt m v.toInt

/-- R103: `zext_m(v)`. -/
def zext {n : Nat} (m : Nat) (v : BitVec n) : BitVec m := BitVec.ofNat m v.toNat

/-- R104: the source's three wrapping steps for sign extension from `n` to `m` bits. -/
def sextSteps {n : Nat} (m : Nat) (v : BitVec n) : BitVec m :=
  let t1 : BitVec m := zext m v + BitVec.ofNat m (2 ^ (n - 1))
  let t2 : BitVec m := t1 &&& BitVec.ofNat m (2 ^ n - 1)
  t2 - BitVec.ofNat m (2 ^ (n - 1))

/-! ## Saturation -/

/-- The kind of a saturation (R105). -/
inductive SatKind
  | signed | unsigned
deriving DecidableEq, Repr

/-- R105: the least value of the range. -/
def satLow (bits : Nat) : SatKind → Int
  | .signed => -(2 ^ (bits - 1))
  | .unsigned => 0

/-- R105: the greatest value of the range. -/
def satHigh (bits : Nat) : SatKind → Int
  | .signed => 2 ^ (bits - 1) - 1
  | .unsigned => 2 ^ bits - 1

/-- R105: `Sat(x, bits, kind)`: the clamped integer and whether it clamped. -/
def saturate (x : Int) (bits : Nat) (kind : SatKind) : Int × Bool :=
  if x < satLow bits kind then (satLow bits kind, true)
  else if satHigh bits kind < x then (satHigh bits kind, true)
  else (x, false)

/-- R107: the integer reading of a pattern, by kind. -/
def SatKind.read {w : Nat} (kind : SatKind) (v : BitVec w) : Int :=
  match kind with
  | .signed => v.toInt
  | .unsigned => v.toNat

/-- R107: `SatAdd(a, b, kind, w)`. -/
def satAdd {w : Nat} (a b : BitVec w) (kind : SatKind) : Int × Bool :=
  saturate (kind.read a + kind.read b) w kind

/-- R107: `SatSub(a, b, kind, w)`. -/
def satSub {w : Nat} (a b : BitVec w) (kind : SatKind) : Int × Bool :=
  saturate (kind.read a - kind.read b) w kind

/-! ## Carry and overflow -/

/-- R109: `Overflow(a, b, r, p)`. -/
def overflow (a b r : Word) (p : Nat) : Bool := ((a ^^^ r) &&& (b ^^^ r)).getLsbD p

/-- R108: `AddWithCarry(a, b, cin)`: result, carry and overflow, from a 64-bit sum. -/
def addWithCarry (a b : Word) (cin : Bool) : Word × Bool × Bool :=
  let s : DWord := zext 64 a + zext 64 b + zext 64 (BitVec.ofBool cin)
  let r : Word := s.extractLsb' 0 32
  (r, s.getLsbD 32, overflow a b r 31)

/-- R110: `a - b - (1 - cin)`. -/
def subWithCarry (a b : Word) (cin : Bool) : Word × Bool × Bool := addWithCarry a (~~~ b) cin

/-! ## Shifts with carry -/

/-- The carry-out of a shifter operand: a bit, or `none` for the marker `KEEP` (R130). -/
abbrev Carry := Option Bool

/-- R111: `LSL_C`. -/
def lslC (v : Word) (n : Nat) (cin : Carry) : Word × Carry :=
  if n = 0 then (v, cin)
  else if n ≤ 31 then (v <<< n, some (v.getLsbD (32 - n)))
  else if n = 32 then (0, some (v.getLsbD 0))
  else (0, some false)

/-- R111: `LSR_C`. -/
def lsrC (v : Word) (n : Nat) (cin : Carry) : Word × Carry :=
  if n = 0 then (v, cin)
  else if n ≤ 31 then (v >>> n, some (v.getLsbD (n - 1)))
  else if n = 32 then (0, some (v.getLsbD 31))
  else (0, some false)

/-- R111: `ASR_C`. -/
def asrC (v : Word) (n : Nat) (cin : Carry) : Word × Carry :=
  if n = 0 then (v, cin)
  else if n ≤ 31 then (v.sshiftRight n, some (v.getLsbD (n - 1)))
  else (if v.getLsbD 31 then BitVec.allOnes 32 else 0, some (v.getLsbD 31))

/-- R111: `ROR_C`. -/
def rorC (v : Word) (n : Nat) (cin : Carry) : Word × Carry :=
  if n = 0 then (v, cin)
  else if n % 32 = 0 then (v, some (v.getLsbD 31))
  else
    let r : Word := (v >>> (n % 32)) ||| (v <<< (32 - n % 32))
    (r, some (r.getLsbD 31))

/-- R111: `RRX_C`. -/
def rrxC (v : Word) (cin : Bool) : Word × Carry :=
  (BitVec.ofBool cin ++ v.extractLsb' 1 31, some (v.getLsbD 0))

/-! ## Multiply widening -/

/-- R112: `SMulWide(a, b)` of two `n`-bit patterns (16 to 32 bits, 32 to 64). -/
def sMulWide {n : Nat} (a b : BitVec n) : BitVec (2 * n) := BitVec.ofInt (2 * n) (a.toInt * b.toInt)

/-- R112: `UMulWide(a, b)` of two `n`-bit patterns (16 to 32 bits, 32 to 64). -/
def uMulWide {n : Nat} (a b : BitVec n) : BitVec (2 * n) := BitVec.ofNat (2 * n) (a.toNat * b.toNat)

/-! ## Other helpers -/

/-- The low `k` bits of a number in the opposite order: bit i goes to position k-1-i. -/
def reverseBits : Nat → Nat → Nat
  | 0, _ => 0
  | k + 1, x => x % 2 * 2 ^ k + reverseBits k (x / 2)

/-- R113: `BitReverse32(v)`. -/
def bitReverse32 (v : Word) : Word := BitVec.ofNat 32 (reverseBits 32 v.toNat)

/-- R115: `NZ(r, p)` with p the top bit of r. -/
def nz {w : Nat} (r : BitVec w) : Bool × Bool := (r.getLsbD (w - 1), r == 0)

/-- R116: `Half(x, w)`. -/
def half (x : Int) (w : Nat) : BitVec w := BitVec.ofInt w (x / 2)

/-! ## Lanes (spec/44_packed_saturating.md R230) -/

/-- R230: `v.h0` and `v.h1`. -/
def lane16 (v : Word) (i : Nat) : Half := v.extractLsb' (16 * i) 16

/-- R230: `v.b0` .. `v.b3`. -/
def lane8 (v : Word) (i : Nat) : Byte := v.extractLsb' (8 * i) 8

end Sys2Proof.Machine
end

