-- ==== Sys2Proof/Config.lean ====
section
/-! DEFINITION. The parameters of the block (spec/00_scope.md R6) and the values the spec fixes for them. -/

namespace Sys2Proof.Config

/-- `ENDIAN` (R43). -/
inductive Endian
  | little
  | big
deriving DecidableEq, Repr

/-- `ALIGN_POLICY` (R45). -/
inductive AlignPolicy
  | fault
  | allow
deriving DecidableEq, Repr

/-- `PC_FLAGSET_POLICY` (R23, R84). -/
inductive PcFlagsetPolicy
  | asIfNotPc
  | refuse
deriving DecidableEq, Repr

/-- The parameters of R6 that have a stated alternative. `Q_UPDATE` is no parameter: C1 of
spec/90_conflicts.md takes the sticky reading and gives no other. -/
structure Params where
  endian         : Endian
  alignPolicy    : AlignPolicy
  pcFlagset      : PcFlagsetPolicy
  packedSatSetsQ : Bool
  uadd16SetsGE   : Bool
deriving DecidableEq, Repr

/-- The values this spec fixes (the "value" column of R6). -/
def specParams : Params :=
  { endian := .little, alignPolicy := .fault, pcFlagset := .asIfNotPc,
    packedSatSetsQ := true, uadd16SetsGE := true }

/-- What a byte of memory that nothing has written reads as.
DESIGN CHOICE, unsafe: the spec leaves memory to the port (R42); notes/assumptions/8.md. -/
def unlistedByte : Byte := 0

end Sys2Proof.Config
end

