-- ==== Sys2Proof/Machine/State.lean ====
section
/-! DEFINITION. The state of the machine (spec/10_state.md, spec/70_reset_and_hazards.md R453) as plain
data: the registers and flags, the memory behind the port, what the host supplies to a step, and what a
step reports. INVENTORY.md lists each item with its rule. -/

namespace Sys2Proof.Machine

/-- The flags of R26: each holds a bit or no value (R21). -/
structure Flags where
  n : Option Bool
  z : Option Bool
  c : Option Bool
  v : Option Bool
  q : Option Bool
  t : Option Bool
  ge0 : Option Bool
  ge1 : Option Bool
  ge2 : Option Bool
  ge3 : Option Bool
deriving DecidableEq, Repr

/-- The names of the flags (R26). -/
inductive FlagName
  | n | z | c | v | q | t | ge0 | ge1 | ge2 | ge3
deriving DecidableEq, Repr

/-- A register or flag that an operation reads (R406). -/
inductive Source
  | reg (r : Reg)
  | flag (f : FlagName)
deriving DecidableEq, Repr

/-- The status an operation ends with (R400). `UnknownEffect` is not here: R404 ends the run with it
(`Fault.unknownEffect`). -/
inductive Status
  /-- R401. -/
  | ok
  /-- R402. -/
  | skipped
  /-- R403: the OPW. -/
  | illegal (opw : BitVec 64)
  /-- R406: what the failing step read with no value, in the fixed order of `allSources`. -/
  | unwrittenRead (set : List Source)
  /-- R405: the address of the request. -/
  | alignmentFault (addr : Word)
  /-- R407: the address of the request. -/
  | memAbort (addr : Word)
deriving DecidableEq, Repr

/-- One request on the memory port (R42): the two kinds, writes of 2 or 4 bytes and reads of 4. -/
inductive Request
  | writeHalf (addr : Word) (v : Half)
  | writeWord (addr : Word) (v : Word)
  | readWord (addr : Word) (unpriv : Bool)
deriving DecidableEq, Repr

/-- The memory port's answer to one request (R42, R459). -/
inductive PortAnswer
  /-- The request is served: a write is `done`; a read answers the bytes the memory holds. -/
  | served
  /-- The request is served, and a read answers `data d`. -/
  | servedAs (d : Word)
  /-- R42: `abort`. -/
  | abort
  /-- R459: the port never answers. -/
  | silent
deriving DecidableEq, Repr

/-- What the host presents for one step (R453): the OPW and the `PC_READ_VALUE` of that operation, if
it supplies one (R22). -/
structure Operation where
  opw    : BitVec 64
  pcRead : Option Word
deriving DecidableEq, Repr

/-- The bytes behind the memory port: (address, byte) pairs in canonical form (`Memory.wf` of
Machine/Ops.lean). -/
abbrev Memory := List Host.Cell

/-- The machine's state. -/
structure State where
  /-- R0..R15, each a 32-bit value or no value (R20, R21). Cell 15 is R15 as written (R23). -/
  regs : Vector (Option Word) 16
  /-- The flags (R26). -/
  flags : Flags
  /-- The bytes behind the memory port (R43): addresses strictly rising, no entry equal to
  `Config.unlistedByte`. -/
  mem : Memory
  /-- `PC_READ_VALUE` of the current operation (R22). -/
  pcRead : Option Word
  /-- The operations the host has yet to present, in order (R453). -/
  presented : List Operation
  /-- The memory port's answers to the requests to come, in order; after the last of them the port
  serves every request (R42). -/
  port : List PortAnswer
  /-- The parameters the block is built with (R6); no step changes them. -/
  params : Config.Params
  /-- The status of the last operation (R400); `none` before the first. -/
  status : Option Status
  /-- The requests the last operation issued, in order (R453). -/
  requests : List Request
deriving DecidableEq, Repr

/-- Why a run stops. -/
inductive Fault
  /-- R404: raised by the unknown-effect checks of an operation (spec/60_exceptions.md R404's table),
  with its `opc`. Safe: the spec gives the operation no effect there. -/
  | unknownEffect (opc : BitVec 6)
  /-- R459: raised by a memory request the port never answers; the step does not finish. Safe: the
  spec gives no state after it. -/
  | portSilent (addr : Word)
deriving DecidableEq, Repr

/-- Why an operation has no meaning in this model. -/
inductive Refusal
  /-- Raised by `exec` for an operation without a meaning; no arm does. Safe. -/
  | notModelled (mnemonic : String)
deriving DecidableEq, Repr

/-- Every flag holding 0. -/
def Flags.reset : Flags :=
  { n := some false, z := some false, c := some false, v := some false, q := some false,
    t := some false, ge0 := some false, ge1 := some false, ge2 := some false, ge3 := some false }

/-- The machine right after reset (R33, R450). R33 gives registers and flags no value there; this
model lets each hold 0. DESIGN CHOICE, unsafe: notes/assumptions/1.md, 2.md, 3.md. Nothing is
presented, the port serves every request, and the parameters are the spec's (R6). -/
def State.reset : State :=
  { regs := Vector.replicate 16 (some 0)
    flags := Flags.reset
    mem := []
    pcRead := some 0
    presented := []
    port := []
    params := Config.specParams
    status := none
    requests := [] }

end Sys2Proof.Machine
end

