-- ==== Sys2Proof/Machine/Flags.lean ====
section
/-! DEFINITION. Reading and writing the flags: the flag rules of spec/43_alu_flags.md R191,
spec/45_multiply.md R269, the sticky Q of spec/40_datapath_primitives.md R106, the GE bits of
spec/44_packed_saturating.md R235, and the condition table of spec/42_predication.md R171. -/

namespace Sys2Proof.Machine

/-- A flag by name (R26). -/
def Flags.get (f : Flags) : FlagName → Option Bool
  | .n => f.n
  | .z => f.z
  | .c => f.c
  | .v => f.v
  | .q => f.q
  | .t => f.t
  | .ge0 => f.ge0
  | .ge1 => f.ge1
  | .ge2 => f.ge2
  | .ge3 => f.ge3

/-- `(N, Z) <- NZ(r, p)` (R115). -/
def Flags.setNZ {w : Nat} (f : Flags) (r : BitVec w) : Flags :=
  { f with n := some (nz r).1, z := some (nz r).2 }

/-- C after a shifter carry-out: `KEEP` leaves it unchanged (R130, R191). -/
def Flags.setCarry (f : Flags) (cout : Carry) : Flags :=
  match cout with
  | some b => { f with c := some b }
  | none => f

/-- R191, logical operations with S = 1: N, Z from the result, C from the shifter, V unchanged. -/
def Flags.setLogical (f : Flags) (r : Word) (cout : Carry) : Flags := (f.setNZ r).setCarry cout

/-- R191, additive operations with S = 1: N, Z from the result, C and V from the adder. -/
def Flags.setAdditive (f : Flags) (r : Word) (c v : Bool) : Flags :=
  { f.setNZ r with c := some c, v := some v }

/-- R106: `SetQ(sat)`; a clamp sets Q, and Q is otherwise neither read nor written. -/
def Flags.setQ (f : Flags) (clamped : Bool) : Flags :=
  if clamped then { f with q := some true } else f

/-- R235: GE[1:0] from the carry of lane 0 and GE[3:2] from that of lane 1. -/
def Flags.setGE (f : Flags) (lane0 lane1 : Bool) : Flags :=
  { f with ge0 := some lane0, ge1 := some lane0, ge2 := some lane1, ge3 := some lane1 }

/-- R171, column "flags read". -/
def condReads : Cond → List Source
  | .eq => [.flag .z]
  | .ne => [.flag .z]
  | .cs => [.flag .c]
  | .cc => [.flag .c]
  | .mi => [.flag .n]
  | .pl => [.flag .n]
  | .vs => [.flag .v]
  | .vc => [.flag .v]
  | .hi => [.flag .c, .flag .z]
  | .ls => [.flag .c, .flag .z]
  | .ge => [.flag .n, .flag .v]
  | .lt => [.flag .n, .flag .v]
  | .gt => [.flag .z, .flag .n, .flag .v]
  | .le => [.flag .z, .flag .n, .flag .v]
  | .al => []
  | .nv => []

/-- R171: `CondHolds(cond)`; `none` when a flag it reads has no value. Every flag of the column is
read, with no short-circuit. NV never holds (R176) and AL always does (R177). -/
def Flags.condHolds (f : Flags) : Cond → Option Bool
  | .eq => f.z
  | .ne => f.z.map (!·)
  | .cs => f.c
  | .cc => f.c.map (!·)
  | .mi => f.n
  | .pl => f.n.map (!·)
  | .vs => f.v
  | .vc => f.v.map (!·)
  | .hi => match f.c, f.z with
    | some c, some z => some (c && !z)
    | _, _ => none
  | .ls => match f.c, f.z with
    | some c, some z => some (!c || z)
    | _, _ => none
  | .ge => match f.n, f.v with
    | some n, some v => some (n == v)
    | _, _ => none
  | .lt => match f.n, f.v with
    | some n, some v => some (n != v)
    | _, _ => none
  | .gt => match f.z, f.n, f.v with
    | some z, some n, some v => some (!z && n == v)
    | _, _, _ => none
  | .le => match f.z, f.n, f.v with
    | some z, some n, some v => some (z || n != v)
    | _, _, _ => none
  | .al => some true
  | .nv => some false

end Sys2Proof.Machine
end

