-- ==== Sys2Proof/Machine/Ops.lean ====
section
/-! DEFINITION. The named operations over registers, memory and the port, and what ends an operation:
`raise`, the one shared operation for a fault status (spec/60_exceptions.md R400, R410: the status is
recorded, no register or flag is written, memory writes already done stay), `complete` (R401) and the
predication multiplexer `gate` (spec/42_predication.md R172). The block has no return from an exception
(R411). -/

namespace Sys2Proof.Machine

/-- The outcome of one operation. -/
abbrev Result := Host.Outcome State Fault Refusal

/-! ## Registers and reads -/

/-- `x[r]`: R15 reads `PC_READ_VALUE` (R22), every other register its cell (R21). -/
def State.readReg (s : State) (r : Reg) : Option Word :=
  if r = 15 then s.pcRead else s.regs.get r

/-- `x[r] <- v`: an ordinary register write, of R15 too (R23). -/
def State.writeReg (s : State) (r : Reg) (v : Word) : State :=
  { s with regs := s.regs.set r.val (some v) r.isLt }

/-- Every register and flag, in the fixed order in which a set of them is listed. -/
def allSources : List Source :=
  [.reg 0, .reg 1, .reg 2, .reg 3, .reg 4, .reg 5, .reg 6, .reg 7, .reg 8, .reg 9, .reg 10, .reg 11,
   .reg 12, .reg 13, .reg 14, .reg 15, .flag .n, .flag .z, .flag .c, .flag .v, .flag .q, .flag .t,
   .flag .ge0, .flag .ge1, .flag .ge2, .flag .ge3]

/-- Whether a read of a register or flag finds a value (R21). -/
def State.holds (s : State) : Source → Bool
  | .reg r => (s.readReg r).isSome
  | .flag f => (s.flags.get f).isSome

/-- R406: the set of the registers and flags among `reads` that hold no value. -/
def State.missing (s : State) (reads : List Source) : List Source :=
  allSources.filter fun x => decide (x ∈ reads) && !s.holds x

/-- The values of a list of registers, when each holds one. -/
def State.readRegs (s : State) : List Reg → Option (List Word)
  | [] => some []
  | r :: rs =>
    match s.readReg r, s.readRegs rs with
    | some v, some vs => some (v :: vs)
    | _, _ => none

/-! ## Ending an operation -/

/-- R400, R410: a fault status ends the operation. The status and its information go to the host;
nothing of the operation is committed. -/
def raise (st : Status) (s : State) : Result := .next { s with status := some st }

/-- R401: the operation's rule ran to its end; `s` is the state with its writes committed. -/
def State.complete (s : State) : Result := .next { s with status := some .ok }

/-- The start of an operation: no request of it has been issued. -/
def State.begin (s : State) : State := { s with requests := [] }

/-- R172, R408 steps 2 and 3: the predication multiplexer. -/
def gate (c : Suffix) (s : State) (body : State → Result) : Result :=
  match c with
  | none => body s.begin
  | some k =>
    match s.flags.condHolds k with
    | none => raise (.unwrittenRead (s.missing (condReads k))) s.begin
    | some false => .next { s.begin with status := some .skipped }
    | some true => body s.begin

/-! ## Memory -/

/-- One byte of memory. -/
def Memory.read : Memory → Nat → Byte
  | [], _ => Config.unlistedByte
  | (b, v) :: rest, a => if a = b then v else Memory.read rest a

/-- Write one byte, keeping the canonical form. -/
def Memory.write : Memory → Nat → Byte → Memory
  | [], a, v => if v = Config.unlistedByte then [] else [(a, v)]
  | (b, w) :: rest, a, v =>
    if a < b then
      if v = Config.unlistedByte then (b, w) :: rest else (a, v) :: (b, w) :: rest
    else if a = b then
      if v = Config.unlistedByte then rest else (a, v) :: rest
    else (b, w) :: Memory.write rest a v

/-- The canonical form: addresses strictly rising and below 2^32 (R40), no entry equal to what an
unlisted address reads as. -/
def Memory.wf (m : Memory) : Bool :=
  decide (m.Pairwise fun x y => x.1 < y.1) &&
    m.all fun x => decide (x.1 < 2 ^ 32) && x.2 != Config.unlistedByte

/-- Bytes at consecutive addresses modulo 2^32 (R41, R43). -/
def Memory.writeBytes (m : Memory) (a : Word) : List Byte → Memory
  | [] => m
  | b :: bs => Memory.writeBytes (m.write a.toNat b) (a + 1) bs

/-- R43: the bytes of a word in address order. -/
def bytesOfWord (e : Config.Endian) (v : Word) : List Byte :=
  match e with
  | .little => [lane8 v 0, lane8 v 1, lane8 v 2, lane8 v 3]
  | .big => [lane8 v 3, lane8 v 2, lane8 v 1, lane8 v 0]

/-- R43: the bytes of a halfword in address order. -/
def bytesOfHalf (e : Config.Endian) (v : Half) : List Byte :=
  match e with
  | .little => [v.extractLsb' 0 8, v.extractLsb' 8 8]
  | .big => [v.extractLsb' 8 8, v.extractLsb' 0 8]

/-- R43: the word at an address. -/
def Memory.readWord (e : Config.Endian) (m : Memory) (a : Word) : Word :=
  let b0 := m.read a.toNat
  let b1 := m.read (a + 1).toNat
  let b2 := m.read (a + 2).toNat
  let b3 := m.read (a + 3).toNat
  match e with
  | .little => b3 ++ b2 ++ b1 ++ b0
  | .big => b0 ++ b1 ++ b2 ++ b3

/-! ## The memory port -/

def Request.addr : Request → Word
  | .writeHalf a _ => a
  | .writeWord a _ => a
  | .readWord a _ => a

/-- R45: a 4-byte request needs addr[1:0] = 00, a 2-byte request addr[0] = 0. -/
def Request.aligned : Request → Bool
  | .writeHalf a _ => a.extractLsb' 0 1 == 0
  | .writeWord a _ => a.extractLsb' 0 2 == 0
  | .readWord a _ => a.extractLsb' 0 2 == 0

/-- R45: whether a request may be issued under the alignment policy. -/
def Request.mayIssue (p : Config.AlignPolicy) (r : Request) : Bool :=
  match p with
  | .fault => r.aligned
  | .allow => true

/-- R44, R45, R407: check the alignment, issue one request and wait for its answer. It answers the
data of an answer that carries some and the state after the request, or how the operation ends. -/
def issue (r : Request) (s : State) : Except Result (Option Word × State) :=
  if r.mayIssue s.params.alignPolicy then
    let s' := { s with requests := s.requests ++ [r], port := s.port.tail }
    match s.port.head? with
    | none => .ok (none, s')
    | some .served => .ok (none, s')
    | some (.servedAs d) => .ok (some d, s')
    | some .abort => .error (raise (.memAbort r.addr) s')
    | some .silent => .error (.fault (.portSilent r.addr))
  else .error (raise (.alignmentFault r.addr) s)

/-- `MemWrite(addr, 4, v)` (R42, R43). -/
def memWriteWord (addr v : Word) (s : State) : Except Result State :=
  match issue (.writeWord addr v) s with
  | .error o => .error o
  | .ok (_, s') => .ok { s' with mem := s'.mem.writeBytes addr (bytesOfWord s'.params.endian v) }

/-- `MemWrite(addr, 2, v)` (R42, R43). -/
def memWriteHalf (addr : Word) (v : Half) (s : State) : Except Result State :=
  match issue (.writeHalf addr v) s with
  | .error o => .error o
  | .ok (_, s') => .ok { s' with mem := s'.mem.writeBytes addr (bytesOfHalf s'.params.endian v) }

/-- `MemRead(addr, 4, unpriv)` (R42, R43): the port's data where its answer gives one, else the bytes
the memory holds. -/
def memReadWord (addr : Word) (unpriv : Bool) (s : State) : Except Result (Word × State) :=
  match issue (.readWord addr unpriv) s with
  | .error o => .error o
  | .ok (some d, s') => .ok (d, s')
  | .ok (none, s') => .ok (s'.mem.readWord s'.params.endian addr, s')

/-- Words at consecutive addresses 4 apart, one request each, in increasing order (R46, R48, R409). -/
def memWriteWords : List Word → Word → State → Except Result State
  | [], _, s => .ok s
  | v :: vs, addr, s =>
    match memWriteWord addr v s with
    | .error o => .error o
    | .ok s' => memWriteWords vs (addr + 4) s'

end Sys2Proof.Machine
end

