-- ==== Sys2Proof/Machine/Operands.lean ====
section
/-! DEFINITION. The addressing-mode datapath of spec/41_addressing_modes.md: the shifter operand (mode
one), the memory address modes two to four, what each reads, and the unknown-effect checks on register
fields (spec/60_exceptions.md R404). The checks read only fields of the operation, never the state
(R408). -/

namespace Sys2Proof.Machine

/-! ## Mode one: the shifter operand -/

/-- R132, R138: the shift of a kind, with its carry. -/
def shiftC (sh : ShiftKind) (v : Word) (n : Nat) (cin : Carry) : Word × Carry :=
  match sh with
  | .lsl => lslC v n cin
  | .lsr => lsrC v n cin
  | .asr => asrC v n cin
  | .ror => rorC v n cin

/-- R131: the immediate operand and its carry. -/
def immOperand (imm8 : BitVec 8) (rot : BitVec 4) : Word × Carry :=
  let value := (rorC (zext 32 imm8) (2 * rot.toNat) none).1
  (value, if rot = 0 then none else some (value.getLsbD 31))

/-- R130: `Shifter(opw)`; `none` when something it reads has no value. -/
def shifter (s : State) : Op2 → Option (Word × Carry)
  | .imm imm8 rot => some (immOperand imm8 rot)
  | .regImm rm sh n =>
    match s.readReg rm with
    | some v => some (shiftC sh v n.toNat none)
    | none => none
  | .regReg rm sh rs =>
    match s.readReg rm, s.readReg rs with
    | some v, some k => some (shiftC sh v (k.extractLsb' 0 8).toNat none)
    | _, _ => none
  | .rrx rm =>
    match s.readReg rm, s.flags.c with
    | some v, some c => some (rrxC v c)
    | _, _ => none

/-- What the shifter operand reads (R131, R132, R137, R138). -/
def op2Reads : Op2 → List Source
  | .imm _ _ => []
  | .regImm rm _ _ => [.reg rm]
  | .regReg rm _ rs => [.reg rm, .reg rs]
  | .rrx rm => [.reg rm, .flag .c]

/-- R144: in form REG_REG, R15 as Rm, Rs or any of the operation's other registers. -/
def op2Unknown (others : List Reg) : Op2 → Bool
  | .imm _ _ => false
  | .regImm _ _ _ => false
  | .regReg rm _ rs => decide (rm = 15) || decide (rs = 15) || decide (15 ∈ others)
  | .rrx _ => false

/-! ## Modes two and three -/

/-- The result of a memory addressing mode: the address of the access, whether the base is written
back, and with what (R150). -/
structure Access where
  addr  : Word
  wb    : Bool
  wbval : Word
deriving DecidableEq, Repr

/-- R151: an index mode writes back unless it is the offset mode. -/
def writesBack : Index → Bool
  | .offset => false
  | .pre => true
  | .post => true

/-- R150: the access at `base` with an offset added or subtracted (R41: modulo 2^32). -/
def indexed (base offset : Word) (u : Bool) (idx : Index) : Access :=
  let offaddr := if u then base + offset else base - offset
  { addr := (match idx with | .offset => offaddr | .pre => offaddr | .post => base)
    wb := writesBack idx
    wbval := offaddr }

/-- R73, R150: the offset of mode two; the shift's carry-out is discarded (R153). -/
def off2Value (s : State) : Off2 → Option Word
  | .imm imm12 => some (zext 32 imm12)
  | .reg rm sh n =>
    match s.readReg rm with
    | some v => some (shiftC sh v n.toNat none).1
    | none => none

def off2Reads : Off2 → List Source
  | .imm _ => []
  | .reg rm _ _ => [.reg rm]

/-- R73, R155: the offset of mode three, unshifted. -/
def off3Value (s : State) : Off3 → Option Word
  | .imm imm8 => some (zext 32 imm8)
  | .reg rm => s.readReg rm

def off3Reads : Off3 → List Source
  | .imm _ => []
  | .reg rm => [.reg rm]

/-- R150: mode two. -/
def modeTwo (s : State) (rn : Reg) (u : Bool) (idx : Index) (off : Off2) : Option Access :=
  match s.readReg rn, off2Value s off with
  | some base, some offset => some (indexed base offset u idx)
  | _, _ => none

/-- R155: mode three. -/
def modeThree (s : State) (rn : Reg) (u : Bool) (idx : Index) (off : Off3) : Option Access :=
  match s.readReg rn, off3Value s off with
  | some base, some offset => some (indexed base offset u idx)
  | _, _ => none

/-- R154: write-back with Rn = 15 or Rn = Rt, or a register offset Rm = 15. -/
def modeTwoUnknown (rt rn : Reg) (idx : Index) (off : Off2) : Bool :=
  (writesBack idx && (decide (rn = 15) || decide (rn = rt))) ||
    match off with
    | .imm _ => false
    | .reg rm _ _ => decide (rm = 15)

/-- R156: the same for mode three. -/
def modeThreeUnknown (rt rn : Reg) (idx : Index) (off : Off3) : Bool :=
  (writesBack idx && (decide (rn = 15) || decide (rn = rt))) ||
    match off with
    | .imm _ => false
    | .reg rm => decide (rm = 15)

/-- R66: the second register of an STRD pair, Rt + 1. -/
def pairReg (rt : Reg) : Reg := rt + 1

/-- R293: Rt odd or Rt = 14; R156 with Rn = Rt + 1; a register offset Rm = Rt or Rt + 1. -/
def strdUnknown (rt rn : Reg) (idx : Index) (off : Off3) : Bool :=
  decide (rt.val % 2 = 1) || decide (rt = 14) || modeThreeUnknown rt rn idx off ||
    (writesBack idx && decide (rn = pairReg rt)) ||
    match off with
    | .imm _ => false
    | .reg rm => decide (rm = rt) || decide (rm = pairReg rt)

/-- R152: the base after the operation's requests are done. -/
def State.writeBack (s : State) (rn : Reg) (a : Access) : State :=
  if a.wb then s.writeReg rn a.wbval else s

/-! ## Mode four -/

/-- The general registers in increasing number. -/
def allRegs : List Reg := [0, 1, 2, 3, 4, 5, 6, 7, 8, 9, 10, 11, 12, 13, 14, 15]

/-- R67, R161: the registers of a list, in increasing number. -/
def listRegs (list : BitVec 16) : List Reg := allRegs.filter fun r => list.getLsbD r.val

/-- R160: four bytes for each register of the list. -/
def blockBytes (list : BitVec 16) : Word := BitVec.ofNat 32 (4 * (listRegs list).length)

/-- R160: the address of the first register of the list. -/
def blockStart (base : Word) (list : BitVec 16) : BlockMode → Word
  | .ia => base
  | .ib => base + 4
  | .da => base - blockBytes list + 4
  | .db => base - blockBytes list

/-- R160: the write-back value. -/
def blockEnd (base : Word) (list : BitVec 16) : BlockMode → Word
  | .ia => base + blockBytes list
  | .ib => base + blockBytes list
  | .da => base - blockBytes list
  | .db => base - blockBytes list

/-- R163: an empty list, Rn = 15, or write-back with Rn in the list. -/
def stmUnknown (rn : Reg) (list : BitVec 16) (w : Bool) : Bool :=
  decide (list = 0) || decide (rn = 15) || (w && list.getLsbD rn.val)

/-! ## Other unknown-effect checks -/

/-- R15 among the registers an operation names (R238, R270, R325, R343, R355). -/
def anyPc (rs : List Reg) : Bool := decide (15 ∈ rs)

/-- R320: the field is legal when width ≥ 1 and lsb + width ≤ 32. -/
def fieldUnknown (lsb : BitVec 5) (width : BitVec 6) : Bool :=
  decide (width.toNat = 0) || decide (32 < lsb.toNat + width.toNat)

end Sys2Proof.Machine
end

