-- ==== Sys2Proof/Machine/Arith.lean ====
section
/-! DEFINITION. The additive operations of spec/43_alu_flags.md: ADD, SUB, SBC, NEG (R199-R202). -/

namespace Sys2Proof.Machine

/-- R190, R191, R203: commit an additive result `(r, c, v)`, and the flags when S = 1. -/
def State.commitAdditive (st : State) (s : Bool) (rd : Reg) (x : Word × Bool × Bool) : Result :=
  State.complete { st.writeReg rd x.1 with
    flags := if s then st.flags.setAdditive x.1 x.2.1 x.2.2 else st.flags }

/-- R190: an additive operation on x[Rn] and the shifter operand; the shifter's carry is ignored. -/
def additive3 (opc : BitVec 6) (f : Word → Word → Word × Bool × Bool) (s : Bool) (rd rn : Reg)
    (o : Op2) (st : State) : Result :=
  if op2Unknown [rd, rn] o then .fault (.unknownEffect opc)
  else
    match st.readReg rn, shifter st o with
    | some a, some (b, _) => st.commitAdditive s rd (f a b)
    | _, _ => raise (.unwrittenRead (st.missing (.reg rn :: op2Reads o))) st

/-- R199: ADD. -/
def execAdd (c : Suffix) (s : Bool) (rd rn : Reg) (o : Op2) (st : State) : Result :=
  gate c st (additive3 opcADD (fun a b => addWithCarry a b false) s rd rn o)

/-- R200: SUB. -/
def execSub (c : Suffix) (s : Bool) (rd rn : Reg) (o : Op2) (st : State) : Result :=
  gate c st (additive3 opcSUB (fun a b => subWithCarry a b true) s rd rn o)

/-- R201: the body of SBC, which reads C whether or not S = 1. -/
def sbcBody (s : Bool) (rd rn : Reg) (o : Op2) (st : State) : Result :=
  if op2Unknown [rd, rn] o then .fault (.unknownEffect opcSBC)
  else
    match st.readReg rn, shifter st o, st.flags.c with
    | some a, some (b, _), some cin => st.commitAdditive s rd (subWithCarry a b cin)
    | _, _, _ => raise (.unwrittenRead (st.missing (.reg rn :: .flag .c :: op2Reads o))) st

/-- R201: SBC. -/
def execSbc (c : Suffix) (s : Bool) (rd rn : Reg) (o : Op2) (st : State) : Result :=
  gate c st (sbcBody s rd rn o)

/-- R202: the body of NEG. -/
def negBody (s : Bool) (rd rm : Reg) (st : State) : Result :=
  match st.readReg rm with
  | some b => st.commitAdditive s rd (subWithCarry 0 b true)
  | none => raise (.unwrittenRead (st.missing [.reg rm])) st

/-- R202: NEG. -/
def execNeg (c : Suffix) (s : Bool) (rd rm : Reg) (st : State) : Result :=
  gate c st (negBody s rd rm)

end Sys2Proof.Machine
end

