-- ==== Sys2Proof/Machine/BitField.lean ====
section
/-! DEFINITION. Bit-field operations and MOVT (spec/47_bitfield.md R320-R326). -/

namespace Sys2Proof.Machine

/-- R321: the field n[msb:lsb], sign-extended. -/
def sbfxValue (n : Word) (lsb width : Nat) : Word := sext 32 (n.extractLsb' lsb width)

/-- R321: the body of SBFX. -/
def sbfxBody (rd rn : Reg) (lsb : BitVec 5) (width : BitVec 6) (st : State) : Result :=
  if fieldUnknown lsb width || anyPc [rd, rn] then .fault (.unknownEffect opcSBFX)
  else
    match st.readReg rn with
    | some n => (st.writeReg rd (sbfxValue n lsb.toNat width.toNat)).complete
    | none => raise (.unwrittenRead (st.missing [.reg rn])) st

/-- R321: SBFX. -/
def execSbfx (c : Suffix) (rd rn : Reg) (lsb : BitVec 5) (width : BitVec 6) (st : State) : Result :=
  gate c st (sbfxBody rd rn lsb width)

/-- R322: Rd with the field cleared. -/
def bfcValue (d : Word) (lsb width : Nat) : Word := d &&& maskZeros 32 lsb width

/-- R322: the body of BFC. -/
def bfcBody (rd : Reg) (lsb : BitVec 5) (width : BitVec 6) (st : State) : Result :=
  if fieldUnknown lsb width || anyPc [rd] then .fault (.unknownEffect opcBFC)
  else
    match st.readReg rd with
    | some d => (st.writeReg rd (bfcValue d lsb.toNat width.toNat)).complete
    | none => raise (.unwrittenRead (st.missing [.reg rd])) st

/-- R322: BFC. -/
def execBfc (c : Suffix) (rd : Reg) (lsb : BitVec 5) (width : BitVec 6) (st : State) : Result :=
  gate c st (bfcBody rd lsb width)

/-- R323: Rd with the field replaced by the low bits of Rn. -/
def bfiValue (d n : Word) (lsb width : Nat) : Word :=
  (d &&& maskZeros 32 lsb width) ||| ((lslC n lsb none).1 &&& maskOnes 32 lsb width)

/-- R323: the body of BFI. -/
def bfiBody (rd rn : Reg) (lsb : BitVec 5) (width : BitVec 6) (st : State) : Result :=
  if fieldUnknown lsb width || anyPc [rd, rn] then .fault (.unknownEffect opcBFI)
  else
    match st.readReg rd, st.readReg rn with
    | some d, some n => (st.writeReg rd (bfiValue d n lsb.toNat width.toNat)).complete
    | _, _ => raise (.unwrittenRead (st.missing [.reg rd, .reg rn])) st

/-- R323: BFI. -/
def execBfi (c : Suffix) (rd rn : Reg) (lsb : BitVec 5) (width : BitVec 6) (st : State) : Result :=
  gate c st (bfiBody rd rn lsb width)

/-- R324: the body of MOVT: imm16 over Rd[15:0]. -/
def movtBody (rd : Reg) (imm16 : BitVec 16) (st : State) : Result :=
  if anyPc [rd] then .fault (.unknownEffect opcMOVT)
  else
    match st.readReg rd with
    | some d => (st.writeReg rd (imm16 ++ d.extractLsb' 0 16)).complete
    | none => raise (.unwrittenRead (st.missing [.reg rd])) st

/-- R324: MOVT. -/
def execMovt (c : Suffix) (rd : Reg) (imm16 : BitVec 16) (st : State) : Result :=
  gate c st (movtBody rd imm16)

end Sys2Proof.Machine
end

