-- ==== Sys2Proof/Machine/Compare.lean ====
section
/-! DEFINITION. The comparisons of spec/49_misc.md: CMP and TST (R353, R354, R356): flags only, no
register written. -/

namespace Sys2Proof.Machine

/-- R356: read x[Rn] and the shifter operand, and commit the flags they give. -/
def comparison (opc : BitVec 6) (f : Word → Word → Carry → Flags → Flags) (rn : Reg) (o : Op2)
    (st : State) : Result :=
  if op2Unknown [rn] o then .fault (.unknownEffect opc)
  else
    match st.readReg rn, shifter st o with
    | some a, some (b, cout) => State.complete { st with flags := f a b cout st.flags }
    | _, _ => raise (.unwrittenRead (st.missing (.reg rn :: op2Reads o))) st

/-- R354: the flags of a subtract; the shifter's carry is discarded. -/
def cmpFlags (a b : Word) (_ : Carry) (f : Flags) : Flags :=
  f.setAdditive (subWithCarry a b true).1 (subWithCarry a b true).2.1 (subWithCarry a b true).2.2

/-- R354: CMP. -/
def execCmp (c : Suffix) (rn : Reg) (o : Op2) (st : State) : Result :=
  gate c st (comparison opcCMP cmpFlags rn o)

/-- R353: the flags of a bitwise and. -/
def tstFlags (a b : Word) (cout : Carry) (f : Flags) : Flags := f.setLogical (a &&& b) cout

/-- R353: TST. -/
def execTst (c : Suffix) (rn : Reg) (o : Op2) (st : State) : Result :=
  gate c st (comparison opcTST tstFlags rn o)

end Sys2Proof.Machine
end

