-- ==== Sys2Proof/Machine/LoadStore.lean ====
section
/-! DEFINITION. Loads and stores (spec/46_load_store.md R290-R297), in R290's order: unknown-effect
checks, register reads, address, requests, commit. -/

namespace Sys2Proof.Machine

/-- R290 steps 4 and 5: commit after the requests, or end as the first failing request says. -/
def afterRequests (x : Except Result State) (commit : State → State) : Result :=
  match x with
  | .error o => o
  | .ok s => (commit s).complete

/-- R291: the body of STR. -/
def strBody (rt rn : Reg) (u : Bool) (idx : Index) (off : Off2) (st : State) : Result :=
  if modeTwoUnknown rt rn idx off then .fault (.unknownEffect opcSTR)
  else
    match modeTwo st rn u idx off, st.readReg rt with
    | some a, some v => afterRequests (memWriteWord a.addr v st) fun s => s.writeBack rn a
    | _, _ => raise (.unwrittenRead (st.missing (.reg rn :: .reg rt :: off2Reads off))) st

/-- R291: STR. -/
def execStr (c : Suffix) (rt rn : Reg) (u : Bool) (idx : Index) (off : Off2) (st : State) : Result :=
  gate c st (strBody rt rn u idx off)

/-- R292: the body of STRH; Rt = 15 is an unknown effect. -/
def strhBody (rt rn : Reg) (u : Bool) (idx : Index) (off : Off3) (st : State) : Result :=
  if decide (rt = 15) || modeThreeUnknown rt rn idx off then .fault (.unknownEffect opcSTRH)
  else
    match modeThree st rn u idx off, st.readReg rt with
    | some a, some v =>
      afterRequests (memWriteHalf a.addr (v.extractLsb' 0 16) st) fun s => s.writeBack rn a
    | _, _ => raise (.unwrittenRead (st.missing (.reg rn :: .reg rt :: off3Reads off))) st

/-- R292: STRH. -/
def execStrh (c : Suffix) (rt rn : Reg) (u : Bool) (idx : Index) (off : Off3) (st : State) :
    Result :=
  gate c st (strhBody rt rn u idx off)

/-- R293: the body of STRD. -/
def strdBody (rt rn : Reg) (u : Bool) (idx : Index) (off : Off3) (st : State) : Result :=
  if strdUnknown rt rn idx off then .fault (.unknownEffect opcSTRD)
  else
    match modeThree st rn u idx off, st.readReg rt, st.readReg (pairReg rt) with
    | some a, some v0, some v1 =>
      afterRequests (memWriteWords [v0, v1] a.addr st) fun s => s.writeBack rn a
    | _, _, _ =>
      raise (.unwrittenRead
        (st.missing (.reg rn :: .reg rt :: .reg (pairReg rt) :: off3Reads off))) st

/-- R293: STRD. -/
def execStrd (c : Suffix) (rt rn : Reg) (u : Bool) (idx : Index) (off : Off3) (st : State) :
    Result :=
  gate c st (strdBody rt rn u idx off)

/-- R294: the body of LDRT: post-indexed, an unprivileged read; Rt = 15 is an unknown effect. -/
def ldrtBody (rt rn : Reg) (u : Bool) (off : Off2) (st : State) : Result :=
  if decide (rt = 15) || modeTwoUnknown rt rn .post off then .fault (.unknownEffect opcLDRT)
  else
    match modeTwo st rn u .post off with
    | some a =>
      match memReadWord a.addr true st with
      | .error o => o
      | .ok (d, s) => ((s.writeReg rt d).writeBack rn a).complete
    | none => raise (.unwrittenRead (st.missing (.reg rn :: off2Reads off))) st

/-- R294: LDRT. -/
def execLdrt (c : Suffix) (rt rn : Reg) (u : Bool) (off : Off2) (st : State) : Result :=
  gate c st (ldrtBody rt rn u off)

/-- R295: the body of STM. -/
def stmBody (rn : Reg) (list : BitVec 16) (am : BlockMode) (w : Bool) (st : State) : Result :=
  if stmUnknown rn list w then .fault (.unknownEffect opcSTM)
  else
    match st.readReg rn, st.readRegs (listRegs list) with
    | some base, some vs =>
      afterRequests (memWriteWords vs (blockStart base list am) st) fun s =>
        if w then s.writeReg rn (blockEnd base list am) else s
    | _, _ =>
      raise (.unwrittenRead (st.missing (.reg rn :: (listRegs list).map .reg))) st

/-- R295: STM. -/
def execStm (c : Suffix) (rn : Reg) (list : BitVec 16) (am : BlockMode) (w : Bool) (st : State) :
    Result :=
  gate c st (stmBody rn list am w)

end Sys2Proof.Machine
end

