-- ==== Sys2Proof/Machine/Logic.lean ====
section
/-! DEFINITION. The logical operations of spec/43_alu_flags.md: AND, EOR, ORR, ORN, BIC, MOV, MVN
(R190-R198). -/

namespace Sys2Proof.Machine

/-- R190, R191, R203: commit a logical result, and the flags when S = 1. -/
def State.commitLogical (st : State) (s : Bool) (rd : Reg) (r : Word) (cout : Carry) : Result :=
  State.complete { st.writeReg rd r with
    flags := if s then st.flags.setLogical r cout else st.flags }

/-- R190: a logical operation on x[Rn] and the shifter operand. -/
def logical3 (opc : BitVec 6) (f : Word → Word → Word) (s : Bool) (rd rn : Reg) (o : Op2)
    (st : State) : Result :=
  if op2Unknown [rd, rn] o then .fault (.unknownEffect opc)
  else
    match st.readReg rn, shifter st o with
    | some a, some (b, cout) => st.commitLogical s rd (f a b) cout
    | _, _ => raise (.unwrittenRead (st.missing (.reg rn :: op2Reads o))) st

/-- R190: a logical operation on the shifter operand alone. -/
def logical2 (opc : BitVec 6) (f : Word → Word) (s : Bool) (rd : Reg) (o : Op2) (st : State) :
    Result :=
  if op2Unknown [rd] o then .fault (.unknownEffect opc)
  else
    match shifter st o with
    | some (b, cout) => st.commitLogical s rd (f b) cout
    | none => raise (.unwrittenRead (st.missing (op2Reads o))) st

/-- R192: AND. -/
def execAnd (c : Suffix) (s : Bool) (rd rn : Reg) (o : Op2) (st : State) : Result :=
  gate c st (logical3 opcAND (fun a b => a &&& b) s rd rn o)

/-- R193: EOR. -/
def execEor (c : Suffix) (s : Bool) (rd rn : Reg) (o : Op2) (st : State) : Result :=
  gate c st (logical3 opcEOR (fun a b => a ^^^ b) s rd rn o)

/-- R194: ORR. -/
def execOrr (c : Suffix) (s : Bool) (rd rn : Reg) (o : Op2) (st : State) : Result :=
  gate c st (logical3 opcORR (fun a b => a ||| b) s rd rn o)

/-- R195: ORN. -/
def execOrn (c : Suffix) (s : Bool) (rd rn : Reg) (o : Op2) (st : State) : Result :=
  gate c st (logical3 opcORN (fun a b => a ||| ~~~ b) s rd rn o)

/-- R196: BIC. -/
def execBic (c : Suffix) (s : Bool) (rd rn : Reg) (o : Op2) (st : State) : Result :=
  gate c st (logical3 opcBIC (fun a b => a &&& ~~~ b) s rd rn o)

/-- R197: MOV. -/
def execMov (c : Suffix) (s : Bool) (rd : Reg) (o : Op2) (st : State) : Result :=
  gate c st (logical2 opcMOV (fun b => b) s rd o)

/-- R198: MVN. -/
def execMvn (c : Suffix) (s : Bool) (rd : Reg) (o : Op2) (st : State) : Result :=
  gate c st (logical2 opcMVN (fun b => ~~~ b) s rd o)

end Sys2Proof.Machine
end

