-- ==== Sys2Proof/Machine/Multiply.lean ====
section
/-! DEFINITION. Widening and accumulating multiplies (spec/45_multiply.md R260-R271). -/

namespace Sys2Proof.Machine

/-- R260: commit a 64-bit result to RdLo and RdHi, and N and Z from bit 63 and the 64 bits when S = 1
(R269). -/
def State.commitLong (st : State) (s : Bool) (rdLo rdHi : Reg) (r : DWord) : Result :=
  State.complete { (st.writeReg rdLo (r.extractLsb' 0 32)).writeReg rdHi (r.extractLsb' 32 32) with
    flags := if s then st.flags.setNZ r else st.flags }

/-- R261: the body of MLA. -/
def mlaBody (s : Bool) (rd rn rm ra : Reg) (st : State) : Result :=
  if anyPc [rd, rn, rm, ra] then .fault (.unknownEffect opcMLA)
  else
    match st.readReg rn, st.readReg rm, st.readReg ra with
    | some n, some m, some a =>
      let r : Word := BitVec.ofNat 32 (n.toNat * m.toNat + a.toNat)
      State.complete { st.writeReg rd r with
        flags := if s then st.flags.setNZ r else st.flags }
    | _, _, _ => raise (.unwrittenRead (st.missing [.reg rn, .reg rm, .reg ra])) st

/-- R261: MLA. -/
def execMla (c : Suffix) (s : Bool) (rd rn rm ra : Reg) (st : State) : Result :=
  gate c st (mlaBody s rd rn rm ra)

/-- R270: R15 among the registers, or RdHi = RdLo. -/
def longUnknown (rdLo rn rm rdHi : Reg) : Bool :=
  anyPc [rdLo, rn, rm, rdHi] || decide (rdHi = rdLo)

/-- R262, R263: a long multiply of x[Rn] and x[Rm]. -/
def mulLong (opc : BitVec 6) (f : Word → Word → DWord) (s : Bool) (rdLo rn rm rdHi : Reg)
    (st : State) : Result :=
  if longUnknown rdLo rn rm rdHi then .fault (.unknownEffect opc)
  else
    match st.readReg rn, st.readReg rm with
    | some n, some m => st.commitLong s rdLo rdHi (f n m)
    | _, _ => raise (.unwrittenRead (st.missing [.reg rn, .reg rm])) st

/-- R262: SMULL. -/
def execSmull (c : Suffix) (s : Bool) (rdLo rn rm rdHi : Reg) (st : State) : Result :=
  gate c st (mulLong opcSMULL sMulWide s rdLo rn rm rdHi)

/-- R263: UMULL. -/
def execUmull (c : Suffix) (s : Bool) (rdLo rn rm rdHi : Reg) (st : State) : Result :=
  gate c st (mulLong opcUMULL uMulWide s rdLo rn rm rdHi)

/-- R264: the body of UMAAL. -/
def umaalBody (rdLo rn rm rdHi : Reg) (st : State) : Result :=
  if longUnknown rdLo rn rm rdHi then .fault (.unknownEffect opcUMAAL)
  else
    match st.readReg rn, st.readReg rm, st.readReg rdLo, st.readReg rdHi with
    | some n, some m, some lo, some hi =>
      st.commitLong false rdLo rdHi
        (BitVec.ofNat 64 (n.toNat * m.toNat + lo.toNat + hi.toNat))
    | _, _, _, _ =>
      raise (.unwrittenRead (st.missing [.reg rn, .reg rm, .reg rdLo, .reg rdHi])) st

/-- R264: UMAAL. -/
def execUmaal (c : Suffix) (rdLo rn rm rdHi : Reg) (st : State) : Result :=
  gate c st (umaalBody rdLo rn rm rdHi)

/-- R265-R268: a multiply of x[Rn] and x[Rm] with one 32-bit result and no flags. -/
def mul3 (opc : BitVec 6) (f : Word → Word → Word) (rd rn rm : Reg) (st : State) : Result :=
  if anyPc [rd, rn, rm] then .fault (.unknownEffect opc)
  else
    match st.readReg rn, st.readReg rm with
    | some n, some m => (st.writeReg rd (f n m)).complete
    | _, _ => raise (.unwrittenRead (st.missing [.reg rn, .reg rm])) st

/-- R265: bits 63:32 of the signed product. -/
def smmulValue (n m : Word) : Word := (sMulWide n m).extractLsb' 32 32

/-- R266: bits 63:32 of the signed product plus 0x80000000. -/
def smmulrValue (n m : Word) : Word :=
  (BitVec.ofInt 64 (n.toInt * m.toInt + 0x80000000)).extractLsb' 32 32

/-- R267, R268: bits 47:16 of the signed product of a word and a halfword. -/
def smulwValue (n : Word) (h : Half) : Word :=
  (BitVec.ofInt 48 (n.toInt * h.toInt)).extractLsb' 16 32

/-- R265: SMMUL. -/
def execSmmul (c : Suffix) (rd rn rm : Reg) (st : State) : Result :=
  gate c st (mul3 opcSMMUL smmulValue rd rn rm)

/-- R266: SMMULR. -/
def execSmmulr (c : Suffix) (rd rn rm : Reg) (st : State) : Result :=
  gate c st (mul3 opcSMMULR smmulrValue rd rn rm)

/-- R267: SMULWB. -/
def execSmulwb (c : Suffix) (rd rn rm : Reg) (st : State) : Result :=
  gate c st (mul3 opcSMULWB (fun n m => smulwValue n (lane16 m 0)) rd rn rm)

/-- R268: SMULWT. -/
def execSmulwt (c : Suffix) (rd rn rm : Reg) (st : State) : Result :=
  gate c st (mul3 opcSMULWT (fun n m => smulwValue n (lane16 m 1)) rd rn rm)

end Sys2Proof.Machine
end

