-- ==== Sys2Proof/Machine/Packed.lean ====
section
/-! DEFINITION. Packed saturating and halving arithmetic (spec/44_packed_saturating.md R230-R239). -/

namespace Sys2Proof.Machine

/-- R230, R238: a packed operation on x[Rn] and x[Rm]; `f` gives the result and the flags after it. -/
def packed (opc : BitVec 6) (f : Word → Word → Config.Params → Flags → Word × Flags)
    (rd rn rm : Reg) (st : State) : Result :=
  if anyPc [rd, rn, rm] then .fault (.unknownEffect opc)
  else
    match st.readReg rn, st.readReg rm with
    | some n, some m =>
      State.complete { st.writeReg rd (f n m st.params st.flags).1 with
        flags := (f n m st.params st.flags).2 }
    | _, _ => raise (.unwrittenRead (st.missing [.reg rn, .reg rm])) st

/-- R239: Q after a packed saturation, by `PACKED_SAT_SETS_Q`. -/
def packedQ (p : Config.Params) (clamped : Bool) (f : Flags) : Flags :=
  if p.packedSatSetsQ then f.setQ clamped else f

/-- R230: two 16-bit lanes reassembled, lane 1 high; each lane is the low 16 bits of an integer. -/
def pack16 (r1 r0 : Int) : Word := BitVec.ofInt 16 r1 ++ BitVec.ofInt 16 r0

/-- R231: the two lane sums of QADD16 with their clamps. -/
def qadd16Lanes (n m : Word) : (Int × Bool) × (Int × Bool) :=
  (satAdd (lane16 n 1) (lane16 m 1) .signed, satAdd (lane16 n 0) (lane16 m 0) .signed)

/-- R232: QASX: the high lane the sum of Rn's high and Rm's low, the low lane the difference of Rn's
low and Rm's high. -/
def qasxLanes (n m : Word) : (Int × Bool) × (Int × Bool) :=
  (satAdd (lane16 n 1) (lane16 m 0) .signed, satSub (lane16 n 0) (lane16 m 1) .signed)

/-- R233: UQSAX: the high lane the difference, the low lane the sum. -/
def uqsaxLanes (n m : Word) : (Int × Bool) × (Int × Bool) :=
  (satSub (lane16 n 1) (lane16 m 0) .unsigned, satAdd (lane16 n 0) (lane16 m 1) .unsigned)

/-- R231-R233, R239: reassemble saturated lanes and set Q when either clamped. -/
def satLanes (lanes : (Int × Bool) × (Int × Bool)) (p : Config.Params) (f : Flags) : Word × Flags :=
  (pack16 lanes.1.1 lanes.2.1, packedQ p (lanes.2.2 || lanes.1.2) f)

/-- R231: QADD16. -/
def execQadd16 (c : Suffix) (rd rn rm : Reg) (st : State) : Result :=
  gate c st (packed opcQADD16 (fun n m => satLanes (qadd16Lanes n m)) rd rn rm)

/-- R232: QASX. -/
def execQasx (c : Suffix) (rd rn rm : Reg) (st : State) : Result :=
  gate c st (packed opcQASX (fun n m => satLanes (qasxLanes n m)) rd rn rm)

/-- R233: UQSAX. -/
def execUqsax (c : Suffix) (rd rn rm : Reg) (st : State) : Result :=
  gate c st (packed opcUQSAX (fun n m => satLanes (uqsaxLanes n m)) rd rn rm)

/-- R234: the value of UHASX. -/
def uhasxValue (n m : Word) : Word :=
  half ((lane16 n 1).toNat + (lane16 m 0).toNat : Int) 16 ++
    half ((lane16 n 0).toNat - (lane16 m 1).toNat : Int) 16

/-- R234: UHASX. -/
def execUhasx (c : Suffix) (rd rn rm : Reg) (st : State) : Result :=
  gate c st (packed opcUHASX (fun n m _ f => (uhasxValue n m, f)) rd rn rm)

/-- R235: the exact sum of lane i of UADD16. -/
def uadd16Sum (n m : Word) (i : Nat) : Nat := (lane16 n i).toNat + (lane16 m i).toNat

/-- R235: UADD16's value, and GE by `UADD16_SETS_GE`. -/
def uadd16Effect (n m : Word) (p : Config.Params) (f : Flags) : Word × Flags :=
  (pack16 (uadd16Sum n m 1) (uadd16Sum n m 0),
   if p.uadd16SetsGE then
     f.setGE (decide (0x10000 ≤ uadd16Sum n m 0)) (decide (0x10000 ≤ uadd16Sum n m 1))
   else f)

/-- R235: UADD16. -/
def execUadd16 (c : Suffix) (rd rn rm : Reg) (st : State) : Result :=
  gate c st (packed opcUADD16 uadd16Effect rd rn rm)

/-- R236: the value of SHADD16. -/
def shadd16Value (n m : Word) : Word :=
  half ((lane16 n 1).toInt + (lane16 m 1).toInt) 16 ++
    half ((lane16 n 0).toInt + (lane16 m 0).toInt) 16

/-- R236: SHADD16. -/
def execShadd16 (c : Suffix) (rd rn rm : Reg) (st : State) : Result :=
  gate c st (packed opcSHADD16 (fun n m _ f => (shadd16Value n m, f)) rd rn rm)

/-- R237: lane i of UHSUB8. -/
def uhsub8Lane (n m : Word) (i : Nat) : Byte :=
  half ((lane8 n i).toNat - (lane8 m i).toNat : Int) 8

/-- R237: the value of UHSUB8. -/
def uhsub8Value (n m : Word) : Word :=
  uhsub8Lane n m 3 ++ uhsub8Lane n m 2 ++ uhsub8Lane n m 1 ++ uhsub8Lane n m 0

/-- R237: UHSUB8. -/
def execUhsub8 (c : Suffix) (rd rn rm : Reg) (st : State) : Result :=
  gate c st (packed opcUHSUB8 (fun n m _ f => (uhsub8Value n m, f)) rd rn rm)

end Sys2Proof.Machine
end

