-- ==== Sys2Proof/Machine/Reverse.lean ====
section
/-! DEFINITION. Byte and bit reversal (spec/49_misc.md R350-R352, R355). -/

namespace Sys2Proof.Machine

/-- R355: a reversal of x[Rm] into Rd; no flag is read or written. -/
def reversal (opc : BitVec 6) (f : Word → Word) (rd rm : Reg) (st : State) : Result :=
  if anyPc [rd, rm] then .fault (.unknownEffect opc)
  else
    match st.readReg rm with
    | some m => (st.writeReg rd (f m)).complete
    | none => raise (.unwrittenRead (st.missing [.reg rm])) st

/-- R350: the bytes of a word reversed. -/
def revValue (m : Word) : Word := lane8 m 0 ++ lane8 m 1 ++ lane8 m 2 ++ lane8 m 3

/-- R351: the low halfword's bytes swapped, sign-extended. -/
def revshValue (m : Word) : Word := sext 32 (lane8 m 0 ++ lane8 m 1)

/-- R350: REV. -/
def execRev (c : Suffix) (rd rm : Reg) (st : State) : Result :=
  gate c st (reversal opcREV revValue rd rm)

/-- R351: REVSH. -/
def execRevsh (c : Suffix) (rd rm : Reg) (st : State) : Result :=
  gate c st (reversal opcREVSH revshValue rd rm)

/-- R352: RBIT. -/
def execRbit (c : Suffix) (rd rm : Reg) (st : State) : Result :=
  gate c st (reversal opcRBIT bitReverse32 rd rm)

end Sys2Proof.Machine
end

