-- ==== Sys2Proof/Machine/Saturate.lean ====
section
/-! DEFINITION. Saturate to a width (spec/48_saturate.md R340-R343). -/

namespace Sys2Proof.Machine

/-- R342: the shifted operand; the shift's carry is discarded. -/
def satOperand (v : Word) (sh : SatShift) (n : BitVec 6) : Word :=
  match sh with
  | .lsl => (lslC v n.toNat none).1
  | .asr => (asrC v n.toNat none).1

/-- R340, R341, R343: saturate the signed operand to `width` bits, and set Q on a clamp. -/
def saturateTo (opc : BitVec 6) (kind : SatKind) (rd rn : Reg) (sh : SatShift)
    (n width : BitVec 6) (st : State) : Result :=
  if anyPc [rd, rn] then .fault (.unknownEffect opc)
  else
    match st.readReg rn with
    | some v =>
      let x := saturate (satOperand v sh n).toInt width.toNat kind
      State.complete { st.writeReg rd (BitVec.ofInt 32 x.1) with flags := st.flags.setQ x.2 }
    | none => raise (.unwrittenRead (st.missing [.reg rn])) st

/-- R340: SSAT. -/
def execSsat (c : Suffix) (rd rn : Reg) (sh : SatShift) (n width : BitVec 6) (st : State) : Result :=
  gate c st (saturateTo opcSSAT .signed rd rn sh n width)

/-- R341: USAT. -/
def execUsat (c : Suffix) (rd rn : Reg) (sh : SatShift) (n width : BitVec 6) (st : State) : Result :=
  gate c st (saturateTo opcUSAT .unsigned rd rn sh n width)

end Sys2Proof.Machine
end

