-- ==== Sys2Proof/Machine/Dispatch.lean ====
section
/-! DEFINITION. One arm per operation (spec/30_encoding.md R80). -/

namespace Sys2Proof.Machine

def exec (i : Instr) (s : State) : Host.Outcome State Fault Refusal :=
  match i with
  | .and c f rd rn op2 => Sys2Proof.Machine.execAnd c f rd rn op2 s
  | .eor c f rd rn op2 => Sys2Proof.Machine.execEor c f rd rn op2 s
  | .orr c f rd rn op2 => Sys2Proof.Machine.execOrr c f rd rn op2 s
  | .orn c f rd rn op2 => Sys2Proof.Machine.execOrn c f rd rn op2 s
  | .bic c f rd rn op2 => Sys2Proof.Machine.execBic c f rd rn op2 s
  | .mov c f rd op2 => Sys2Proof.Machine.execMov c f rd op2 s
  | .mvn c f rd op2 => Sys2Proof.Machine.execMvn c f rd op2 s
  | .add c f rd rn op2 => Sys2Proof.Machine.execAdd c f rd rn op2 s
  | .sub c f rd rn op2 => Sys2Proof.Machine.execSub c f rd rn op2 s
  | .sbc c f rd rn op2 => Sys2Proof.Machine.execSbc c f rd rn op2 s
  | .neg c f rd rm => Sys2Proof.Machine.execNeg c f rd rm s
  | .cmp c rn op2 => Sys2Proof.Machine.execCmp c rn op2 s
  | .tst c rn op2 => Sys2Proof.Machine.execTst c rn op2 s
  | .qadd16 c rd rn rm => Sys2Proof.Machine.execQadd16 c rd rn rm s
  | .qasx c rd rn rm => Sys2Proof.Machine.execQasx c rd rn rm s
  | .uqsax c rd rn rm => Sys2Proof.Machine.execUqsax c rd rn rm s
  | .uhasx c rd rn rm => Sys2Proof.Machine.execUhasx c rd rn rm s
  | .uadd16 c rd rn rm => Sys2Proof.Machine.execUadd16 c rd rn rm s
  | .shadd16 c rd rn rm => Sys2Proof.Machine.execShadd16 c rd rn rm s
  | .uhsub8 c rd rn rm => Sys2Proof.Machine.execUhsub8 c rd rn rm s
  | .mla c f rd rn rm ra => Sys2Proof.Machine.execMla c f rd rn rm ra s
  | .smull c f rdLo rn rm rdHi => Sys2Proof.Machine.execSmull c f rdLo rn rm rdHi s
  | .umull c f rdLo rn rm rdHi => Sys2Proof.Machine.execUmull c f rdLo rn rm rdHi s
  | .umaal c rdLo rn rm rdHi => Sys2Proof.Machine.execUmaal c rdLo rn rm rdHi s
  | .smmul c rd rn rm => Sys2Proof.Machine.execSmmul c rd rn rm s
  | .smmulr c rd rn rm => Sys2Proof.Machine.execSmmulr c rd rn rm s
  | .smulwb c rd rn rm => Sys2Proof.Machine.execSmulwb c rd rn rm s
  | .smulwt c rd rn rm => Sys2Proof.Machine.execSmulwt c rd rn rm s
  | .str c rt rn u idx off => Sys2Proof.Machine.execStr c rt rn u idx off s
  | .strh c rt rn u idx off => Sys2Proof.Machine.execStrh c rt rn u idx off s
  | .strd c rt rn u idx off => Sys2Proof.Machine.execStrd c rt rn u idx off s
  | .ldrt c rt rn u off => Sys2Proof.Machine.execLdrt c rt rn u off s
  | .stm c rn list am w => Sys2Proof.Machine.execStm c rn list am w s
  | .sbfx c rd rn lsb width => Sys2Proof.Machine.execSbfx c rd rn lsb width s
  | .bfc c rd lsb width => Sys2Proof.Machine.execBfc c rd lsb width s
  | .bfi c rd rn lsb width => Sys2Proof.Machine.execBfi c rd rn lsb width s
  | .movt c rd imm16 => Sys2Proof.Machine.execMovt c rd imm16 s
  | .ssat c rd rn sh amount sat => Sys2Proof.Machine.execSsat c rd rn sh amount sat s
  | .usat c rd rn sh amount sat => Sys2Proof.Machine.execUsat c rd rn sh amount sat s
  | .rev c rd rm => Sys2Proof.Machine.execRev c rd rm s
  | .revsh c rd rm => Sys2Proof.Machine.execRevsh c rd rm s
  | .rbit c rd rm => Sys2Proof.Machine.execRbit c rd rm s

end Sys2Proof.Machine
end

