-- ==== Sys2Proof/Machine/Limits.lean ====
section
/-! DEFINITION. The ranges of the encoding's immediates (spec/30_encoding.md R72, R85) and the
parameter-dependent check of R84. -/

namespace Sys2Proof

/-- Legal immediate amounts (R72): LSL 0..31, LSR 0..32, ASR 0..32, ROR 0..31. -/
def ShiftKind.amountOk : ShiftKind → BitVec 6 → Bool
  | .lsl, n => n.toNat ≤ 31
  | .lsr, n => n.toNat ≤ 32
  | .asr, n => n.toNat ≤ 32
  | .ror, n => n.toNat ≤ 31

/-- Legal amounts of a saturate's shift (R72, R342): LSL 0..31, ASR 0..32. -/
def SatShift.amountOk : SatShift → BitVec 6 → Bool
  | .lsl, n => n.toNat ≤ 31
  | .asr, n => n.toNat ≤ 32

/-- Legal saturation widths (R85): 1 ≤ sat ≤ 32. -/
def satWidthOk (sat : BitVec 6) : Bool := 1 ≤ sat.toNat && sat.toNat ≤ 32

/-- A data-processing operation other than CMP and TST with `S` = 1 and `Rd` = 15 (R84). -/
def Instr.flagSetsPc : Instr → Bool
  | .and _ s rd _ _ => s && rd == 15
  | .eor _ s rd _ _ => s && rd == 15
  | .orr _ s rd _ _ => s && rd == 15
  | .orn _ s rd _ _ => s && rd == 15
  | .bic _ s rd _ _ => s && rd == 15
  | .mov _ s rd _ => s && rd == 15
  | .mvn _ s rd _ => s && rd == 15
  | .add _ s rd _ _ => s && rd == 15
  | .sub _ s rd _ _ => s && rd == 15
  | .sbc _ s rd _ _ => s && rd == 15
  | .neg _ s rd _ => s && rd == 15
  | .cmp _ _ _ => false
  | .tst _ _ _ => false
  | .qadd16 _ _ _ _ => false
  | .qasx _ _ _ _ => false
  | .uqsax _ _ _ _ => false
  | .uhasx _ _ _ _ => false
  | .uadd16 _ _ _ _ => false
  | .shadd16 _ _ _ _ => false
  | .uhsub8 _ _ _ _ => false
  | .mla _ _ _ _ _ _ => false
  | .smull _ _ _ _ _ _ => false
  | .umull _ _ _ _ _ _ => false
  | .umaal _ _ _ _ _ => false
  | .smmul _ _ _ _ => false
  | .smmulr _ _ _ _ => false
  | .smulwb _ _ _ _ => false
  | .smulwt _ _ _ _ => false
  | .str _ _ _ _ _ _ => false
  | .strh _ _ _ _ _ _ => false
  | .strd _ _ _ _ _ _ => false
  | .ldrt _ _ _ _ _ => false
  | .stm _ _ _ _ _ => false
  | .sbfx _ _ _ _ _ => false
  | .bfc _ _ _ _ => false
  | .bfi _ _ _ _ _ => false
  | .movt _ _ _ => false
  | .ssat _ _ _ _ _ _ => false
  | .usat _ _ _ _ _ _ => false
  | .rev _ _ _ => false
  | .revsh _ _ _ => false
  | .rbit _ _ _ => false

/-- What R84 adds under `PC_FLAGSET_POLICY` = refuse: such an operation is not well-formed. -/
def Instr.refusedBy (p : Config.Params) (i : Instr) : Bool :=
  p.pcFlagset == .refuse && i.flagSetsPc

end Sys2Proof
end

