-- ==== Sys2Proof/WellFormed.lean ====
section
/-! DEFINITION. The checks of spec/30_encoding.md R81-R86 that the operand types do not already make:
the legal shift amounts (R72) and the saturation width (R85). The parameter-dependent refusal of R84
is `Instr.refusedBy` of Machine/Limits.lean. The other checks (reserved opc, unused fields, S, P, forms,
index modes, register fields) are the decoder's, because an ill-formed value of those fields is no term
of `Instr`. -/

namespace Sys2Proof

def Op2.wf : Op2 → Bool
  | .imm _ _ => true
  | .regImm _ sh n => sh.amountOk n
  | .regReg _ _ _ => true
  | .rrx _ => true

def Off2.wf : Off2 → Bool
  | .imm _ => true
  | .reg _ sh n => sh.amountOk n

/-- Well-formedness of an operation (R81, R85). -/
def Instr.wf : Instr → Bool
  | .and _ _ _ _ o => o.wf
  | .eor _ _ _ _ o => o.wf
  | .orr _ _ _ _ o => o.wf
  | .orn _ _ _ _ o => o.wf
  | .bic _ _ _ _ o => o.wf
  | .mov _ _ _ o => o.wf
  | .mvn _ _ _ o => o.wf
  | .add _ _ _ _ o => o.wf
  | .sub _ _ _ _ o => o.wf
  | .sbc _ _ _ _ o => o.wf
  | .neg _ _ _ _ => true
  | .cmp _ _ o => o.wf
  | .tst _ _ o => o.wf
  | .qadd16 _ _ _ _ => true
  | .qasx _ _ _ _ => true
  | .uqsax _ _ _ _ => true
  | .uhasx _ _ _ _ => true
  | .uadd16 _ _ _ _ => true
  | .shadd16 _ _ _ _ => true
  | .uhsub8 _ _ _ _ => true
  | .mla _ _ _ _ _ _ => true
  | .smull _ _ _ _ _ _ => true
  | .umull _ _ _ _ _ _ => true
  | .umaal _ _ _ _ _ => true
  | .smmul _ _ _ _ => true
  | .smmulr _ _ _ _ => true
  | .smulwb _ _ _ _ => true
  | .smulwt _ _ _ _ => true
  | .str _ _ _ _ _ off => off.wf
  | .strh _ _ _ _ _ _ => true
  | .strd _ _ _ _ _ _ => true
  | .ldrt _ _ _ _ off => off.wf
  | .stm _ _ _ _ _ => true
  | .sbfx _ _ _ _ _ => true
  | .bfc _ _ _ _ => true
  | .bfi _ _ _ _ _ => true
  | .movt _ _ _ => true
  | .ssat _ _ _ sh n sat => sh.amountOk n && satWidthOk sat
  | .usat _ _ _ sh n sat => sh.amountOk n && satWidthOk sat
  | .rev _ _ _ => true
  | .revsh _ _ _ => true
  | .rbit _ _ _ => true

end Sys2Proof
end

