-- ==== Sys2Proof/Decode.lean ====
section
/-! DEFINITION. The operation word (OPW) of spec/30_encoding.md: its common fields (R61), the decoder
(R62-R86: total on every 64-bit word, rejecting by name) and, after it, the encoder. An OPW that any
check of R82-R86 refuses is what the machine reports as `Illegal` (R81, R403). -/

namespace Sys2Proof

/-- Why a word is not well-formed: one name per check of R82-R86. -/
inductive DecodeError
  /-- R82: `opc` is not in R80's table. -/
  | reservedOpc
  /-- R83: a field or `imm` bit the format does not list is not zero. -/
  | unusedField
  /-- R84: `S` = 1 where it is not allowed, or `S` = 0 on CMP or TST. -/
  | flagBit
  /-- R84: `P` = 0 and `cond` is not 0000. -/
  | condWithoutSuffix
  /-- R85: a form or `sh` value the format does not have. -/
  | form
  /-- R85: `idx` = 11, or LDRT with `idx` other than 10. -/
  | indexMode
  /-- R72, R85: a shift amount outside the legal range of its kind. -/
  | shiftAmount
  /-- R85: a saturation width outside 1..32. -/
  | satWidth
  /-- R86: a register field that must be zero is not. -/
  | registerField
deriving DecidableEq, Repr

/-- The common fields of an OPW (R61), from bit 63 down. -/
structure Fields where
  cond : BitVec 4
  p    : Bool
  opc  : BitVec 6
  s    : Bool
  rd   : BitVec 4
  rn   : BitVec 4
  rm   : BitVec 4
  rs   : BitVec 4
  sh   : BitVec 2
  form : BitVec 2
  imm  : BitVec 32
deriving DecidableEq, Repr

/-- R61: the bit positions of the common fields. -/
def unpackFields (w : BitVec 64) : Fields :=
  { cond := w.extractLsb' 60 4
    p    := w.getLsbD 59
    opc  := w.extractLsb' 53 6
    s    := w.getLsbD 52
    rd   := w.extractLsb' 48 4
    rn   := w.extractLsb' 44 4
    rm   := w.extractLsb' 40 4
    rs   := w.extractLsb' 36 4
    sh   := w.extractLsb' 34 2
    form := w.extractLsb' 32 2
    imm  := w.extractLsb' 0 32 }

/-! ## The decoder -/

/-- A check: go on when it holds, reject by name otherwise. -/
def require (holds : Bool) (e : DecodeError) : Except DecodeError Unit :=
  if holds then .ok () else .error e

/-- R70: the condition of a `cond` field. -/
def condOfBits (b : BitVec 4) : Cond :=
  match b.toNat with
  | 0 => .eq
  | 1 => .ne
  | 2 => .cs
  | 3 => .cc
  | 4 => .mi
  | 5 => .pl
  | 6 => .vs
  | 7 => .vc
  | 8 => .hi
  | 9 => .ls
  | 10 => .ge
  | 11 => .lt
  | 12 => .gt
  | 13 => .le
  | 14 => .al
  | _ => .nv

/-- R61, R70, R84: the condition suffix; with `P` = 0, `cond` must be 0000. -/
def decodeSuffix (f : Fields) : Except DecodeError Suffix :=
  if f.p then .ok (some (condOfBits f.cond))
  else do
    require (f.cond == 0) .condWithoutSuffix
    .ok none

/-- R61: the shift kind of an `sh` field. -/
def shiftOfBits (b : BitVec 2) : ShiftKind :=
  match b.toNat with
  | 0 => .lsl
  | 1 => .lsr
  | 2 => .asr
  | _ => .ror

/-- R62: the shifter operand, selected by `form`. -/
def decodeOp2 (f : Fields) : Except DecodeError Op2 :=
  match f.form.toNat with
  | 0 => do
    require (f.rm == 0 && f.rs == 0 && f.sh == 0 && f.imm.extractLsb' 12 20 == 0) .unusedField
    .ok (.imm (f.imm.extractLsb' 0 8) (f.imm.extractLsb' 8 4))
  | 1 => do
    require (f.rs == 0 && f.imm.extractLsb' 6 26 == 0) .unusedField
    require ((shiftOfBits f.sh).amountOk (f.imm.extractLsb' 0 6)) .shiftAmount
    .ok (.regImm f.rm.toFin (shiftOfBits f.sh) (f.imm.extractLsb' 0 6))
  | 2 => do
    require (f.imm == 0) .unusedField
    .ok (.regReg f.rm.toFin (shiftOfBits f.sh) f.rs.toFin)
  | _ => do
    require (f.sh == 3) .form
    require (f.rs == 0 && f.imm == 0) .unusedField
    .ok (.rrx f.rm.toFin)

/-- R65: the index mode of `imm[30:29]`; 11 is reserved (R85). -/
def decodeIndex (f : Fields) : Except DecodeError Index :=
  match (f.imm.extractLsb' 29 2).toNat with
  | 0 => .ok .offset
  | 1 => .ok .pre
  | 2 => .ok .post
  | _ => .error .indexMode

/-- R65: the offset of addressing mode two. -/
def decodeOff2 (f : Fields) : Except DecodeError Off2 :=
  match f.form.toNat with
  | 0 => do
    require (f.rm == 0 && f.rs == 0 && f.sh == 0 && f.imm.extractLsb' 12 17 == 0) .unusedField
    .ok (.imm (f.imm.extractLsb' 0 12))
  | 1 => do
    require (f.rs == 0 && f.imm.extractLsb' 6 23 == 0) .unusedField
    require ((shiftOfBits f.sh).amountOk (f.imm.extractLsb' 0 6)) .shiftAmount
    .ok (.reg f.rm.toFin (shiftOfBits f.sh) (f.imm.extractLsb' 0 6))
  | _ => .error .form

/-- R66: the offset of addressing mode three. -/
def decodeOff3 (f : Fields) : Except DecodeError Off3 :=
  match f.form.toNat with
  | 0 => do
    require (f.rm == 0 && f.rs == 0 && f.sh == 0 && f.imm.extractLsb' 8 21 == 0) .unusedField
    .ok (.imm (f.imm.extractLsb' 0 8))
  | 1 => do
    require (f.sh == 0) .form
    require (f.rs == 0 && f.imm.extractLsb' 0 29 == 0) .unusedField
    .ok (.reg f.rm.toFin)
  | _ => .error .form

/-- R67: the sub-mode of `imm[17:16]`. -/
def blockModeOfBits (b : BitVec 2) : BlockMode :=
  match b.toNat with
  | 0 => .ia
  | 1 => .ib
  | 2 => .da
  | _ => .db

/-- R69, R85: the shift of a saturate: `form` = 01 and `sh` 00 or 10. -/
def decodeSatShift (f : Fields) : Except DecodeError SatShift := do
  require (f.form == 1) .form
  match f.sh.toNat with
  | 0 => .ok .lsl
  | 2 => .ok .asr
  | _ => .error .form

/-- `Rs`, `sh`, `form` and `imm` are unused (formats PK, R2; R83). -/
def noOperandForm (f : Fields) : Bool :=
  f.rs == 0 && f.sh == 0 && f.form == 0 && f.imm == 0

/-- Format DP with Rd and Rn (R62). -/
def decodeDp3 (mk : Suffix → Bool → Reg → Reg → Op2 → Instr) (f : Fields) :
    Except DecodeError Instr := do
  let c ← decodeSuffix f
  let o ← decodeOp2 f
  .ok (mk c f.s f.rd.toFin f.rn.toFin o)

/-- Format DP without Rn: MOV and MVN (R62, R86). -/
def decodeDpMove (mk : Suffix → Bool → Reg → Op2 → Instr) (f : Fields) :
    Except DecodeError Instr := do
  let c ← decodeSuffix f
  require (f.rn == 0) .registerField
  let o ← decodeOp2 f
  .ok (mk c f.s f.rd.toFin o)

/-- Format DP without Rd, `S` = 1: CMP and TST (R62, R84, R86). -/
def decodeDpTest (mk : Suffix → Reg → Op2 → Instr) (f : Fields) : Except DecodeError Instr := do
  let c ← decodeSuffix f
  require f.s .flagBit
  require (f.rd == 0) .registerField
  let o ← decodeOp2 f
  .ok (mk c f.rn.toFin o)

/-- NEG: a plain register in Rm (R62, R86). -/
def decodeNeg (f : Fields) : Except DecodeError Instr := do
  let c ← decodeSuffix f
  require (f.rn == 0) .registerField
  require (f.form == 1 && f.sh == 0) .form
  require (f.rs == 0 && f.imm == 0) .unusedField
  .ok (.neg c f.s f.rd.toFin f.rm.toFin)

/-- Format PK (R63). -/
def decodePk (mk : Suffix → Reg → Reg → Reg → Instr) (f : Fields) : Except DecodeError Instr := do
  let c ← decodeSuffix f
  require (!f.s) .flagBit
  require (noOperandForm f) .unusedField
  .ok (mk c f.rd.toFin f.rn.toFin f.rm.toFin)

/-- Format MUL with an `S` bit and four registers: MLA, SMULL, UMULL (R64). -/
def decodeMulS (mk : Suffix → Bool → Reg → Reg → Reg → Reg → Instr) (f : Fields) :
    Except DecodeError Instr := do
  let c ← decodeSuffix f
  require (f.sh == 0 && f.form == 0 && f.imm == 0) .unusedField
  .ok (mk c f.s f.rd.toFin f.rn.toFin f.rm.toFin f.rs.toFin)

/-- UMAAL: four registers, `S` = 0 (R64). -/
def decodeUmaal (f : Fields) : Except DecodeError Instr := do
  let c ← decodeSuffix f
  require (!f.s) .flagBit
  require (f.sh == 0 && f.form == 0 && f.imm == 0) .unusedField
  .ok (.umaal c f.rd.toFin f.rn.toFin f.rm.toFin f.rs.toFin)

/-- Format MUL with three registers, `Rs` = 0 and `S` = 0 (R64, R86). -/
def decodeMul3 (mk : Suffix → Reg → Reg → Reg → Instr) (f : Fields) : Except DecodeError Instr := do
  let c ← decodeSuffix f
  require (!f.s) .flagBit
  require (f.rs == 0) .registerField
  require (f.sh == 0 && f.form == 0 && f.imm == 0) .unusedField
  .ok (mk c f.rd.toFin f.rn.toFin f.rm.toFin)

/-- STR (format MEM2, R65). -/
def decodeStr (f : Fields) : Except DecodeError Instr := do
  let c ← decodeSuffix f
  require (!f.s) .flagBit
  let idx ← decodeIndex f
  let off ← decodeOff2 f
  .ok (.str c f.rd.toFin f.rn.toFin (f.imm.getLsbD 31) idx off)

/-- LDRT (format MEM2, R65): `idx` must be 10. -/
def decodeLdrt (f : Fields) : Except DecodeError Instr := do
  let c ← decodeSuffix f
  require (!f.s) .flagBit
  require (f.imm.extractLsb' 29 2 == 2) .indexMode
  let off ← decodeOff2 f
  .ok (.ldrt c f.rd.toFin f.rn.toFin (f.imm.getLsbD 31) off)

/-- Format MEM3: STRH and STRD (R66). -/
def decodeMem3 (mk : Suffix → Reg → Reg → Bool → Index → Off3 → Instr) (f : Fields) :
    Except DecodeError Instr := do
  let c ← decodeSuffix f
  require (!f.s) .flagBit
  let idx ← decodeIndex f
  let off ← decodeOff3 f
  .ok (mk c f.rd.toFin f.rn.toFin (f.imm.getLsbD 31) idx off)

/-- STM (format MEM4, R67). -/
def decodeStm (f : Fields) : Except DecodeError Instr := do
  let c ← decodeSuffix f
  require (!f.s) .flagBit
  require (f.rd == 0 && f.rm == 0 && f.rs == 0 && f.sh == 0 && f.form == 0 &&
    f.imm.extractLsb' 19 13 == 0) .unusedField
  .ok (.stm c f.rn.toFin (f.imm.extractLsb' 0 16) (blockModeOfBits (f.imm.extractLsb' 16 2))
    (f.imm.getLsbD 18))

/-- What format BF leaves unused in every operation (R68, R83). -/
def bfUnusedZero (f : Fields) : Bool :=
  f.rm == 0 && f.rs == 0 && f.sh == 0 && f.form == 0 &&
    f.imm.extractLsb' 14 18 == 0 && f.imm.extractLsb' 5 3 == 0

/-- SBFX and BFI (format BF, R68). -/
def decodeBf (mk : Suffix → Reg → Reg → BitVec 5 → BitVec 6 → Instr) (f : Fields) :
    Except DecodeError Instr := do
  let c ← decodeSuffix f
  require (!f.s) .flagBit
  require (bfUnusedZero f) .unusedField
  .ok (mk c f.rd.toFin f.rn.toFin (f.imm.extractLsb' 0 5) (f.imm.extractLsb' 8 6))

/-- BFC (format BF with `Rn` = 0, R68). -/
def decodeBfc (f : Fields) : Except DecodeError Instr := do
  let c ← decodeSuffix f
  require (!f.s) .flagBit
  require (f.rn == 0) .registerField
  require (bfUnusedZero f) .unusedField
  .ok (.bfc c f.rd.toFin (f.imm.extractLsb' 0 5) (f.imm.extractLsb' 8 6))

/-- MOVT (format IMM16, R68). -/
def decodeMovt (f : Fields) : Except DecodeError Instr := do
  let c ← decodeSuffix f
  require (!f.s) .flagBit
  require (f.rn == 0 && f.rm == 0 && f.rs == 0 && f.sh == 0 && f.form == 0 &&
    f.imm.extractLsb' 16 16 == 0) .unusedField
  .ok (.movt c f.rd.toFin (f.imm.extractLsb' 0 16))

/-- SSAT and USAT (format SAT, R69, R85). -/
def decodeSat (mk : Suffix → Reg → Reg → SatShift → BitVec 6 → BitVec 6 → Instr) (f : Fields) :
    Except DecodeError Instr := do
  let c ← decodeSuffix f
  require (!f.s) .flagBit
  let sh ← decodeSatShift f
  require (f.rm == 0 && f.rs == 0 && f.imm.extractLsb' 14 18 == 0 &&
    f.imm.extractLsb' 6 2 == 0) .unusedField
  require (sh.amountOk (f.imm.extractLsb' 0 6)) .shiftAmount
  require (satWidthOk (f.imm.extractLsb' 8 6)) .satWidth
  .ok (mk c f.rd.toFin f.rn.toFin sh (f.imm.extractLsb' 0 6) (f.imm.extractLsb' 8 6))

/-- Format R2: REV, REVSH, RBIT (R69). -/
def decodeR2 (mk : Suffix → Reg → Reg → Instr) (f : Fields) : Except DecodeError Instr := do
  let c ← decodeSuffix f
  require (!f.s) .flagBit
  require (f.rn == 0 && noOperandForm f) .unusedField
  .ok (mk c f.rd.toFin f.rm.toFin)

/-- R80: `opc` selects the operation; every value not listed is reserved (R82). -/
def decodeFields (f : Fields) : Except DecodeError Instr :=
  match f.opc.toNat with
  | 0x00 => decodeDp3 .and f
  | 0x01 => decodeDp3 .eor f
  | 0x02 => decodeDp3 .orr f
  | 0x03 => decodeDp3 .orn f
  | 0x04 => decodeDp3 .bic f
  | 0x05 => decodeDpMove .mov f
  | 0x06 => decodeDpMove .mvn f
  | 0x07 => decodeDp3 .add f
  | 0x08 => decodeDp3 .sub f
  | 0x09 => decodeDp3 .sbc f
  | 0x0A => decodeNeg f
  | 0x0B => decodeDpTest .cmp f
  | 0x0C => decodeDpTest .tst f
  | 0x10 => decodePk .qadd16 f
  | 0x11 => decodePk .qasx f
  | 0x12 => decodePk .uqsax f
  | 0x13 => decodePk .uhasx f
  | 0x14 => decodePk .uadd16 f
  | 0x15 => decodePk .shadd16 f
  | 0x16 => decodePk .uhsub8 f
  | 0x18 => decodeMulS .mla f
  | 0x19 => decodeMulS .smull f
  | 0x1A => decodeMulS .umull f
  | 0x1B => decodeUmaal f
  | 0x1C => decodeMul3 .smmul f
  | 0x1D => decodeMul3 .smmulr f
  | 0x1E => decodeMul3 .smulwb f
  | 0x1F => decodeMul3 .smulwt f
  | 0x20 => decodeStr f
  | 0x21 => decodeMem3 .strh f
  | 0x22 => decodeMem3 .strd f
  | 0x23 => decodeLdrt f
  | 0x24 => decodeStm f
  | 0x28 => decodeBf .sbfx f
  | 0x29 => decodeBfc f
  | 0x2A => decodeBf .bfi f
  | 0x2B => decodeMovt f
  | 0x2C => decodeSat .ssat f
  | 0x2D => decodeSat .usat f
  | 0x30 => decodeR2 .rev f
  | 0x31 => decodeR2 .revsh f
  | 0x32 => decodeR2 .rbit f
  | _ => .error .reservedOpc

/-- The instruction of an OPW, or the name of the check that refuses it. -/
def decode (w : BitVec 64) : Except DecodeError Instr := decodeFields (unpackFields w)

/-! ## The encoder -/

/-- R61: the word of the common fields. -/
def packFields (f : Fields) : BitVec 64 :=
  f.cond ++ BitVec.ofBool f.p ++ f.opc ++ BitVec.ofBool f.s ++ f.rd ++ f.rn ++ f.rm ++ f.rs ++
    f.sh ++ f.form ++ f.imm

/-- R70: the `cond` field of a condition. -/
def Cond.bits : Cond → BitVec 4
  | .eq => 0
  | .ne => 1
  | .cs => 2
  | .cc => 3
  | .mi => 4
  | .pl => 5
  | .vs => 6
  | .vc => 7
  | .hi => 8
  | .ls => 9
  | .ge => 10
  | .lt => 11
  | .gt => 12
  | .le => 13
  | .al => 14
  | .nv => 15

/-- R61: the `sh` field of a shift kind. -/
def ShiftKind.bits : ShiftKind → BitVec 2
  | .lsl => 0
  | .lsr => 1
  | .asr => 2
  | .ror => 3

/-- R69: the `sh` field of a saturate's shift. -/
def SatShift.bits : SatShift → BitVec 2
  | .lsl => 0
  | .asr => 2

/-- R65: the `idx` field of an index mode. -/
def Index.bits : Index → BitVec 2
  | .offset => 0
  | .pre => 1
  | .post => 2

/-- R67: the `am` field of a block mode. -/
def BlockMode.bits : BlockMode → BitVec 2
  | .ia => 0
  | .ib => 1
  | .da => 2
  | .db => 3

/-- The fields of a word with this suffix, operation and flag bit, every other field zero. -/
def baseFields (c : Suffix) (opc : BitVec 6) (s : Bool) : Fields :=
  { cond := (match c with | some k => k.bits | none => 0)
    p := c.isSome, opc, s, rd := 0, rn := 0, rm := 0, rs := 0, sh := 0, form := 0, imm := 0 }

/-- The number field of a register. -/
def regBits (r : Reg) : BitVec 4 := .ofFin r

/-- R62: the fields a shifter operand fills. -/
def putOp2 (o : Op2) (f : Fields) : Fields :=
  match o with
  | .imm imm8 rot => { f with form := 0, imm := 0#20 ++ rot ++ imm8 }
  | .regImm rm sh n => { f with form := 1, rm := regBits rm, sh := sh.bits, imm := 0#26 ++ n }
  | .regReg rm sh rs => { f with form := 2, rm := regBits rm, sh := sh.bits, rs := regBits rs }
  | .rrx rm => { f with form := 3, rm := regBits rm, sh := 3 }

/-- R65: the fields a mode-two address fills. -/
def putOff2 (u : Bool) (idx : Index) (off : Off2) (f : Fields) : Fields :=
  match off with
  | .imm imm12 =>
    { f with form := 0, imm := BitVec.ofBool u ++ idx.bits ++ 0#17 ++ imm12 }
  | .reg rm sh n =>
    { f with form := 1, rm := regBits rm, sh := sh.bits,
             imm := BitVec.ofBool u ++ idx.bits ++ 0#23 ++ n }

/-- R66: the fields a mode-three address fills. -/
def putOff3 (u : Bool) (idx : Index) (off : Off3) (f : Fields) : Fields :=
  match off with
  | .imm imm8 => { f with form := 0, imm := BitVec.ofBool u ++ idx.bits ++ 0#21 ++ imm8 }
  | .reg rm => { f with form := 1, rm := regBits rm, imm := BitVec.ofBool u ++ idx.bits ++ 0#29 }

/-- The fields of an operation (R62-R69, R80). -/
def encodeFields : Instr → Fields
  | .and c s rd rn o =>
    putOp2 o { baseFields c opcAND s with rd := regBits rd, rn := regBits rn }
  | .eor c s rd rn o =>
    putOp2 o { baseFields c opcEOR s with rd := regBits rd, rn := regBits rn }
  | .orr c s rd rn o =>
    putOp2 o { baseFields c opcORR s with rd := regBits rd, rn := regBits rn }
  | .orn c s rd rn o =>
    putOp2 o { baseFields c opcORN s with rd := regBits rd, rn := regBits rn }
  | .bic c s rd rn o =>
    putOp2 o { baseFields c opcBIC s with rd := regBits rd, rn := regBits rn }
  | .mov c s rd o => putOp2 o { baseFields c opcMOV s with rd := regBits rd }
  | .mvn c s rd o => putOp2 o { baseFields c opcMVN s with rd := regBits rd }
  | .add c s rd rn o =>
    putOp2 o { baseFields c opcADD s with rd := regBits rd, rn := regBits rn }
  | .sub c s rd rn o =>
    putOp2 o { baseFields c opcSUB s with rd := regBits rd, rn := regBits rn }
  | .sbc c s rd rn o =>
    putOp2 o { baseFields c opcSBC s with rd := regBits rd, rn := regBits rn }
  | .neg c s rd rm =>
    { baseFields c opcNEG s with rd := regBits rd, rm := regBits rm, form := 1 }
  | .cmp c rn o => putOp2 o { baseFields c opcCMP true with rn := regBits rn }
  | .tst c rn o => putOp2 o { baseFields c opcTST true with rn := regBits rn }
  | .qadd16 c rd rn rm =>
    { baseFields c opcQADD16 false with rd := regBits rd, rn := regBits rn, rm := regBits rm }
  | .qasx c rd rn rm =>
    { baseFields c opcQASX false with rd := regBits rd, rn := regBits rn, rm := regBits rm }
  | .uqsax c rd rn rm =>
    { baseFields c opcUQSAX false with rd := regBits rd, rn := regBits rn, rm := regBits rm }
  | .uhasx c rd rn rm =>
    { baseFields c opcUHASX false with rd := regBits rd, rn := regBits rn, rm := regBits rm }
  | .uadd16 c rd rn rm =>
    { baseFields c opcUADD16 false with rd := regBits rd, rn := regBits rn, rm := regBits rm }
  | .shadd16 c rd rn rm =>
    { baseFields c opcSHADD16 false with rd := regBits rd, rn := regBits rn, rm := regBits rm }
  | .uhsub8 c rd rn rm =>
    { baseFields c opcUHSUB8 false with rd := regBits rd, rn := regBits rn, rm := regBits rm }
  | .mla c s rd rn rm ra =>
    { baseFields c opcMLA s with rd := regBits rd, rn := regBits rn, rm := regBits rm, rs := regBits ra }
  | .smull c s rdLo rn rm rdHi =>
    { baseFields c opcSMULL s with
      rd := regBits rdLo, rn := regBits rn, rm := regBits rm, rs := regBits rdHi }
  | .umull c s rdLo rn rm rdHi =>
    { baseFields c opcUMULL s with
      rd := regBits rdLo, rn := regBits rn, rm := regBits rm, rs := regBits rdHi }
  | .umaal c rdLo rn rm rdHi =>
    { baseFields c opcUMAAL false with
      rd := regBits rdLo, rn := regBits rn, rm := regBits rm, rs := regBits rdHi }
  | .smmul c rd rn rm =>
    { baseFields c opcSMMUL false with rd := regBits rd, rn := regBits rn, rm := regBits rm }
  | .smmulr c rd rn rm =>
    { baseFields c opcSMMULR false with rd := regBits rd, rn := regBits rn, rm := regBits rm }
  | .smulwb c rd rn rm =>
    { baseFields c opcSMULWB false with rd := regBits rd, rn := regBits rn, rm := regBits rm }
  | .smulwt c rd rn rm =>
    { baseFields c opcSMULWT false with rd := regBits rd, rn := regBits rn, rm := regBits rm }
  | .str c rt rn u idx off =>
    putOff2 u idx off { baseFields c opcSTR false with rd := regBits rt, rn := regBits rn }
  | .strh c rt rn u idx off =>
    putOff3 u idx off { baseFields c opcSTRH false with rd := regBits rt, rn := regBits rn }
  | .strd c rt rn u idx off =>
    putOff3 u idx off { baseFields c opcSTRD false with rd := regBits rt, rn := regBits rn }
  | .ldrt c rt rn u off =>
    putOff2 u .post off { baseFields c opcLDRT false with rd := regBits rt, rn := regBits rn }
  | .stm c rn list am w =>
    { baseFields c opcSTM false with
      rn := regBits rn, imm := 0#13 ++ BitVec.ofBool w ++ am.bits ++ list }
  | .sbfx c rd rn lsb width =>
    { baseFields c opcSBFX false with
      rd := regBits rd, rn := regBits rn, imm := 0#18 ++ width ++ 0#3 ++ lsb }
  | .bfc c rd lsb width =>
    { baseFields c opcBFC false with rd := regBits rd, imm := 0#18 ++ width ++ 0#3 ++ lsb }
  | .bfi c rd rn lsb width =>
    { baseFields c opcBFI false with
      rd := regBits rd, rn := regBits rn, imm := 0#18 ++ width ++ 0#3 ++ lsb }
  | .movt c rd imm16 => { baseFields c opcMOVT false with rd := regBits rd, imm := 0#16 ++ imm16 }
  | .ssat c rd rn sh n sat =>
    { baseFields c opcSSAT false with
      rd := regBits rd, rn := regBits rn, sh := sh.bits, form := 1,
      imm := 0#18 ++ sat ++ 0#2 ++ n }
  | .usat c rd rn sh n sat =>
    { baseFields c opcUSAT false with
      rd := regBits rd, rn := regBits rn, sh := sh.bits, form := 1,
      imm := 0#18 ++ sat ++ 0#2 ++ n }
  | .rev c rd rm => { baseFields c opcREV false with rd := regBits rd, rm := regBits rm }
  | .revsh c rd rm => { baseFields c opcREVSH false with rd := regBits rd, rm := regBits rm }
  | .rbit c rd rm => { baseFields c opcRBIT false with rd := regBits rd, rm := regBits rm }

/-- The OPW of an operation. -/
def encode (i : Instr) : BitVec 64 := packFields (encodeFields i)

/-- The instruction the decoder reads from an instruction whose bits are `w`, bit 0 the least
significant bit of the OPW; `none` where it refuses. An OPW is one 64-bit word (R60), so bits at or
above `nbits` are 0. -/
def decodeTableWord (nbits w : Nat) : Option Instr :=
  match decode (BitVec.ofNat 64 (w % 2 ^ nbits)) with
  | .ok i => some i
  | .error _ => none

end Sys2Proof
end

