-- ==== Sys2Proof/Machine/Fetch.lean ====
section
/-! DEFINITION. How a step takes its operation: the block fetches nothing (spec/20_memory.md R55), the
host presents the OPW (spec/70_reset_and_hazards.md R453). -/

namespace Sys2Proof.Machine

/-- The operation of an OPW, when it is well-formed under the parameters (R81, R84). -/
def accepted (p : Config.Params) (opw : BitVec 64) : Option Instr :=
  match decode opw with
  | .ok i => if i.refusedBy p then none else some i
  | .error _ => none

/-- The state in which the presented operation runs: it is taken off the list and its
`PC_READ_VALUE` is the current one (R22). -/
def State.take (s : State) (op : Operation) (rest : List Operation) : State :=
  { s with presented := rest, pcRead := op.pcRead }

/-- R403: `Illegal(opw)`, raised before any flag or register is read. -/
def illegal (opw : BitVec 64) (s : State) : Result := raise (.illegal opw) s.begin

/-- The next operation of the host is this OPW, with the current `PC_READ_VALUE`. -/
def State.present (s : State) (opw : BitVec 64) : State :=
  { s with presented := { opw, pcRead := s.pcRead } :: s.presented.tail }

end Sys2Proof.Machine
end

