-- ==== Sys2Proof/Machine/Step.lean ====
section
/-! DEFINITION. One step of the block (spec/70_reset_and_hazards.md R453, R455). -/

namespace Sys2Proof.Machine

/-- One step: the next presented operation runs, or ends `Illegal` when it is not well-formed (R81,
R408 step 1). With none presented the block is idle (R420) and nothing changes. -/
def step (s : State) : Host.Outcome State Fault Refusal :=
  match s.presented with
  | [] => .next s
  | op :: rest =>
    match accepted s.params op.opw with
    | some i => exec i (s.take op rest)
    | none => illegal op.opw (s.take op rest)

/-- `s` with the OPW `w` as the next operation the host presents. -/
def State.withFetchWord (s : State) (nbits w : Nat) : State :=
  s.present (BitVec.ofNat 64 (w % 2 ^ nbits))

end Sys2Proof.Machine
end

