-- ==== Sys2Proof/Safety.lean ====
section
/-! DEFINITION. The terms in which statements about the machine are written: when the condition of an
operation passes, the tables of spec/60_exceptions.md R404, R406 and spec/10_state.md R29 written out
from the spec (not from the meanings), what a store leaves in memory, and the invariant of every state. -/

namespace Sys2Proof.Safety

open Sys2Proof.Machine

/-- The condition of an operation passes (R172): it has no suffix, or its condition holds. -/
def passes (c : Suffix) (s : State) : Bool :=
  match c with
  | none => true
  | some k => s.flags.condHolds k == some true

/-- The same operation with another condition suffix. -/
def withSuffix (c : Suffix) : Instr → Instr
  | .and _ s rd rn op2 => .and c s rd rn op2
  | .eor _ s rd rn op2 => .eor c s rd rn op2
  | .orr _ s rd rn op2 => .orr c s rd rn op2
  | .orn _ s rd rn op2 => .orn c s rd rn op2
  | .bic _ s rd rn op2 => .bic c s rd rn op2
  | .mov _ s rd op2 => .mov c s rd op2
  | .mvn _ s rd op2 => .mvn c s rd op2
  | .add _ s rd rn op2 => .add c s rd rn op2
  | .sub _ s rd rn op2 => .sub c s rd rn op2
  | .sbc _ s rd rn op2 => .sbc c s rd rn op2
  | .neg _ s rd rm => .neg c s rd rm
  | .cmp _ rn op2 => .cmp c rn op2
  | .tst _ rn op2 => .tst c rn op2
  | .qadd16 _ rd rn rm => .qadd16 c rd rn rm
  | .qasx _ rd rn rm => .qasx c rd rn rm
  | .uqsax _ rd rn rm => .uqsax c rd rn rm
  | .uhasx _ rd rn rm => .uhasx c rd rn rm
  | .uadd16 _ rd rn rm => .uadd16 c rd rn rm
  | .shadd16 _ rd rn rm => .shadd16 c rd rn rm
  | .uhsub8 _ rd rn rm => .uhsub8 c rd rn rm
  | .mla _ s rd rn rm ra => .mla c s rd rn rm ra
  | .smull _ s rdLo rn rm rdHi => .smull c s rdLo rn rm rdHi
  | .umull _ s rdLo rn rm rdHi => .umull c s rdLo rn rm rdHi
  | .umaal _ rdLo rn rm rdHi => .umaal c rdLo rn rm rdHi
  | .smmul _ rd rn rm => .smmul c rd rn rm
  | .smmulr _ rd rn rm => .smmulr c rd rn rm
  | .smulwb _ rd rn rm => .smulwb c rd rn rm
  | .smulwt _ rd rn rm => .smulwt c rd rn rm
  | .str _ rt rn u idx off => .str c rt rn u idx off
  | .strh _ rt rn u idx off => .strh c rt rn u idx off
  | .strd _ rt rn u idx off => .strd c rt rn u idx off
  | .ldrt _ rt rn u off => .ldrt c rt rn u off
  | .stm _ rn list am w => .stm c rn list am w
  | .sbfx _ rd rn lsb width => .sbfx c rd rn lsb width
  | .bfc _ rd lsb width => .bfc c rd lsb width
  | .bfi _ rd rn lsb width => .bfi c rd rn lsb width
  | .movt _ rd imm16 => .movt c rd imm16
  | .ssat _ rd rn sh amount sat => .ssat c rd rn sh amount sat
  | .usat _ rd rn sh amount sat => .usat c rd rn sh amount sat
  | .rev _ rd rm => .rev c rd rm
  | .revsh _ rd rm => .revsh c rd rm
  | .rbit _ rd rm => .rbit c rd rm

/-- The shifter operand is in form REG_REG and R15 is Rm, Rs or among `others` (R144). -/
def regRegPc (others : List Reg) : Op2 → Bool
  | .regReg rm _ rs => decide (15 ∈ rm :: rs :: others)
  | _ => false

/-- The field is not inside bits 31..0, or is empty (R320). -/
def badField (lsb : BitVec 5) (width : BitVec 6) : Bool :=
  !(decide (1 ≤ width.toNat) && decide (lsb.toNat + width.toNat ≤ 32))

/-- A write-back base that R154 and R156 exclude. -/
def badBase (rn : Reg) (transfer : List Reg) (idx : Index) : Bool :=
  idx != .offset && decide (rn ∈ 15 :: transfer)

/-- The register offset of an address is among these registers (R154, R156, R293). -/
def off2Among (rs : List Reg) : Off2 → Bool
  | .imm _ => false
  | .reg rm _ _ => decide (rm ∈ rs)

def off3Among (rs : List Reg) : Off3 → Bool
  | .imm _ => false
  | .reg rm => decide (rm ∈ rs)

/-- R404's table: the operand combinations whose effect the block does not define. -/
def unknownCase : Instr → Bool
  | .and _ _ rd rn o => regRegPc [rd, rn] o
  | .eor _ _ rd rn o => regRegPc [rd, rn] o
  | .orr _ _ rd rn o => regRegPc [rd, rn] o
  | .orn _ _ rd rn o => regRegPc [rd, rn] o
  | .bic _ _ rd rn o => regRegPc [rd, rn] o
  | .mov _ _ rd o => regRegPc [rd] o
  | .mvn _ _ rd o => regRegPc [rd] o
  | .add _ _ rd rn o => regRegPc [rd, rn] o
  | .sub _ _ rd rn o => regRegPc [rd, rn] o
  | .sbc _ _ rd rn o => regRegPc [rd, rn] o
  | .neg _ _ _ _ => false
  | .cmp _ rn o => regRegPc [rn] o
  | .tst _ rn o => regRegPc [rn] o
  | .qadd16 _ rd rn rm => decide (15 ∈ [rd, rn, rm])
  | .qasx _ rd rn rm => decide (15 ∈ [rd, rn, rm])
  | .uqsax _ rd rn rm => decide (15 ∈ [rd, rn, rm])
  | .uhasx _ rd rn rm => decide (15 ∈ [rd, rn, rm])
  | .uadd16 _ rd rn rm => decide (15 ∈ [rd, rn, rm])
  | .shadd16 _ rd rn rm => decide (15 ∈ [rd, rn, rm])
  | .uhsub8 _ rd rn rm => decide (15 ∈ [rd, rn, rm])
  | .mla _ _ rd rn rm ra => decide (15 ∈ [rd, rn, rm, ra])
  | .smull _ _ lo rn rm hi => decide (15 ∈ [lo, rn, rm, hi]) || decide (hi = lo)
  | .umull _ _ lo rn rm hi => decide (15 ∈ [lo, rn, rm, hi]) || decide (hi = lo)
  | .umaal _ lo rn rm hi => decide (15 ∈ [lo, rn, rm, hi]) || decide (hi = lo)
  | .smmul _ rd rn rm => decide (15 ∈ [rd, rn, rm])
  | .smmulr _ rd rn rm => decide (15 ∈ [rd, rn, rm])
  | .smulwb _ rd rn rm => decide (15 ∈ [rd, rn, rm])
  | .smulwt _ rd rn rm => decide (15 ∈ [rd, rn, rm])
  | .str _ rt rn _ idx off => badBase rn [rt] idx || off2Among [15] off
  | .strh _ rt rn _ idx off =>
    decide (rt = 15) || badBase rn [rt] idx || off3Among [15] off
  | .strd _ rt rn _ idx off =>
    decide (rt.val % 2 = 1) || decide (rt = 14) || badBase rn [rt, rt + 1] idx ||
      off3Among [15, rt, rt + 1] off
  | .ldrt _ rt rn _ off =>
    decide (rt = 15) || decide (rn ∈ [15, rt]) || off2Among [15] off
  | .stm _ rn list _ w => decide (list = 0) || decide (rn = 15) || (w && list.getLsbD rn.val)
  | .sbfx _ rd rn lsb width => badField lsb width || decide (15 ∈ [rd, rn])
  | .bfc _ rd lsb width => badField lsb width || decide (rd = 15)
  | .bfi _ rd rn lsb width => badField lsb width || decide (15 ∈ [rd, rn])
  | .movt _ rd _ => decide (rd = 15)
  | .ssat _ rd rn _ _ _ => decide (15 ∈ [rd, rn])
  | .usat _ rd rn _ _ _ => decide (15 ∈ [rd, rn])
  | .rev _ rd rm => decide (15 ∈ [rd, rm])
  | .revsh _ rd rm => decide (15 ∈ [rd, rm])
  | .rbit _ rd rm => decide (15 ∈ [rd, rm])

/-- What a shifter operand reads (R131, R132, R137, R138). -/
def op2Sources : Op2 → List Source
  | .imm _ _ => []
  | .regImm rm _ _ => [.reg rm]
  | .regReg rm _ rs => [.reg rm, .reg rs]
  | .rrx rm => [.reg rm, .flag .c]

def off2Sources : Off2 → List Source
  | .imm _ => []
  | .reg rm _ _ => [.reg rm]

def off3Sources : Off3 → List Source
  | .imm _ => []
  | .reg rm => [.reg rm]

/-- R406: what the operation's own reads (R408 step 5) read: its operand registers, C for RRX and SBC,
the old Rd of BFC, BFI and MOVT, the accumulators of MLA and UMAAL, the stored registers of a store. -/
def operandReads : Instr → List Source
  | .and _ _ _ rn o => .reg rn :: op2Sources o
  | .eor _ _ _ rn o => .reg rn :: op2Sources o
  | .orr _ _ _ rn o => .reg rn :: op2Sources o
  | .orn _ _ _ rn o => .reg rn :: op2Sources o
  | .bic _ _ _ rn o => .reg rn :: op2Sources o
  | .mov _ _ _ o => op2Sources o
  | .mvn _ _ _ o => op2Sources o
  | .add _ _ _ rn o => .reg rn :: op2Sources o
  | .sub _ _ _ rn o => .reg rn :: op2Sources o
  | .sbc _ _ _ rn o => .reg rn :: .flag .c :: op2Sources o
  | .neg _ _ _ rm => [.reg rm]
  | .cmp _ rn o => .reg rn :: op2Sources o
  | .tst _ rn o => .reg rn :: op2Sources o
  | .qadd16 _ _ rn rm => [.reg rn, .reg rm]
  | .qasx _ _ rn rm => [.reg rn, .reg rm]
  | .uqsax _ _ rn rm => [.reg rn, .reg rm]
  | .uhasx _ _ rn rm => [.reg rn, .reg rm]
  | .uadd16 _ _ rn rm => [.reg rn, .reg rm]
  | .shadd16 _ _ rn rm => [.reg rn, .reg rm]
  | .uhsub8 _ _ rn rm => [.reg rn, .reg rm]
  | .mla _ _ _ rn rm ra => [.reg rn, .reg rm, .reg ra]
  | .smull _ _ _ rn rm _ => [.reg rn, .reg rm]
  | .umull _ _ _ rn rm _ => [.reg rn, .reg rm]
  | .umaal _ lo rn rm hi => [.reg rn, .reg rm, .reg lo, .reg hi]
  | .smmul _ _ rn rm => [.reg rn, .reg rm]
  | .smmulr _ _ rn rm => [.reg rn, .reg rm]
  | .smulwb _ _ rn rm => [.reg rn, .reg rm]
  | .smulwt _ _ rn rm => [.reg rn, .reg rm]
  | .str _ rt rn _ _ off => .reg rn :: .reg rt :: off2Sources off
  | .strh _ rt rn _ _ off => .reg rn :: .reg rt :: off3Sources off
  | .strd _ rt rn _ _ off => .reg rn :: .reg rt :: .reg (rt + 1) :: off3Sources off
  | .ldrt _ _ rn _ off => .reg rn :: off2Sources off
  | .stm _ rn list _ _ => .reg rn :: (listRegs list).map .reg
  | .sbfx _ _ rn _ _ => [.reg rn]
  | .bfc _ rd _ _ => [.reg rd]
  | .bfi _ rd rn _ _ => [.reg rd, .reg rn]
  | .movt _ rd _ => [.reg rd]
  | .ssat _ _ rn _ _ _ => [.reg rn]
  | .usat _ _ rn _ _ _ => [.reg rn]
  | .rev _ _ rm => [.reg rm]
  | .revsh _ _ rm => [.reg rm]
  | .rbit _ _ rm => [.reg rm]

/-- `set` is the set of the registers and flags among `reads` that hold no value (R406), listed once
each. -/
def IsMissingSet (s : State) (reads set : List Source) : Prop :=
  set.Nodup ∧ ∀ x, x ∈ set ↔ x ∈ reads ∧ s.holds x = false

/-- R29: the flags an operation may write; every other flag is left unchanged. -/
def flagsWritten : Instr → List FlagName
  | .and _ s _ _ _ => if s then [.n, .z, .c] else []
  | .eor _ s _ _ _ => if s then [.n, .z, .c] else []
  | .orr _ s _ _ _ => if s then [.n, .z, .c] else []
  | .orn _ s _ _ _ => if s then [.n, .z, .c] else []
  | .bic _ s _ _ _ => if s then [.n, .z, .c] else []
  | .mov _ s _ _ => if s then [.n, .z, .c] else []
  | .mvn _ s _ _ => if s then [.n, .z, .c] else []
  | .add _ s _ _ _ => if s then [.n, .z, .c, .v] else []
  | .sub _ s _ _ _ => if s then [.n, .z, .c, .v] else []
  | .sbc _ s _ _ _ => if s then [.n, .z, .c, .v] else []
  | .neg _ s _ _ => if s then [.n, .z, .c, .v] else []
  | .cmp _ _ _ => [.n, .z, .c, .v]
  | .tst _ _ _ => [.n, .z, .c]
  | .qadd16 _ _ _ _ => [.q]
  | .qasx _ _ _ _ => [.q]
  | .uqsax _ _ _ _ => [.q]
  | .uhasx _ _ _ _ => []
  | .uadd16 _ _ _ _ => [.ge0, .ge1, .ge2, .ge3]
  | .shadd16 _ _ _ _ => []
  | .uhsub8 _ _ _ _ => []
  | .mla _ s _ _ _ _ => if s then [.n, .z] else []
  | .smull _ s _ _ _ _ => if s then [.n, .z] else []
  | .umull _ s _ _ _ _ => if s then [.n, .z] else []
  | .umaal _ _ _ _ _ => []
  | .smmul _ _ _ _ => []
  | .smmulr _ _ _ _ => []
  | .smulwb _ _ _ _ => []
  | .smulwt _ _ _ _ => []
  | .str _ _ _ _ _ _ => []
  | .strh _ _ _ _ _ _ => []
  | .strd _ _ _ _ _ _ => []
  | .ldrt _ _ _ _ _ => []
  | .stm _ _ _ _ _ => []
  | .sbfx _ _ _ _ _ => []
  | .bfc _ _ _ _ => []
  | .bfi _ _ _ _ _ => []
  | .movt _ _ _ => []
  | .ssat _ _ _ _ _ _ => [.q]
  | .usat _ _ _ _ _ _ => [.q]
  | .rev _ _ _ => []
  | .revsh _ _ _ => []
  | .rbit _ _ _ => []

/-- The registers an operation may write: its destinations and a base it writes back. -/
def regsWritten : Instr → List Reg
  | .and _ _ rd _ _ => [rd]
  | .eor _ _ rd _ _ => [rd]
  | .orr _ _ rd _ _ => [rd]
  | .orn _ _ rd _ _ => [rd]
  | .bic _ _ rd _ _ => [rd]
  | .mov _ _ rd _ => [rd]
  | .mvn _ _ rd _ => [rd]
  | .add _ _ rd _ _ => [rd]
  | .sub _ _ rd _ _ => [rd]
  | .sbc _ _ rd _ _ => [rd]
  | .neg _ _ rd _ => [rd]
  | .cmp _ _ _ => []
  | .tst _ _ _ => []
  | .qadd16 _ rd _ _ => [rd]
  | .qasx _ rd _ _ => [rd]
  | .uqsax _ rd _ _ => [rd]
  | .uhasx _ rd _ _ => [rd]
  | .uadd16 _ rd _ _ => [rd]
  | .shadd16 _ rd _ _ => [rd]
  | .uhsub8 _ rd _ _ => [rd]
  | .mla _ _ rd _ _ _ => [rd]
  | .smull _ _ lo _ _ hi => [lo, hi]
  | .umull _ _ lo _ _ hi => [lo, hi]
  | .umaal _ lo _ _ hi => [lo, hi]
  | .smmul _ rd _ _ => [rd]
  | .smmulr _ rd _ _ => [rd]
  | .smulwb _ rd _ _ => [rd]
  | .smulwt _ rd _ _ => [rd]
  | .str _ _ rn _ idx _ => if idx = .offset then [] else [rn]
  | .strh _ _ rn _ idx _ => if idx = .offset then [] else [rn]
  | .strd _ _ rn _ idx _ => if idx = .offset then [] else [rn]
  | .ldrt _ rt rn _ _ => [rt, rn]
  | .stm _ rn _ _ w => if w then [rn] else []
  | .sbfx _ rd _ _ _ => [rd]
  | .bfc _ rd _ _ => [rd]
  | .bfi _ rd _ _ _ => [rd]
  | .movt _ rd _ => [rd]
  | .ssat _ rd _ _ _ _ => [rd]
  | .usat _ rd _ _ _ _ => [rd]
  | .rev _ rd _ => [rd]
  | .revsh _ rd _ => [rd]
  | .rbit _ rd _ => [rd]

/-- R40: the operations that reach memory. -/
def reachesMemory : Instr → Bool
  | .str _ _ _ _ _ _ => true
  | .strh _ _ _ _ _ _ => true
  | .strd _ _ _ _ _ _ => true
  | .ldrt _ _ _ _ _ => true
  | .stm _ _ _ _ _ => true
  | .and _ _ _ _ _ => false
  | .eor _ _ _ _ _ => false
  | .orr _ _ _ _ _ => false
  | .orn _ _ _ _ _ => false
  | .bic _ _ _ _ _ => false
  | .mov _ _ _ _ => false
  | .mvn _ _ _ _ => false
  | .add _ _ _ _ _ => false
  | .sub _ _ _ _ _ => false
  | .sbc _ _ _ _ _ => false
  | .neg _ _ _ _ => false
  | .cmp _ _ _ => false
  | .tst _ _ _ => false
  | .qadd16 _ _ _ _ => false
  | .qasx _ _ _ _ => false
  | .uqsax _ _ _ _ => false
  | .uhasx _ _ _ _ => false
  | .uadd16 _ _ _ _ => false
  | .shadd16 _ _ _ _ => false
  | .uhsub8 _ _ _ _ => false
  | .mla _ _ _ _ _ _ => false
  | .smull _ _ _ _ _ _ => false
  | .umull _ _ _ _ _ _ => false
  | .umaal _ _ _ _ _ => false
  | .smmul _ _ _ _ => false
  | .smmulr _ _ _ _ => false
  | .smulwb _ _ _ _ => false
  | .smulwt _ _ _ _ => false
  | .sbfx _ _ _ _ _ => false
  | .bfc _ _ _ _ => false
  | .bfi _ _ _ _ _ => false
  | .movt _ _ _ => false
  | .ssat _ _ _ _ _ _ => false
  | .usat _ _ _ _ _ _ => false
  | .rev _ _ _ => false
  | .revsh _ _ _ => false
  | .rbit _ _ _ => false

/-- The byte address k above a word address, modulo 2^32 (R41, R43). -/
def byteAt (a : Word) (k : Nat) : Nat := (a.toNat + k) % 2 ^ 32

/-- Memory `m'` is `m` with these bytes stored from address `a` on: each stored byte reads back, and
every other address reads as before. -/
def Stored (m m' : Memory) (a : Word) (bytes : List Byte) : Prop :=
  (∀ k, (h : k < bytes.length) → m'.read (byteAt a k) = bytes[k]) ∧
    ∀ x, (∀ k, k < bytes.length → x ≠ byteAt a k) → m'.read x = m.read x

/-- The port serves the next `n` requests (a write is answered `done`, R42). -/
def portServes (n : Nat) (s : State) : Bool := (s.port.take n).all fun x => x == .served

/-- The next requests at this address pass the alignment check (R45) of `n`-byte requests. -/
def addrOk (n : Nat) (s : State) (a : Word) : Bool :=
  s.params.alignPolicy == .allow || decide (a.toNat % n = 0)

/-- The write requests of consecutive words from an address on (R46, R48). -/
def wordRequests (a : Word) : List Word → List Request
  | [] => []
  | v :: vs => .writeWord a v :: wordRequests (a + 4) vs

/-! ## The vocabulary of the statements -/

/-- `s` after an operation that ended with this status and wrote and requested nothing. -/
def endedWith (s : State) (st : Status) : State := { s with status := some st, requests := [] }

/-- `s` after an operation that ended `OK` with these register writes, in order, and these flags. -/
def wrote (s : State) (ws : List (Reg × Word)) (f : Flags) : State :=
  { endedWith s .ok with
    regs := ws.foldl (fun g w => g.set w.1.val (some w.2) w.1.isLt) s.regs, flags := f }

/-- R408 steps 4 and 5, for an operation whose condition passes: in a case of R404's table it stops
with `UnknownEffect` and this opc; otherwise, when something it reads holds no value, it ends
`UnwrittenRead` with the set of what holds none, and nothing else of the state differs. -/
def TrapsAsListed (i : Instr) (opc : BitVec 6) (s : State) : Prop :=
  (unknownCase i = true → exec i s = .fault (.unknownEffect opc)) ∧
    (unknownCase i = false → (∃ x ∈ operandReads i, s.holds x = false) →
      ∃ set, set ≠ [] ∧ IsMissingSet s (operandReads i) set ∧
        exec i s = .next (endedWith s (.unwrittenRead set)))

/-- The word ends `Illegal` in every state in which it is presented: before any flag or register is
read (R81), with nothing else of the state changed (R403). -/
def StepsIllegal (w : BitVec 64) : Prop :=
  ∀ (s : State) (p : Option Word) (rest : List Operation),
    s.presented = { opw := w, pcRead := p } :: rest →
    step s = .next { endedWith s (.illegal w) with presented := rest, pcRead := p }

/-! R61: the fields of a word, as numbers. -/

def opcOf (w : BitVec 64) : Nat := (w.extractLsb' 53 6).toNat

def condField (w : BitVec 64) : Nat := (w.extractLsb' 60 4).toNat

def suffixBit (w : BitVec 64) : Bool := w.getLsbD 59

def flagBit (w : BitVec 64) : Bool := w.getLsbD 52

def rdField (w : BitVec 64) : Nat := (w.extractLsb' 48 4).toNat

def rnField (w : BitVec 64) : Nat := (w.extractLsb' 44 4).toNat

def rsField (w : BitVec 64) : Nat := (w.extractLsb' 36 4).toNat

def shField (w : BitVec 64) : Nat := (w.extractLsb' 34 2).toNat

def formField (w : BitVec 64) : Nat := (w.extractLsb' 32 2).toNat

def idxField (w : BitVec 64) : Nat := (w.extractLsb' 29 2).toNat

def amountField (w : BitVec 64) : Nat := (w.extractLsb' 0 6).toNat

def satField (w : BitVec 64) : Nat := (w.extractLsb' 8 6).toNat

/-- R72: the greatest legal amount of a shift kind (`sh` as a number). -/
def maxAmount (sh : Nat) : Nat := if sh = 0 ∨ sh = 3 then 31 else 32

/-- R62-R69: the bits that a word's format lists for its opc and form; R83 wants every other bit to be
zero. `cond`, `P`, `opc` and `S` always count as listed (R84 rules on `S`), and so does `form` where
the format has forms. -/
def listedBits (w : BitVec 64) : BitVec 64 :=
  let opc := opcOf w
  let common : BitVec 64 := 0xFFF0000000000000
  let rd : BitVec 64 := 0x000F000000000000
  let rn : BitVec 64 := 0x0000F00000000000
  let rm : BitVec 64 := 0x00000F0000000000
  let rs : BitVec 64 := 0x000000F000000000
  let sh : BitVec 64 := 0x0000000C00000000
  let form : BitVec 64 := 0x0000000300000000
  common |||
    (if opc ≤ 0x0C then
      rd ||| rn ||| form |||
        (if formField w = 0 then 0xFFF
         else if formField w = 1 then rm ||| sh ||| 0x3F
         else if formField w = 2 then rm ||| sh ||| rs
         else rm ||| sh)
    else if opc ≤ 0x16 then rd ||| rn ||| rm
    else if opc ≤ 0x1F then rd ||| rn ||| rm ||| rs
    else if opc = 0x20 ∨ opc = 0x23 then
      rd ||| rn ||| form ||| 0xE0000000 |||
        (if formField w = 0 then 0xFFF else rm ||| sh ||| 0x3F)
    else if opc = 0x21 ∨ opc = 0x22 then
      rd ||| rn ||| form ||| 0xE0000000 ||| (if formField w = 0 then 0xFF else rm ||| sh)
    else if opc = 0x24 then rn ||| 0x7FFFF
    else if opc = 0x29 then rd ||| 0x3F1F
    else if opc ≤ 0x2A then rd ||| rn ||| 0x3F1F
    else if opc = 0x2B then rd ||| 0xFFFF
    else if opc ≤ 0x2D then rd ||| rn ||| form ||| sh ||| 0x3F3F
    else rd ||| rm)

/-- R171's table: each condition, the flags it reads, and when it holds of N, Z, C, V. -/
def conditionTable : List (Cond × List FlagName × (Bool → Bool → Bool → Bool → Bool)) :=
  [(.eq, [.z], fun _ z _ _ => z == true),
   (.ne, [.z], fun _ z _ _ => z == false),
   (.cs, [.c], fun _ _ c _ => c == true),
   (.cc, [.c], fun _ _ c _ => c == false),
   (.mi, [.n], fun n _ _ _ => n == true),
   (.pl, [.n], fun n _ _ _ => n == false),
   (.vs, [.v], fun _ _ _ v => v == true),
   (.vc, [.v], fun _ _ _ v => v == false),
   (.hi, [.c, .z], fun _ z c _ => c == true && z == false),
   (.ls, [.c, .z], fun _ z c _ => c == false || z == true),
   (.ge, [.n, .v], fun n _ _ v => n == v),
   (.lt, [.n, .v], fun n _ _ v => n != v),
   (.gt, [.z, .n, .v], fun n z _ v => z == false && n == v),
   (.le, [.z, .n, .v], fun n z _ v => z == true || n != v),
   (.al, [], fun _ _ _ _ => true),
   (.nv, [], fun _ _ _ _ => false)]

/-- A signed result outside the 32-bit range: V of an additive operation (R27). -/
def signedOverflow (x : Int) : Bool := decide (x < -2 ^ 31 ∨ 2 ^ 31 ≤ x)

/-- R29, first row: the flags after a logical operation with S = 1; `none` is `KEEP`. -/
def logicalFlags (f : Flags) (r : Word) (cout : Option Bool) : Flags :=
  { f with n := some (r.getLsbD 31), z := some (decide (r = 0)),
           c := if cout.isSome then cout else f.c }

/-- R29, second row: the flags after an additive operation with S = 1. -/
def additiveFlags (f : Flags) (r : Word) (c v : Bool) : Flags :=
  { f with n := some (r.getLsbD 31), z := some (decide (r = 0)), c := some c, v := some v }

/-- The integer forced into a range. -/
def clamp (lo hi x : Int) : Int := max lo (min hi x)

/-- R106: Q set when something clamped, otherwise as it was. -/
def setQIf (clamped : Bool) (f : Flags) : Flags :=
  { f with q := if clamped then some true else f.q }

def lo16 (v : Word) : Half := v.extractLsb' 0 16

def hi16 (v : Word) : Half := v.extractLsb' 16 16

/-- R230: halfword lanes from two integers, lane 1 high, each modulo 2^16. -/
def lanes (x1 x0 : Int) : Word := BitVec.ofInt 32 (x1 % 2 ^ 16 * 2 ^ 16 + x0 % 2 ^ 16)

/-- R231-R233, R239: `s` after two saturating lanes with the exact results `x1` and `x0`. -/
def satLanesWrote (s : State) (rd : Reg) (lo hi x1 x0 : Int) : State :=
  wrote s [(rd, lanes (clamp lo hi x1) (clamp lo hi x0))]
    (setQIf (s.params.packedSatSetsQ && (clamp lo hi x1 != x1 || clamp lo hi x0 != x0)) s.flags)

/-- R43: the low `n` bytes of a value in address order. -/
def storedBytes (e : Config.Endian) (n : Nat) (v : Word) : List Byte :=
  let le := (List.range n).map fun k => BitVec.ofNat 8 (v.toNat / 2 ^ (8 * k))
  match e with
  | .little => le
  | .big => le.reverse

/-- The registers of an STM list, in increasing number (R67, R161). -/
def listed (list : BitVec 16) : List Reg := (List.finRange 16).filter fun r => list.getLsbD r.val

/-- What an operation with one write request of `n` bytes does (R290 steps 4 and 5, R405, R407): a
misaligned request is not issued; an aborted one is issued and ends the operation; a served one
stores exactly these bytes, and then the register writes are committed. -/
def WritesOnce (i : Instr) (s : State) (r : Request) (n : Nat) (bytes : List Byte)
    (ws : List (Reg × Word)) : Prop :=
  (addrOk n s r.addr = false → exec i s = .next (endedWith s (.alignmentFault r.addr))) ∧
    (addrOk n s r.addr = true → s.port.head? = some .abort →
      exec i s = .next { endedWith s (.memAbort r.addr) with
        requests := [r], port := s.port.tail }) ∧
    (addrOk n s r.addr = true → portServes 1 s = true → s.mem.wf = true →
      ∃ m, Stored s.mem m r.addr bytes ∧ m.wf = true ∧
        exec i s = .next { wrote s ws s.flags with
          mem := m, requests := [r], port := s.port.tail })

/-- What an operation that writes these words at consecutive addresses does (R48, R290, R409): a
misaligned first address issues nothing; an abort of request `k` leaves the words before it written,
no register changed, and no later request issued; when all are served, every word is stored and the
register writes are committed. -/
def WritesWords (i : Instr) (s : State) (a : Word) (vs : List Word) (ws : List (Reg × Word)) : Prop :=
  (addrOk 4 s a = false → exec i s = .next (endedWith s (.alignmentFault a))) ∧
    (addrOk 4 s a = true → s.mem.wf = true → ∀ k < vs.length, portServes k s = true →
      s.port[k]? = some .abort →
      ∃ m, Stored s.mem m a ((vs.take k).flatMap (storedBytes s.params.endian 4)) ∧ m.wf = true ∧
        exec i s = .next { endedWith s (.memAbort (a + BitVec.ofNat 32 (4 * k))) with
          mem := m, requests := wordRequests a (vs.take (k + 1)), port := s.port.drop (k + 1) }) ∧
    (addrOk 4 s a = true → s.mem.wf = true → portServes vs.length s = true →
      ∃ m, Stored s.mem m a (vs.flatMap (storedBytes s.params.endian 4)) ∧ m.wf = true ∧
        exec i s = .next { wrote s ws s.flags with
          mem := m, requests := wordRequests a vs, port := s.port.drop vs.length })

/-- What holds of every state of a run: memory is in its canonical form. -/
def Inv (s : State) : Prop := s.mem.wf = true

/-- A step that neither faults nor ends its operation with a fault status (R400: `OK` or `Skipped`),
or an idle one. -/
def completes (s : State) : Bool :=
  match step s with
  | .next t => t.status == some .ok || t.status == some .skipped || s.presented.isEmpty
  | .fault _ => false
  | .refused _ => false

/-- A state reached by steps from another. -/
inductive Reaches : State → State → Prop
  | refl (s : State) : Reaches s s
  | tail {s t u : State} : Reaches s t → step t = .next u → Reaches s u

end Sys2Proof.Safety
end

