-- ==== Sys2Proof/Certificates/Slice0/Obligations.lean ====
section
/-! DEFINITION. The statements for the provers. Each docstring names the rules of spec/ it is read from;
the terms are those of Sys2Proof/Safety.lean. -/

open Sys2Proof Sys2Proof.Machine Sys2Proof.Safety

/-! ## Encoding -/

/-- R60-R69: no bit of an operand is dropped: decoding the word of a well-formed operation gives that
operation, for every operand. -/
def Obligations.DecodeOfEncode : Prop := ∀ i : Instr, i.wf = true → decode (encode i) = .ok i

/-- R61-R86: a word that decodes is the word of exactly that operation, which is well-formed: no other
word stands for it (R83 read as notes/assumptions/12.md says). -/
def Obligations.EncodeOfDecode : Prop :=
  ∀ (w : BitVec 64) (i : Instr), decode w = .ok i → i.wf = true ∧ encode i = w

/-- R82: the opc values with an operation are those of R80's table; a word with any other one ends
`Illegal`. -/
def Obligations.ReservedOpcodesAreIllegal : Prop :=
  (∀ w, opcOf w ∈ [0x0D, 0x0E, 0x0F, 0x17, 0x25, 0x26, 0x27, 0x2E, 0x2F, 0x33, 0x34, 0x35, 0x36, 0x37,
      0x38, 0x39, 0x3A, 0x3B, 0x3C, 0x3D, 0x3E, 0x3F] → StepsIllegal w) ∧
    ∀ k < 0x40, k ∉ [0x0D, 0x0E, 0x0F, 0x17, 0x25, 0x26, 0x27, 0x2E, 0x2F, 0x33, 0x34, 0x35, 0x36,
        0x37, 0x38, 0x39, 0x3A, 0x3B, 0x3C, 0x3D, 0x3E, 0x3F] →
      ∃ i : Instr, i.wf = true ∧ opcOf (encode i) = k

/-- R83: a word with a bit set that its format does not list for its form ends `Illegal`. Which bits a
form leaves unlisted is read from R62-R69 as notes/assumptions/12.md says. -/
def Obligations.UnlistedBitsAreIllegal : Prop :=
  ∀ w : BitVec 64, w &&& ~~~ listedBits w ≠ 0 → StepsIllegal w

/-- R84: where `S` = 1 is allowed, where it is required, `cond` with `P` = 0, and the refuse policy. -/
def Obligations.FlagAndSuffixBitsChecked : Prop :=
  (∀ w, flagBit w = true → ¬ (opcOf w ≤ 0x0C ∨ (0x18 ≤ opcOf w ∧ opcOf w ≤ 0x1A)) →
      StepsIllegal w) ∧
    (∀ k, k ≤ 0x0C ∨ (0x18 ≤ k ∧ k ≤ 0x1A) →
      ∃ i : Instr, i.wf = true ∧ opcOf (encode i) = k ∧ flagBit (encode i) = true) ∧
    (∀ w, flagBit w = false → opcOf w = 0x0B ∨ opcOf w = 0x0C → StepsIllegal w) ∧
    (∀ w, suffixBit w = false → condField w ≠ 0 → StepsIllegal w) ∧
    ∀ (s : State) (w : BitVec 64) (p : Option Word) (rest : List Operation),
      s.presented = { opw := w, pcRead := p } :: rest → s.params.pcFlagset = .refuse →
      opcOf w ≤ 0x0A → flagBit w = true → rdField w = 15 →
      step s = .next { endedWith s (.illegal w) with presented := rest, pcRead := p }

/-- R85: forms (every one for a data-processing operation but NEG, whose form R86 fixes), shift kinds and
amounts, index modes and saturation widths; every bit-field lsb and width passes. -/
def Obligations.FormsAndRangesChecked : Prop :=
  (∀ o ≤ 0x0C, o ≠ 0x0A → ∀ k < 4,
      ∃ i : Instr, i.wf = true ∧ opcOf (encode i) = o ∧ formField (encode i) = k) ∧
    (∀ w, opcOf w ≤ 0x0C → formField w = 3 → shField w ≠ 3 → StepsIllegal w) ∧
    (∀ w, opcOf w ≤ 0x0C ∨ opcOf w ∈ [0x20, 0x23, 0x2C, 0x2D] → formField w = 1 →
      maxAmount (shField w) < amountField w → StepsIllegal w) ∧
    (∀ w, opcOf w ∈ [0x20, 0x21, 0x22, 0x23] → 2 ≤ formField w ∨ idxField w = 3 →
      StepsIllegal w) ∧
    (∀ w, opcOf w = 0x23 → idxField w ≠ 2 → StepsIllegal w) ∧
    (∀ w, opcOf w = 0x21 ∨ opcOf w = 0x22 → formField w = 1 → shField w ≠ 0 → StepsIllegal w) ∧
    (∀ w, opcOf w = 0x2C ∨ opcOf w = 0x2D →
      formField w ≠ 1 ∨ shField w = 1 ∨ shField w = 3 ∨ satField w = 0 ∨ 32 < satField w →
      StepsIllegal w) ∧
    ∀ (c : Suffix) (rd rn : Reg) (lsb : BitVec 5) (width : BitVec 6),
      decode (encode (.sbfx c rd rn lsb width)) = .ok (.sbfx c rd rn lsb width) ∧
        decode (encode (.bfc c rd lsb width)) = .ok (.bfc c rd lsb width) ∧
        decode (encode (.bfi c rd rn lsb width)) = .ok (.bfi c rd rn lsb width)

/-- R86: the register fields that R62 and R64 want to be zero, and NEG's plain-register form. -/
def Obligations.RegisterFieldsChecked : Prop :=
  (∀ w, opcOf w = 0x05 ∨ opcOf w = 0x06 → rnField w ≠ 0 → StepsIllegal w) ∧
    (∀ w, opcOf w = 0x0B ∨ opcOf w = 0x0C → rdField w ≠ 0 → StepsIllegal w) ∧
    (∀ w, opcOf w = 0x0A →
      rnField w ≠ 0 ∨ formField w ≠ 1 ∨ shField w ≠ 0 ∨ amountField w ≠ 0 → StepsIllegal w) ∧
    ∀ w, 0x1C ≤ opcOf w → opcOf w ≤ 0x1F → rsField w ≠ 0 → StepsIllegal w

/-- spec/95_test_vectors.md: words written out there decode to the operations named beside them, one
from each family. -/
def Obligations.SpecWordsDecode : Prop :=
  decode 0x0880120100000000 = .ok (.bic (some .eq) false 0 1 (.regImm 2 .lsl 0)) ∧
    decode 0x00B0010F00000000 = .ok (.mov none true 0 (.rrx 1)) ∧
    decode 0x00F7010100000001 = .ok (.add none true 7 0 (.regImm 1 .lsl 1)) ∧
    decode 0xB940000100000000 = .ok (.neg (some .lt) false 0 0) ∧
    decode 0x0170010100000000 = .ok (.cmp none 0 (.regImm 1 .lsl 0)) ∧
    decode 0x0204010000000000 = .ok (.qadd16 none 4 0 1) ∧
    decode 0x0340231000000000 = .ok (.umull none false 0 2 3 1) ∧
    decode 0x0315236000000000 = .ok (.mla none true 5 2 3 6) ∧
    decode 0x04040000C0000004 = .ok (.str none 4 0 true .post (.imm 4)) ∧
    decode 0x04440000A0000008 = .ok (.strd none 4 0 true .pre (.imm 8)) ∧
    decode 0x04661000C0000004 = .ok (.ldrt none 6 1 true (.imm 4)) ∧
    decode 0x0480D00000074030 = .ok (.stm none 13 0x4030 .db true) ∧
    decode 0x0548700000000804 = .ok (.bfi none 8 7 4 8) ∧
    decode 0x056400000000AABB = .ok (.movt none 4 0xAABB) ∧
    decode 0x05A3000900000801 = .ok (.usat none 3 0 .asr 1 8) ∧
    decode 0x060B0A0000000000 = .ok (.rev none 11 10)

/-! ## The step -/

/-- R453: a step runs the decoded operation: the presented word is taken off the list, its
`PC_READ_VALUE` is the current one, and `exec` gives the outcome. That operations are presented by a
list is the model's choice (notes/assumptions/6.md). -/
def Obligations.StepRunsDecodedOperation : Prop :=
  ∀ (s : State) (w : BitVec 64) (p : Option Word) (rest : List Operation) (i : Instr),
    s.presented = { opw := w, pcRead := p } :: rest → decode w = .ok i →
    i.refusedBy s.params = false →
    step s = exec i { s with presented := rest, pcRead := p }

/-- R81, R403, R420: a word the decoder refuses, or R84's policy does, ends `Illegal` with the word; and
with nothing presented a step changes nothing (notes/assumptions/6.md). -/
def Obligations.StepOtherwise : Prop :=
  (∀ (w : BitVec 64) (e : DecodeError), decode w = .error e → StepsIllegal w) ∧
    (∀ (s : State) (w : BitVec 64) (p : Option Word) (rest : List Operation) (i : Instr),
      s.presented = { opw := w, pcRead := p } :: rest → decode w = .ok i →
      i.refusedBy s.params = true →
      step s = .next { endedWith s (.illegal w) with presented := rest, pcRead := p }) ∧
    ∀ s : State, s.presented = [] → step s = .next s

/-! ## Predication -/

/-- R171: the truth table: when every flag of the row holds a value the condition is the row's, and
otherwise the operation ends `UnwrittenRead` with the flags of the row that hold none. -/
def Obligations.ConditionTruthTable : Prop :=
  (conditionTable.map (·.1)).Nodup ∧ (∀ k : Cond, k ∈ conditionTable.map (·.1)) ∧
    ∀ row ∈ conditionTable, ∀ (i : Instr) (s : State), i.suffix = some row.1 →
      ((∀ f ∈ row.2.1, (s.flags.get f).isSome = true) →
        s.flags.condHolds row.1 = some (row.2.2 (s.flags.n.getD false) (s.flags.z.getD false)
          (s.flags.c.getD false) (s.flags.v.getD false))) ∧
      ((∃ f ∈ row.2.1, (s.flags.get f).isSome = false) →
        ∃ set, set ≠ [] ∧ IsMissingSet s (row.2.1.map .flag) set ∧
          exec i s = .next (endedWith s (.unwrittenRead set)))

/-- R172, R402: an operation whose condition fails is `Skipped` with no other effect; one whose
condition holds does what it does without a suffix. -/
def Obligations.ConditionGates : Prop :=
  ∀ (i : Instr) (s : State) (k : Cond), i.suffix = some k →
    (s.flags.condHolds k = some false → exec i s = .next (endedWith s .skipped)) ∧
    (s.flags.condHolds k = some true → exec i s = exec (withSuffix none i) s)

/-- R176, R177: NV is always `Skipped` and AL is the same as no suffix, whatever the flags hold. -/
def Obligations.NeverAndAlways : Prop :=
  ∀ (i : Instr) (s : State),
    exec (withSuffix (some .nv) i) s = .next (endedWith s .skipped) ∧
      exec (withSuffix (some .al) i) s = exec (withSuffix none i) s

/-! ## Primitives -/

/-- R102, R104: the three wrapping steps are sign extension. -/
def Obligations.SignExtensionSteps : Prop :=
  ∀ (n m : Nat) (v : BitVec n), 0 < n → n ≤ m →
    sextSteps m v = sext m v ∧
      ∀ i < m, (sext m v).getLsbD i = if i < n then v.getLsbD i else v.getLsbD (n - 1)

/-- R108, R109: the sum, its carry and its overflow; overflow is a signed sum out of range. -/
def Obligations.AddWithCarryExact : Prop :=
  (∀ (a b : Word) (cin : Bool),
    (addWithCarry a b cin).1.toNat = (a.toNat + b.toNat + cin.toNat) % 2 ^ 32 ∧
      (addWithCarry a b cin).2.1 = decide (2 ^ 32 ≤ a.toNat + b.toNat + cin.toNat) ∧
      (addWithCarry a b cin).2.2 = overflow a b (addWithCarry a b cin).1 31 ∧
      (addWithCarry a b cin).2.2 = signedOverflow (a.toInt + b.toInt + cin.toNat)) ∧
    ∀ (a b r : Word) (p : Nat),
      overflow a b r p = true ↔ a.getLsbD p = b.getLsbD p ∧ r.getLsbD p ≠ a.getLsbD p

/-- R110: subtraction through NOT b: the difference, the no-borrow carry, and the subtract form of the
overflow identity. -/
def Obligations.SubtractNoBorrow : Prop :=
  ∀ (a b : Word) (cin : Bool),
    subWithCarry a b cin = addWithCarry a (~~~ b) cin ∧
      (subWithCarry a b cin).1 = a - b - BitVec.ofNat 32 (1 - cin.toNat) ∧
      (subWithCarry a b cin).2.1 = decide (b.toNat + (1 - cin.toNat) ≤ a.toNat) ∧
      (subWithCarry a b cin).2.2 = ((a ^^^ b) &&& (a ^^^ (subWithCarry a b cin).1)).getLsbD 31

/-- R105: the clamp and its bit, and the width-`D` pattern of the clamped integer. -/
def Obligations.SaturationClamps : Prop :=
  ∀ (x : Int) (bits d : Nat), 1 ≤ bits → bits ≤ d →
    (saturate x bits .signed).1 = clamp (-2 ^ (bits - 1)) (2 ^ (bits - 1) - 1) x ∧
      (saturate x bits .signed).2 = decide (x < -2 ^ (bits - 1) ∨ 2 ^ (bits - 1) - 1 < x) ∧
      (saturate x bits .unsigned).1 = clamp 0 (2 ^ bits - 1) x ∧
      (saturate x bits .unsigned).2 = decide (x < 0 ∨ 2 ^ bits - 1 < x) ∧
      BitVec.ofInt d (saturate x bits .signed).1 =
        sext d (BitVec.ofInt bits (saturate x bits .signed).1) ∧
      BitVec.ofInt d (saturate x bits .unsigned).1 =
        zext d (BitVec.ofInt bits (saturate x bits .unsigned).1)

/-- R116: halving keeps bits w..1; the halved sum of two lanes fits the lane, and the halved difference
of two unsigned lanes is its two's-complement pattern. -/
def Obligations.HalvingKeepsUpperBits : Prop :=
  ∀ (w : Nat), 0 < w →
    (∀ x : Int, half x w = (BitVec.ofInt (w + 1) x).extractLsb' 1 w) ∧
      ∀ a b : BitVec w,
        (half (a.toInt + b.toInt) w).toInt = (a.toInt + b.toInt) / 2 ∧
          (half (a.toNat + b.toNat : Int) w).toNat = (a.toNat + b.toNat) / 2 ∧
          (half (a.toNat - b.toNat : Int) w).toInt = (a.toNat - b.toNat : Int) / 2

/-! ## Operands -/

/-- R131: the immediate operand: the byte rotated right by twice `rot`, its carry bit 31, or `KEEP`. -/
def Obligations.ImmediateOperand : Prop :=
  ∀ (s : State) (imm8 : BitVec 8) (rot : BitVec 4),
    shifter s (.imm imm8 rot) =
      some ((BitVec.ofNat 32 imm8.toNat).rotateRight (2 * rot.toNat),
        if rot = 0 then none
        else some (((BitVec.ofNat 32 imm8.toNat).rotateRight (2 * rot.toNat)).getLsbD 31))

/-- R132-R136: a register shifted by an immediate of R72's range. -/
def Obligations.ShiftByImmediate : Prop :=
  ∀ (s : State) (rm : Reg) (v : Word) (n : BitVec 6), s.readReg rm = some v →
    (n.toNat ≤ 31 → shifter s (.regImm rm .lsl n) =
      some (BitVec.ofNat 32 (v.toNat * 2 ^ n.toNat),
        if n = 0 then none else some (v.getLsbD (32 - n.toNat)))) ∧
    (n.toNat ≤ 32 → shifter s (.regImm rm .lsr n) =
      some (BitVec.ofNat 32 (v.toNat / 2 ^ n.toNat),
        if n = 0 then none else some (v.getLsbD (n.toNat - 1)))) ∧
    (n.toNat ≤ 32 → shifter s (.regImm rm .asr n) =
      some (BitVec.ofInt 32 (v.toInt / 2 ^ n.toNat),
        if n = 0 then none else some (v.getLsbD (n.toNat - 1)))) ∧
    (n.toNat ≤ 31 → shifter s (.regImm rm .ror n) =
      some (v.rotateRight n.toNat,
        if n = 0 then none else some ((v.rotateRight n.toNat).getLsbD 31)))

/-- R138-R142: a register shifted by the low byte of another, 0 to 255. -/
def Obligations.ShiftByRegister : Prop :=
  ∀ (s : State) (rm rs : Reg) (v k : Word), s.readReg rm = some v → s.readReg rs = some k →
    let n := k.toNat % 256
    shifter s (.regReg rm .lsl rs) =
        some (BitVec.ofNat 32 (v.toNat * 2 ^ n),
          if n = 0 then none else if n ≤ 32 then some (v.getLsbD (32 - n)) else some false) ∧
      shifter s (.regReg rm .lsr rs) =
        some (BitVec.ofNat 32 (v.toNat / 2 ^ n),
          if n = 0 then none else if n ≤ 32 then some (v.getLsbD (n - 1)) else some false) ∧
      shifter s (.regReg rm .asr rs) =
        some (BitVec.ofInt 32 (v.toInt / 2 ^ n),
          if n = 0 then none else if n ≤ 31 then some (v.getLsbD (n - 1))
          else some (v.getLsbD 31)) ∧
      shifter s (.regReg rm .ror rs) =
        some (v.rotateRight (n % 32),
          if n = 0 then none else some ((v.rotateRight (n % 32)).getLsbD 31))

/-- R137: rotate right with extend, and its read of C. -/
def Obligations.RotateWithExtend : Prop :=
  ∀ (s : State) (rm : Reg) (v : Word), s.readReg rm = some v →
    (∀ b : Bool, s.flags.c = some b →
      shifter s (.rrx rm) =
        some (BitVec.ofNat 32 (v.toNat / 2 + b.toNat * 2 ^ 31), some (v.getLsbD 0))) ∧
    (s.flags.c = none → ∀ (c : Suffix) (sf : Bool) (rd : Reg), passes c s = true →
      exec (.mov c sf rd (.rrx rm)) s = .next (endedWith s (.unwrittenRead [.flag .c])))

/-- R143: every shift by 0 is the identity with carry `KEEP`. -/
def Obligations.ShiftByZero : Prop :=
  ∀ (s : State) (rm rs : Reg) (v k : Word) (sh : ShiftKind) (imm8 : BitVec 8),
    s.readReg rm = some v → s.readReg rs = some k →
    shifter s (.regImm rm sh 0) = some (v, none) ∧
      (k.toNat % 256 = 0 → shifter s (.regReg rm sh rs) = some (v, none)) ∧
      shifter s (.imm imm8 0) = some (BitVec.ofNat 32 imm8.toNat, none)

/-- R20-R23, R130: reading a register gives its cell, and R15 the supplied value; a write, of R15 too,
changes one cell; and a shifter operand has a value exactly when everything it reads holds one. That
reads of R15 do not see its written cell is notes/assumptions/4.md. -/
def Obligations.OperandReads : Prop :=
  (∀ (s : State) (r : Reg), s.readReg r = if r = 15 then s.pcRead else s.regs[r.val]) ∧
    (∀ (s : State) (r q : Reg) (v : Word),
      (s.writeReg r v).regs[q.val] = if q = r then some v else s.regs[q.val]) ∧
    ∀ (s : State) (o : Op2),
      (∃ b, shifter s o = some b) ↔ ∀ x ∈ op2Sources o, s.holds x = true

/-- R73, R150, R151, R155: the address, write-back and write-back value of modes two and three. -/
def Obligations.IndexedAddresses : Prop :=
  ∀ (s : State) (rn : Reg) (base : Word) (u : Bool) (idx : Index), s.readReg rn = some base →
    let target (offset : Word) : Word :=
      BitVec.ofInt 32 (if u then base.toNat + offset.toNat else base.toNat - offset.toNat)
    let access (offset : Word) : Access :=
      { addr := if idx = .post then base else target offset,
        wb := decide (idx = .pre ∨ idx = .post), wbval := target offset }
    (∀ k : BitVec 12, modeTwo s rn u idx (.imm k) = some (access (BitVec.ofNat 32 k.toNat))) ∧
      (∀ (rm : Reg) (sh : ShiftKind) (n : BitVec 6) (offset : Word) (cout : Option Bool),
        shifter s (.regImm rm sh n) = some (offset, cout) →
        modeTwo s rn u idx (.reg rm sh n) = some (access offset)) ∧
      (∀ k : BitVec 8, modeThree s rn u idx (.imm k) = some (access (BitVec.ofNat 32 k.toNat))) ∧
      ∀ (rm : Reg) (offset : Word), s.readReg rm = some offset →
        modeThree s rn u idx (.reg rm) = some (access offset)

/-! ## Data processing -/

/-- R190-R196: AND, EOR, ORR, ORN, BIC. -/
def Obligations.LogicalResults : Prop :=
  ∀ (c : Suffix) (sf : Bool) (rd rn : Reg) (o : Op2) (s : State), passes c s = true →
    (TrapsAsListed (.and c sf rd rn o) 0x00 s ∧ TrapsAsListed (.eor c sf rd rn o) 0x01 s ∧
      TrapsAsListed (.orr c sf rd rn o) 0x02 s ∧ TrapsAsListed (.orn c sf rd rn o) 0x03 s ∧
      TrapsAsListed (.bic c sf rd rn o) 0x04 s) ∧
    ∀ (a b : Word) (cout : Option Bool), regRegPc [rd, rn] o = false →
      s.readReg rn = some a → shifter s o = some (b, cout) →
      let done (r : Word) := Host.Outcome.next (wrote s [(rd, r)]
        (if sf then logicalFlags s.flags r cout else s.flags))
      exec (.and c sf rd rn o) s = done (a &&& b) ∧ exec (.eor c sf rd rn o) s = done (a ^^^ b) ∧
        exec (.orr c sf rd rn o) s = done (a ||| b) ∧ exec (.orn c sf rd rn o) s = done (a ||| ~~~ b) ∧
        exec (.bic c sf rd rn o) s = done (a &&& ~~~ b)

/-- R197, R198: MOV, MVN. -/
def Obligations.MoveResults : Prop :=
  ∀ (c : Suffix) (sf : Bool) (rd : Reg) (o : Op2) (s : State), passes c s = true →
    (TrapsAsListed (.mov c sf rd o) 0x05 s ∧ TrapsAsListed (.mvn c sf rd o) 0x06 s) ∧
    ∀ (b : Word) (cout : Option Bool), regRegPc [rd] o = false → shifter s o = some (b, cout) →
      let done (r : Word) := Host.Outcome.next (wrote s [(rd, r)]
        (if sf then logicalFlags s.flags r cout else s.flags))
      exec (.mov c sf rd o) s = done b ∧ exec (.mvn c sf rd o) s = done (~~~ b)

/-- R199, R200: ADD, SUB. -/
def Obligations.AddSubResults : Prop :=
  ∀ (c : Suffix) (sf : Bool) (rd rn : Reg) (o : Op2) (s : State), passes c s = true →
    (TrapsAsListed (.add c sf rd rn o) 0x07 s ∧ TrapsAsListed (.sub c sf rd rn o) 0x08 s) ∧
    ∀ (a b : Word) (cout : Option Bool), regRegPc [rd, rn] o = false →
      s.readReg rn = some a → shifter s o = some (b, cout) →
      exec (.add c sf rd rn o) s = .next (wrote s [(rd, a + b)]
          (if sf then additiveFlags s.flags (a + b) (decide (2 ^ 32 ≤ a.toNat + b.toNat))
            (signedOverflow (a.toInt + b.toInt)) else s.flags)) ∧
        exec (.sub c sf rd rn o) s = .next (wrote s [(rd, a - b)]
          (if sf then additiveFlags s.flags (a - b) (decide (b.toNat ≤ a.toNat))
            (signedOverflow (a.toInt - b.toInt)) else s.flags))

/-- R201: SBC reads C whether or not it sets flags. -/
def Obligations.SubtractWithCarryResult : Prop :=
  ∀ (c : Suffix) (sf : Bool) (rd rn : Reg) (o : Op2) (s : State), passes c s = true →
    TrapsAsListed (.sbc c sf rd rn o) 0x09 s ∧
    ∀ (a b : Word) (cout : Option Bool) (cin : Bool), regRegPc [rd, rn] o = false →
      s.readReg rn = some a → shifter s o = some (b, cout) → s.flags.c = some cin →
      let borrow := 1 - cin.toNat
      let r := a - b - BitVec.ofNat 32 borrow
      exec (.sbc c sf rd rn o) s = .next (wrote s [(rd, r)]
        (if sf then additiveFlags s.flags r (decide (b.toNat + borrow ≤ a.toNat))
          (signedOverflow (a.toInt - b.toInt - borrow)) else s.flags))

/-- R202: NEG; R404's table has no row for it. -/
def Obligations.NegateResult : Prop :=
  ∀ (c : Suffix) (sf : Bool) (rd rm : Reg) (s : State), passes c s = true →
    TrapsAsListed (.neg c sf rd rm) 0x0A s ∧
    ∀ b : Word, s.readReg rm = some b →
      exec (.neg c sf rd rm) s = .next (wrote s [(rd, -b)]
        (if sf then additiveFlags s.flags (-b) (decide (b = 0)) (decide (b = 0x80000000))
          else s.flags))

/-- R353, R354: TST and CMP write flags and no register. -/
def Obligations.CompareAndTest : Prop :=
  ∀ (c : Suffix) (rn : Reg) (o : Op2) (s : State), passes c s = true →
    (TrapsAsListed (.cmp c rn o) 0x0B s ∧ TrapsAsListed (.tst c rn o) 0x0C s) ∧
    ∀ (a b : Word) (cout : Option Bool), regRegPc [rn] o = false →
      s.readReg rn = some a → shifter s o = some (b, cout) →
      exec (.cmp c rn o) s = .next (wrote s []
          (additiveFlags s.flags (a - b) (decide (b.toNat ≤ a.toNat))
            (signedOverflow (a.toInt - b.toInt)))) ∧
        exec (.tst c rn o) s = .next (wrote s [] (logicalFlags s.flags (a &&& b) cout))

/-! ## Packed arithmetic -/

/-- R231-R233, R239: QADD16, QASX, UQSAX. -/
def Obligations.PackedSaturation : Prop :=
  ∀ (c : Suffix) (rd rn rm : Reg) (s : State), passes c s = true →
    (TrapsAsListed (.qadd16 c rd rn rm) 0x10 s ∧ TrapsAsListed (.qasx c rd rn rm) 0x11 s ∧
      TrapsAsListed (.uqsax c rd rn rm) 0x12 s) ∧
    ∀ n m : Word, 15 ∉ [rd, rn, rm] → s.readReg rn = some n → s.readReg rm = some m →
      exec (.qadd16 c rd rn rm) s = .next (satLanesWrote s rd (-2 ^ 15) (2 ^ 15 - 1)
          ((hi16 n).toInt + (hi16 m).toInt) ((lo16 n).toInt + (lo16 m).toInt)) ∧
        exec (.qasx c rd rn rm) s = .next (satLanesWrote s rd (-2 ^ 15) (2 ^ 15 - 1)
          ((hi16 n).toInt + (lo16 m).toInt) ((lo16 n).toInt - (hi16 m).toInt)) ∧
        exec (.uqsax c rd rn rm) s = .next (satLanesWrote s rd 0 (2 ^ 16 - 1)
          ((hi16 n).toNat - (lo16 m).toNat) ((lo16 n).toNat + (hi16 m).toNat))

/-- R234, R236, R237: UHASX, SHADD16, UHSUB8; the halving rounds toward minus infinity. -/
def Obligations.PackedHalving : Prop :=
  ∀ (c : Suffix) (rd rn rm : Reg) (s : State), passes c s = true →
    (TrapsAsListed (.uhasx c rd rn rm) 0x13 s ∧ TrapsAsListed (.shadd16 c rd rn rm) 0x15 s ∧
      TrapsAsListed (.uhsub8 c rd rn rm) 0x16 s) ∧
    ∀ n m : Word, 15 ∉ [rd, rn, rm] → s.readReg rn = some n → s.readReg rm = some m →
      let byte (k : Nat) : Int :=
        (((n.toNat / 2 ^ (8 * k) % 256 : Nat) : Int) - (m.toNat / 2 ^ (8 * k) % 256 : Nat)) / 2 % 256
      exec (.uhasx c rd rn rm) s = .next (wrote s
          [(rd, lanes (((hi16 n).toNat + (lo16 m).toNat : Int) / 2)
            (((lo16 n).toNat - (hi16 m).toNat : Int) / 2))] s.flags) ∧
        exec (.shadd16 c rd rn rm) s = .next (wrote s
          [(rd, lanes (((hi16 n).toInt + (hi16 m).toInt) / 2)
            (((lo16 n).toInt + (lo16 m).toInt) / 2))] s.flags) ∧
        exec (.uhsub8 c rd rn rm) s = .next (wrote s
          [(rd, BitVec.ofInt 32 (byte 3 * 2 ^ 24 + byte 2 * 2 ^ 16 + byte 1 * 2 ^ 8 + byte 0))]
          s.flags)

/-- R235: UADD16 and its GE bits. -/
def Obligations.PackedAddAndGE : Prop :=
  ∀ (c : Suffix) (rd rn rm : Reg) (s : State), passes c s = true →
    TrapsAsListed (.uadd16 c rd rn rm) 0x14 s ∧
    ∀ n m : Word, 15 ∉ [rd, rn, rm] → s.readReg rn = some n → s.readReg rm = some m →
      let s0 := (lo16 n).toNat + (lo16 m).toNat
      let s1 := (hi16 n).toNat + (hi16 m).toNat
      exec (.uadd16 c rd rn rm) s = .next (wrote s [(rd, lanes s1 s0)]
        (if s.params.uadd16SetsGE then
          { s.flags with ge0 := some (decide (0x10000 ≤ s0)), ge1 := some (decide (0x10000 ≤ s0)),
                         ge2 := some (decide (0x10000 ≤ s1)), ge3 := some (decide (0x10000 ≤ s1)) }
        else s.flags))

/-! ## Multiplies -/

/-- R261, R264: MLA and UMAAL; UMAAL's sum never leaves 64 bits. -/
def Obligations.AccumulatingMultiplies : Prop :=
  ∀ (c : Suffix) (sf : Bool) (rd rn rm ra : Reg) (s : State), passes c s = true →
    (TrapsAsListed (.mla c sf rd rn rm ra) 0x18 s ∧ TrapsAsListed (.umaal c rd rn rm ra) 0x1B s) ∧
    (∀ n m a : Word, 15 ∉ [rd, rn, rm, ra] →
      s.readReg rn = some n → s.readReg rm = some m → s.readReg ra = some a →
      let r := BitVec.ofNat 32 (n.toNat * m.toNat + a.toNat)
      exec (.mla c sf rd rn rm ra) s = .next (wrote s [(rd, r)]
        (if sf then { s.flags with n := some (r.getLsbD 31), z := some (decide (r = 0)) }
          else s.flags))) ∧
    ∀ n m lo hi : Word, 15 ∉ [rd, rn, rm, ra] → ra ≠ rd →
      s.readReg rn = some n → s.readReg rm = some m → s.readReg rd = some lo →
      s.readReg ra = some hi →
      let p := n.toNat * m.toNat + lo.toNat + hi.toNat
      p < 2 ^ 64 ∧ exec (.umaal c rd rn rm ra) s =
        .next (wrote s [(rd, BitVec.ofNat 32 p), (ra, BitVec.ofNat 32 (p / 2 ^ 32))] s.flags)

/-- R262, R263, R269: SMULL and UMULL: the exact product in RdHi:RdLo, N its bit 63 and Z its zero. -/
def Obligations.LongMultiplies : Prop :=
  ∀ (c : Suffix) (sf : Bool) (rdLo rn rm rdHi : Reg) (s : State), passes c s = true →
    (TrapsAsListed (.smull c sf rdLo rn rm rdHi) 0x19 s ∧
      TrapsAsListed (.umull c sf rdLo rn rm rdHi) 0x1A s) ∧
    ∀ n m : Word, 15 ∉ [rdLo, rn, rm, rdHi] → rdHi ≠ rdLo →
      s.readReg rn = some n → s.readReg rm = some m →
      let x := n.toInt * m.toInt
      let p := n.toNat * m.toNat
      exec (.smull c sf rdLo rn rm rdHi) s = .next (wrote s
          [(rdLo, BitVec.ofInt 32 x), (rdHi, BitVec.ofInt 32 (x / 2 ^ 32))]
          (if sf then { s.flags with n := some (decide (x < 0)), z := some (decide (x = 0)) }
            else s.flags)) ∧
        exec (.umull c sf rdLo rn rm rdHi) s = .next (wrote s
          [(rdLo, BitVec.ofNat 32 p), (rdHi, BitVec.ofNat 32 (p / 2 ^ 32))]
          (if sf then { s.flags with n := some (decide (2 ^ 63 ≤ p)), z := some (decide (p = 0)) }
            else s.flags))

/-- R265-R268: SMMUL, SMMULR, SMULWB, SMULWT: part of the exact signed product, rounded toward minus
infinity, or to nearest for the R form. -/
def Obligations.HighPartMultiplies : Prop :=
  ∀ (c : Suffix) (rd rn rm : Reg) (s : State), passes c s = true →
    (TrapsAsListed (.smmul c rd rn rm) 0x1C s ∧ TrapsAsListed (.smmulr c rd rn rm) 0x1D s ∧
      TrapsAsListed (.smulwb c rd rn rm) 0x1E s ∧ TrapsAsListed (.smulwt c rd rn rm) 0x1F s) ∧
    ∀ n m : Word, 15 ∉ [rd, rn, rm] → s.readReg rn = some n → s.readReg rm = some m →
      let done (x : Int) := Host.Outcome.next (wrote s [(rd, BitVec.ofInt 32 x)] s.flags)
      exec (.smmul c rd rn rm) s = done (n.toInt * m.toInt / 2 ^ 32) ∧
        exec (.smmulr c rd rn rm) s = done ((n.toInt * m.toInt + 2 ^ 31) / 2 ^ 32) ∧
        exec (.smulwb c rd rn rm) s = done (n.toInt * (lo16 m).toInt / 2 ^ 16) ∧
        exec (.smulwt c rd rn rm) s = done (n.toInt * (hi16 m).toInt / 2 ^ 16)

/-! ## Loads and stores -/

/-! What a port does with a request is its own (R42). In the statements about stores the port serves a
request also when it has no answer listed (notes/assumptions/7.md), the bytes of a served write are in
memory at once (notes/assumptions/22.md) and an aborted write changes no byte (notes/assumptions/17.md):
these are the model's choices. -/

/-- R291: STR, with its alignment fault, its abort and its store; the address is that of
`IndexedAddresses`. What serving and aborting do to memory is the model's: notes/assumptions/7.md, 17.md
and 22.md. -/
def Obligations.StoreWord : Prop :=
  ∀ (c : Suffix) (rt rn : Reg) (u : Bool) (idx : Index) (off : Off2) (s : State), passes c s = true →
    TrapsAsListed (.str c rt rn u idx off) 0x20 s ∧
    ∀ (a : Access) (v : Word), unknownCase (.str c rt rn u idx off) = false →
      modeTwo s rn u idx off = some a → s.readReg rt = some v →
      WritesOnce (.str c rt rn u idx off) s (.writeWord a.addr v) 4
        (storedBytes s.params.endian 4 v) (if a.wb then [(rn, a.wbval)] else [])

/-- R292: STRH stores the low half of Rt. What serving and aborting do to memory is the model's:
notes/assumptions/7.md, 17.md and 22.md. -/
def Obligations.StoreHalfword : Prop :=
  ∀ (c : Suffix) (rt rn : Reg) (u : Bool) (idx : Index) (off : Off3) (s : State), passes c s = true →
    TrapsAsListed (.strh c rt rn u idx off) 0x21 s ∧
    ∀ (a : Access) (v : Word), unknownCase (.strh c rt rn u idx off) = false →
      modeThree s rn u idx off = some a → s.readReg rt = some v →
      WritesOnce (.strh c rt rn u idx off) s (.writeHalf a.addr (lo16 v)) 2
        (storedBytes s.params.endian 2 v) (if a.wb then [(rn, a.wbval)] else [])

/-- R293, R409: STRD writes Rt at the address and Rt + 1 four bytes on. What serving and aborting do to
memory is the model's: notes/assumptions/7.md, 17.md and 22.md. -/
def Obligations.StoreDoubleword : Prop :=
  ∀ (c : Suffix) (rt rn : Reg) (u : Bool) (idx : Index) (off : Off3) (s : State), passes c s = true →
    TrapsAsListed (.strd c rt rn u idx off) 0x22 s ∧
    ∀ (a : Access) (v0 v1 : Word), unknownCase (.strd c rt rn u idx off) = false →
      modeThree s rn u idx off = some a → s.readReg rt = some v0 → s.readReg (rt + 1) = some v1 →
      WritesWords (.strd c rt rn u idx off) s a.addr [v0, v1]
        (if a.wb then [(rn, a.wbval)] else [])

/-- R295, R160-R162, R409: STM writes the listed registers in increasing number from the start address
of its sub-mode, and the base when W = 1. What serving and aborting do to memory is the model's:
notes/assumptions/7.md, 17.md and 22.md. -/
def Obligations.StoreMultiple : Prop :=
  ∀ (c : Suffix) (rn : Reg) (list : BitVec 16) (am : BlockMode) (w : Bool) (s : State),
    passes c s = true →
    TrapsAsListed (.stm c rn list am w) 0x24 s ∧
    ∀ (base : Word) (vs : List Word), unknownCase (.stm c rn list am w) = false →
      s.readReg rn = some base → (listed list).map s.readReg = vs.map some →
      let n : Word := BitVec.ofNat 32 (4 * vs.length)
      blockStart base list am = (match am with
        | .ia => base | .ib => base + 4 | .da => base - n + 4 | .db => base - n) ∧
      WritesWords (.stm c rn list am w) s (blockStart base list am) vs
        (if w then [(rn, if am = .ia ∨ am = .ib then base + n else base - n)] else [])

/-- R294: LDRT reads one word, unprivileged, at the unmodified base, and commits Rt and the base
together; the data is the port's where the port gives some, else the bytes memory holds (R43; a port
that serves without data of its own, or with no answer listed, reads memory, notes/assumptions/7.md). That
the read changes no byte of memory, with the port's data or without, is the model's choice
(notes/assumptions/16.md); R49 leaves it to the port. -/
def Obligations.LoadUnprivileged : Prop :=
  ∀ (c : Suffix) (rt rn : Reg) (u : Bool) (off : Off2) (s : State), passes c s = true →
    TrapsAsListed (.ldrt c rt rn u off) 0x23 s ∧
    ∀ (base : Word) (a : Access), unknownCase (.ldrt c rt rn u off) = false →
      s.readReg rn = some base → modeTwo s rn u .post off = some a →
      let i := Instr.ldrt c rt rn u off
      let r := Request.readWord base true
      (addrOk 4 s base = false → exec i s = .next (endedWith s (.alignmentFault base))) ∧
      (addrOk 4 s base = true → s.port.head? = some .abort →
        exec i s = .next { endedWith s (.memAbort base) with
          requests := [r], port := s.port.tail }) ∧
      (∀ d : Word, addrOk 4 s base = true → s.port.head? = some (.servedAs d) →
        exec i s = .next { wrote s [(rt, d), (rn, a.wbval)] s.flags with
          requests := [r], port := s.port.tail }) ∧
      (addrOk 4 s base = true → s.port.head? = none ∨ s.port.head? = some .served →
        ∃ d : Word,
          storedBytes s.params.endian 4 d = (List.range 4).map (fun k => s.mem.read (byteAt base k)) ∧
          exec i s = .next { wrote s [(rt, d), (rn, a.wbval)] s.flags with
            requests := [r], port := s.port.tail })

/-! ## Bit fields, saturation, reversal -/

/-- R320, R321: SBFX: the field, its top bit copied upward. -/
def Obligations.SignedFieldExtract : Prop :=
  ∀ (c : Suffix) (rd rn : Reg) (lsb : BitVec 5) (width : BitVec 6) (s : State), passes c s = true →
    TrapsAsListed (.sbfx c rd rn lsb width) 0x28 s ∧
    ∀ n : Word, 1 ≤ width.toNat → lsb.toNat + width.toNat ≤ 32 → 15 ∉ [rd, rn] →
      s.readReg rn = some n →
      ∃ r : Word, exec (.sbfx c rd rn lsb width) s = .next (wrote s [(rd, r)] s.flags) ∧
        ∀ j < 32, r.getLsbD j = n.getLsbD (lsb.toNat + min j (width.toNat - 1))

/-- R100, R101, R322-R324, R326: BFC, BFI and MOVT replace part of Rd and keep the rest. -/
def Obligations.FieldReplacement : Prop :=
  ∀ (c : Suffix) (rd rn : Reg) (lsb : BitVec 5) (width : BitVec 6) (imm16 : BitVec 16) (s : State),
    passes c s = true →
    (TrapsAsListed (.bfc c rd lsb width) 0x29 s ∧ TrapsAsListed (.bfi c rd rn lsb width) 0x2A s ∧
      TrapsAsListed (.movt c rd imm16) 0x2B s) ∧
    (∀ d : Word, 1 ≤ width.toNat → lsb.toNat + width.toNat ≤ 32 → rd ≠ 15 → s.readReg rd = some d →
      ∃ r : Word, exec (.bfc c rd lsb width) s = .next (wrote s [(rd, r)] s.flags) ∧
        ∀ j < 32, r.getLsbD j =
          if lsb.toNat ≤ j ∧ j < lsb.toNat + width.toNat then false else d.getLsbD j) ∧
    (∀ d n : Word, 1 ≤ width.toNat → lsb.toNat + width.toNat ≤ 32 → 15 ∉ [rd, rn] →
      s.readReg rd = some d → s.readReg rn = some n →
      ∃ r : Word, exec (.bfi c rd rn lsb width) s = .next (wrote s [(rd, r)] s.flags) ∧
        ∀ j < 32, r.getLsbD j =
          if lsb.toNat ≤ j ∧ j < lsb.toNat + width.toNat then n.getLsbD (j - lsb.toNat)
          else d.getLsbD j) ∧
    ∀ d : Word, rd ≠ 15 → s.readReg rd = some d →
      exec (.movt c rd imm16) s =
        .next (wrote s [(rd, BitVec.ofNat 32 (imm16.toNat * 2 ^ 16 + d.toNat % 2 ^ 16))] s.flags)

/-- R320-R323 (spec/95_test_vectors.md E3): BFI and then SBFX of the same field gives the low bits of
the inserted value, sign-extended. -/
def Obligations.InsertThenExtract : Prop :=
  ∀ (rd rn rq : Reg) (lsb : BitVec 5) (width : BitVec 6) (s : State) (d n : Word),
    1 ≤ width.toNat → lsb.toNat + width.toNat ≤ 32 → 15 ∉ [rd, rn, rq] →
    s.readReg rd = some d → s.readReg rn = some n →
    ∃ t u : State, exec (.bfi none rd rn lsb width) s = .next t ∧
      exec (.sbfx none rq rd lsb width) t = .next u ∧
      u.readReg rq = some ((n.extractLsb' 0 width.toNat).signExtend 32)

/-- R340-R343: SSAT and USAT of the shifted signed operand. -/
def Obligations.SaturateToWidth : Prop :=
  ∀ (c : Suffix) (rd rn : Reg) (sh : SatShift) (n sat : BitVec 6) (s : State), passes c s = true →
    (TrapsAsListed (.ssat c rd rn sh n sat) 0x2C s ∧ TrapsAsListed (.usat c rd rn sh n sat) 0x2D s) ∧
    ∀ v : Word, (Instr.ssat c rd rn sh n sat).wf = true → 15 ∉ [rd, rn] → s.readReg rn = some v →
      let x : Int := match sh with
        | .lsl => (BitVec.ofNat 32 (v.toNat * 2 ^ n.toNat)).toInt
        | .asr => v.toInt / 2 ^ n.toNat
      let done (lo hi : Int) := Host.Outcome.next
        (wrote s [(rd, BitVec.ofInt 32 (clamp lo hi x))] (setQIf (clamp lo hi x != x) s.flags))
      exec (.ssat c rd rn sh n sat) s = done (-2 ^ (sat.toNat - 1)) (2 ^ (sat.toNat - 1) - 1) ∧
        exec (.usat c rd rn sh n sat) s = done 0 (2 ^ sat.toNat - 1)

/-- R113, R350-R352, R355: REV, REVSH, RBIT, bit by bit. -/
def Obligations.Reversals : Prop :=
  ∀ (c : Suffix) (rd rm : Reg) (s : State), passes c s = true →
    (TrapsAsListed (.rev c rd rm) 0x30 s ∧ TrapsAsListed (.revsh c rd rm) 0x31 s ∧
      TrapsAsListed (.rbit c rd rm) 0x32 s) ∧
    ∀ m : Word, 15 ∉ [rd, rm] → s.readReg rm = some m →
      ∃ r1 r2 r3 : Word,
        exec (.rev c rd rm) s = .next (wrote s [(rd, r1)] s.flags) ∧
          exec (.revsh c rd rm) s = .next (wrote s [(rd, r2)] s.flags) ∧
          exec (.rbit c rd rm) s = .next (wrote s [(rd, r3)] s.flags) ∧
          ∀ j < 32, r1.getLsbD j = m.getLsbD (8 * (3 - j / 8) + j % 8) ∧
            r2.getLsbD j =
              (if j < 8 then m.getLsbD (j + 8) else if j < 16 then m.getLsbD (j - 8)
                else m.getLsbD 7) ∧
            r3.getLsbD j = m.getLsbD (31 - j)

/-! ## Faults -/

/-- R404, R174: with its condition passing, an operation stops with `UnknownEffect` exactly in the cases
of R404's table, with its opc, in every state; with its condition failing it never does. -/
def Obligations.UnknownEffectCases : Prop :=
  ∀ (i : Instr) (s : State),
    (passes i.suffix s = true →
      (unknownCase i = true ↔
        exec i s = .fault (.unknownEffect ((encode i).extractLsb' 53 6)))) ∧
    ∀ opc, exec i s = .fault (.unknownEffect opc) → passes i.suffix s = true ∧ unknownCase i = true

/-- R406: two steps read state, each with its own set. A condition that reads a flag without a value
ends the operation `UnwrittenRead` with the flags it found without one. The operation's own reads,
outside R404's cases, do so exactly when something they read holds no value, with the set of those,
before any request and with nothing written. -/
def Obligations.UnwrittenReads : Prop :=
  ∀ (i : Instr) (s : State),
    (∀ row ∈ conditionTable, i.suffix = some row.1 →
      (∃ f ∈ row.2.1, (s.flags.get f).isSome = false) →
      ∃ set, set ≠ [] ∧ IsMissingSet s (row.2.1.map .flag) set ∧
        exec i s = .next (endedWith s (.unwrittenRead set))) ∧
    (passes i.suffix s = true → unknownCase i = false →
      ((∃ x ∈ operandReads i, s.holds x = false) →
        ∃ set, set ≠ [] ∧ IsMissingSet s (operandReads i) set ∧
          exec i s = .next (endedWith s (.unwrittenRead set))) ∧
      ((∀ x ∈ operandReads i, s.holds x = true) →
        ∀ (t : State) (set : List Source), exec i s = .next t →
          t.status ≠ some (.unwrittenRead set)))

/-- R404, R459: no operation is refused, and a run stops only with `UnknownEffect`, or in a memory
operation at a request that the port never answers (the model's fault, notes/assumptions/9.md). -/
def Obligations.OnlyTheseStops : Prop :=
  ∀ (i : Instr) (s : State),
    (∀ r, exec i s ≠ .refused r) ∧
      ∀ f, exec i s = .fault f →
        (∃ opc, f = .unknownEffect opc) ∨
          (∃ a, f = .portSilent a) ∧ reachesMemory i = true ∧ PortAnswer.silent ∈ s.port

/-- R400, R402, R410: an operation that does not end `OK` commits no register and no flag; unless it
ends `MemAbort` it also made no request and changed no byte of memory (R409). -/
def Obligations.FaultsCommitNothing : Prop :=
  ∀ (i : Instr) (s t : State), exec i s = .next t → t.status ≠ some .ok →
    t.regs = s.regs ∧ t.flags = s.flags ∧
      ((∀ a, t.status ≠ some (.memAbort a)) → t.requests = [] ∧ t.mem = s.mem ∧ t.port = s.port)

/-- R45, R405: under `ALIGN_POLICY` = fault no misaligned request is ever issued. -/
def Obligations.IssuedRequestsAligned : Prop :=
  ∀ (i : Instr) (s t : State), s.params.alignPolicy = .fault → exec i s = .next t →
    ∀ r ∈ t.requests, match r with
      | .writeWord a _ => a.toNat % 4 = 0
      | .readWord a _ => a.toNat % 4 = 0
      | .writeHalf a _ => a.toNat % 2 = 0

/-! ## What no operation changes -/

/-- R29, R30: an operation leaves every flag unchanged that R29's table does not give it; T is in no
row. -/
def Obligations.FlagFrame : Prop :=
  ∀ (i : Instr) (s t : State), exec i s = .next t →
    (∀ f, f ∉ flagsWritten i → t.flags.get f = s.flags.get f) ∧ t.flags.t = s.flags.t

/-- R28: Q is only ever set, and only by the saturating operations. -/
def Obligations.QIsSticky : Prop :=
  ∀ (i : Instr) (s t : State), exec i s = .next t →
    t.flags.q = s.flags.q ∨
      t.flags.q = some true ∧ opcOf (encode i) ∈ [0x10, 0x11, 0x12, 0x2C, 0x2D]

/-- The register frame: an operation leaves every register unchanged but its destinations and a base it
writes back, and never touches the parameters, the presented operations or `PC_READ_VALUE`. -/
def Obligations.RegisterFrame : Prop :=
  ∀ (i : Instr) (s t : State), exec i s = .next t →
    (∀ r : Reg, r ∉ regsWritten i → t.regs[r.val] = s.regs[r.val]) ∧
      t.params = s.params ∧ t.presented = s.presented ∧ t.pcRead = s.pcRead

/-- R40: an operation other than STR, STRH, STRD, STM and LDRT makes no request, uses no answer of the
port and changes no byte of memory. That LDRT's read changes no byte either is the model's choice
(notes/assumptions/16.md); R49 leaves the side effects of a request to the port. -/
def Obligations.MemoryFrame : Prop :=
  ∀ (i : Instr) (s t : State), exec i s = .next t →
    (reachesMemory i = false → t.requests = [] ∧ t.port = s.port ∧ t.mem = s.mem) ∧
      (opcOf (encode i) = 0x23 → t.mem = s.mem)

/-! ## Invariant -/

/-- R40, R43: every step keeps memory in its one canonical form, in every state. The form is the model's
(notes/assumptions/8.md). -/
def Obligations.StepKeepsInv : Prop := ∀ s t : State, Inv s → step s = .next t → Inv t

/-- Memory is in its canonical form at reset. The form and the memory at reset are the model's choice
(notes/assumptions/8.md): the spec leaves memory to the port (R42). -/
def Obligations.ResetHasInv : Prop := Inv State.reset

/-- R6: at reset the parameters are the values the spec fixes. That nothing is presented is the model's
choice (notes/assumptions/6.md), and so are the status and the requests before the first operation
(notes/assumptions/14.md). (What registers and flags hold at reset is the model's choice,
notes/assumptions/1.md and 2.md, and stated nowhere here.) -/
def Obligations.ResetParameters : Prop :=
  State.reset.params.endian = .little ∧ State.reset.params.alignPolicy = .fault ∧
    State.reset.params.pcFlagset = .asIfNotPc ∧ State.reset.params.packedSatSetsQ = true ∧
    State.reset.params.uadd16SetsGE = true ∧
    State.reset.presented = [] ∧ State.reset.requests = [] ∧ State.reset.status = none

/-! ## Widening -/

/-- R112: the widening multiplies of two patterns of any one width give the exact product: it always fits
in twice the width. -/
def Obligations.WideningMultipliesExact : Prop :=
  ∀ (n : Nat) (a b : BitVec n),
    (sMulWide a b).toInt = a.toInt * b.toInt ∧ (uMulWide a b).toNat = a.toNat * b.toNat
end

