-- ==== Sys2Proof/Laws/Encoding.lean ====
section
/-! SUPPORT. The fields of an OPW: packing and unpacking undo each other, and the field codes do. -/

namespace Sys2Proof

/-- A low field of a concatenation. -/
theorem extract_append_low {m n : Nat} (a : BitVec m) (b : BitVec n) (s k : Nat) (h : s + k ≤ n) :
    (a ++ b).extractLsb' s k = b.extractLsb' s k := by
  apply BitVec.eq_of_getLsbD_eq
  intro i hi
  simp only [BitVec.getLsbD_extractLsb', BitVec.getLsbD_append, hi, decide_true, Bool.true_and]
  rw [if_pos (by omega)]

/-- A high field of a concatenation. -/
theorem extract_append_high {m n : Nat} (a : BitVec m) (b : BitVec n) (s k : Nat) (h : n ≤ s) :
    (a ++ b).extractLsb' s k = a.extractLsb' (s - n) k := by
  apply BitVec.eq_of_getLsbD_eq
  intro i hi
  simp only [BitVec.getLsbD_extractLsb', BitVec.getLsbD_append, hi, decide_true, Bool.true_and]
  rw [if_neg (by omega)]
  congr 1
  omega

theorem extract_self {n : Nat} (a : BitVec n) : a.extractLsb' 0 n = a := by
  simp

theorem getLsbD_append_high {m n : Nat} (a : BitVec m) (b : BitVec n) (s : Nat) (h : n ≤ s) :
    (a ++ b).getLsbD s = a.getLsbD (s - n) := by
  rw [BitVec.getLsbD_append, if_neg (by omega)]

theorem getLsbD_append_low {m n : Nat} (a : BitVec m) (b : BitVec n) (s : Nat) (h : s < n) :
    (a ++ b).getLsbD s = b.getLsbD s := by
  rw [BitVec.getLsbD_append, if_pos h]

/-- R61's fields read off a word of any width: `unpackFields` is this at width 64. -/
def unpackAt {n : Nat} (w : BitVec n) : Fields :=
  { cond := w.extractLsb' 60 4
    p    := w.getLsbD 59
    opc  := w.extractLsb' 53 6
    s    := w.getLsbD 52
    rd   := w.extractLsb' 48 4
    rn   := w.extractLsb' 44 4
    rm   := w.extractLsb' 40 4
    rs   := w.extractLsb' 36 4
    sh   := w.extractLsb' 34 2
    form := w.extractLsb' 32 2
    imm  := w.extractLsb' 0 32 }

theorem unpackAt_append (f : Fields) :
    unpackAt (f.cond ++ BitVec.ofBool f.p ++ f.opc ++ BitVec.ofBool f.s ++ f.rd ++ f.rn ++ f.rm ++
      f.rs ++ f.sh ++ f.form ++ f.imm) = f := by
  simp (disch := decide) only [unpackAt, extract_append_low, extract_append_high,
    getLsbD_append_high, getLsbD_append_low, Nat.reduceSub, extract_self, BitVec.getLsbD_ofBool]
  simp

/-- R61: every field of a packed word reads back. -/
theorem unpack_pack (f : Fields) : unpackFields (packFields f) = f := unpackAt_append f

/-- Two adjacent fields joined are the field they cover. -/
theorem extract_join {n : Nat} (w : BitVec n) (s k m : Nat) :
    w.extractLsb' (s + k) m ++ w.extractLsb' s k = w.extractLsb' s (m + k) := by
  apply BitVec.eq_of_getLsbD_eq
  intro i hi
  simp only [BitVec.getLsbD_append, BitVec.getLsbD_extractLsb']
  split
  · have : i < m + k := hi
    simp_all
  · have h1 : i - k < m := by omega
    have h2 : s + k + (i - k) = s + i := by omega
    simp [h1, hi, h2]

theorem ofBool_getLsbD {n : Nat} (w : BitVec n) (s : Nat) :
    BitVec.ofBool (w.getLsbD s) = w.extractLsb' s 1 := by
  apply BitVec.eq_of_getLsbD_eq
  intro i hi
  have : i = 0 := by omega
  subst this
  simp

/-- R61: the fields are the whole word. -/
theorem pack_unpack (w : BitVec 64) : packFields (unpackFields w) = w := by
  have h (s k m : Nat) := extract_join w s k m
  simp only [packFields, unpackFields, ofBool_getLsbD]
  rw [h 59 1 4, h 53 6 5, h 52 1 11, h 48 4 12, h 44 4 16, h 40 4 20, h 36 4 24, h 34 2 28,
    h 32 2 30, h 0 32 32]
  exact extract_self w

@[simp] theorem require_ok {b : Bool} {e : DecodeError} {u : Unit} :
    require b e = .ok u ↔ b = true := by
  unfold require; split <;> simp_all

@[simp] theorem require_true (e : DecodeError) : require true e = .ok () := rfl

theorem except_bind_ok {ε α β : Type} {x : Except ε α} {f : α → Except ε β} {b : β} :
    (x >>= f) = .ok b ↔ ∃ a, x = .ok a ∧ f a = .ok b := by
  cases x with
  | error e => constructor <;> intro h <;> simp_all [bind, Except.bind]
  | ok a => simp [bind, Except.bind]

@[simp] theorem condOfBits_bits (k : Cond) : condOfBits k.bits = k := by cases k <;> rfl

theorem bits_condOfBits (b : BitVec 4) : (condOfBits b).bits = b := by
  revert b; decide

@[simp] theorem shiftOfBits_bits (k : ShiftKind) : shiftOfBits k.bits = k := by cases k <;> rfl

theorem bits_shiftOfBits (b : BitVec 2) : (shiftOfBits b).bits = b := by
  revert b; decide

@[simp] theorem blockModeOfBits_bits (k : BlockMode) : blockModeOfBits k.bits = k := by
  cases k <;> rfl

theorem bits_blockModeOfBits (b : BitVec 2) : (blockModeOfBits b).bits = b := by
  revert b; decide

@[simp] theorem regBits_toFin (r : Reg) : (regBits r).toFin = r := rfl

@[simp] theorem toFin_regBits (b : BitVec 4) : regBits b.toFin = b := rfl

/-- R84: the suffix of the fields an encoder starts from. -/
@[simp] theorem decodeSuffix_base (c : Suffix) (opc : BitVec 6) (s : Bool) :
    decodeSuffix (baseFields c opc s) = .ok c := by
  cases c with
  | none => rfl
  | some k => simp [decodeSuffix, baseFields]

/-! ## The fields of `imm` that each format packs (R62-R69) -/

theorem dpImm_fields (rot : BitVec 4) (imm8 : BitVec 8) :
    BitVec.extractLsb' (n := 32) 12 20 (0#20 ++ rot ++ imm8) = 0#20 ∧
    BitVec.extractLsb' (n := 32) 0 8 (0#20 ++ rot ++ imm8) = imm8 ∧
    BitVec.extractLsb' (n := 32) 8 4 (0#20 ++ rot ++ imm8) = rot :=
  ⟨((extract_append_high _ _ 12 20 (by decide)).trans ((extract_append_high _ _ 4 20 (by decide)).trans (extract_self _))),
   ((extract_append_low _ _ 0 8 (by decide)).trans (extract_self _)),
   ((extract_append_high _ _ 8 4 (by decide)).trans ((extract_append_low _ _ 0 4 (by decide)).trans (extract_self _)))⟩

theorem dpReg_fields (n : BitVec 6) :
    BitVec.extractLsb' (n := 32) 6 26 (0#26 ++ n) = 0#26 ∧
    BitVec.extractLsb' (n := 32) 0 6 (0#26 ++ n) = n :=
  ⟨((extract_append_high _ _ 6 26 (by decide)).trans (extract_self _)),
   ((extract_append_low _ _ 0 6 (by decide)).trans (extract_self _))⟩

theorem mem2Imm_fields (u : Bool) (idx : BitVec 2) (imm12 : BitVec 12) :
    BitVec.extractLsb' (n := 32) 29 2 (BitVec.ofBool u ++ idx ++ 0#17 ++ imm12) = idx ∧
    BitVec.extractLsb' (n := 32) 12 17 (BitVec.ofBool u ++ idx ++ 0#17 ++ imm12) = 0#17 ∧
    BitVec.extractLsb' (n := 32) 0 12 (BitVec.ofBool u ++ idx ++ 0#17 ++ imm12) = imm12 ∧
    BitVec.getLsbD (w := 32) (BitVec.ofBool u ++ idx ++ 0#17 ++ imm12) 31 = u :=
  ⟨((extract_append_high _ _ 29 2 (by decide)).trans ((extract_append_high _ _ 17 2 (by decide)).trans ((extract_append_low _ _ 0 2 (by decide)).trans (extract_self _)))),
   ((extract_append_high _ _ 12 17 (by decide)).trans ((extract_append_low _ _ 0 17 (by decide)).trans (extract_self _))),
   ((extract_append_low _ _ 0 12 (by decide)).trans (extract_self _)),
   ((getLsbD_append_high _ _ 31 (by decide)).trans ((getLsbD_append_high _ _ 19 (by decide)).trans ((getLsbD_append_high _ _ 2 (by decide)).trans (by simp))))⟩

theorem mem2Reg_fields (u : Bool) (idx : BitVec 2) (n : BitVec 6) :
    BitVec.extractLsb' (n := 32) 29 2 (BitVec.ofBool u ++ idx ++ 0#23 ++ n) = idx ∧
    BitVec.extractLsb' (n := 32) 6 23 (BitVec.ofBool u ++ idx ++ 0#23 ++ n) = 0#23 ∧
    BitVec.extractLsb' (n := 32) 0 6 (BitVec.ofBool u ++ idx ++ 0#23 ++ n) = n ∧
    BitVec.getLsbD (w := 32) (BitVec.ofBool u ++ idx ++ 0#23 ++ n) 31 = u :=
  ⟨((extract_append_high _ _ 29 2 (by decide)).trans ((extract_append_high _ _ 23 2 (by decide)).trans ((extract_append_low _ _ 0 2 (by decide)).trans (extract_self _)))),
   ((extract_append_high _ _ 6 23 (by decide)).trans ((extract_append_low _ _ 0 23 (by decide)).trans (extract_self _))),
   ((extract_append_low _ _ 0 6 (by decide)).trans (extract_self _)),
   ((getLsbD_append_high _ _ 31 (by decide)).trans ((getLsbD_append_high _ _ 25 (by decide)).trans ((getLsbD_append_high _ _ 2 (by decide)).trans (by simp))))⟩

theorem mem3Imm_fields (u : Bool) (idx : BitVec 2) (imm8 : BitVec 8) :
    BitVec.extractLsb' (n := 32) 29 2 (BitVec.ofBool u ++ idx ++ 0#21 ++ imm8) = idx ∧
    BitVec.extractLsb' (n := 32) 8 21 (BitVec.ofBool u ++ idx ++ 0#21 ++ imm8) = 0#21 ∧
    BitVec.extractLsb' (n := 32) 0 8 (BitVec.ofBool u ++ idx ++ 0#21 ++ imm8) = imm8 ∧
    BitVec.getLsbD (w := 32) (BitVec.ofBool u ++ idx ++ 0#21 ++ imm8) 31 = u :=
  ⟨((extract_append_high _ _ 29 2 (by decide)).trans ((extract_append_high _ _ 21 2 (by decide)).trans ((extract_append_low _ _ 0 2 (by decide)).trans (extract_self _)))),
   ((extract_append_high _ _ 8 21 (by decide)).trans ((extract_append_low _ _ 0 21 (by decide)).trans (extract_self _))),
   ((extract_append_low _ _ 0 8 (by decide)).trans (extract_self _)),
   ((getLsbD_append_high _ _ 31 (by decide)).trans ((getLsbD_append_high _ _ 23 (by decide)).trans ((getLsbD_append_high _ _ 2 (by decide)).trans (by simp))))⟩

theorem mem3Reg_fields (u : Bool) (idx : BitVec 2) :
    BitVec.extractLsb' (n := 32) 29 2 (BitVec.ofBool u ++ idx ++ 0#29) = idx ∧
    BitVec.extractLsb' (n := 32) 0 29 (BitVec.ofBool u ++ idx ++ 0#29) = 0#29 ∧
    BitVec.getLsbD (w := 32) (BitVec.ofBool u ++ idx ++ 0#29) 31 = u :=
  ⟨((extract_append_high _ _ 29 2 (by decide)).trans ((extract_append_low _ _ 0 2 (by decide)).trans (extract_self _))),
   ((extract_append_low _ _ 0 29 (by decide)).trans (extract_self _)),
   ((getLsbD_append_high _ _ 31 (by decide)).trans ((getLsbD_append_high _ _ 2 (by decide)).trans (by simp)))⟩

theorem mem4_fields (w : Bool) (am : BitVec 2) (list : BitVec 16) :
    BitVec.extractLsb' (n := 32) 19 13 (0#13 ++ BitVec.ofBool w ++ am ++ list) = 0#13 ∧
    BitVec.extractLsb' (n := 32) 0 16 (0#13 ++ BitVec.ofBool w ++ am ++ list) = list ∧
    BitVec.extractLsb' (n := 32) 16 2 (0#13 ++ BitVec.ofBool w ++ am ++ list) = am ∧
    BitVec.getLsbD (w := 32) (0#13 ++ BitVec.ofBool w ++ am ++ list) 18 = w :=
  ⟨((extract_append_high _ _ 19 13 (by decide)).trans ((extract_append_high _ _ 3 13 (by decide)).trans ((extract_append_high _ _ 1 13 (by decide)).trans (extract_self _)))),
   ((extract_append_low _ _ 0 16 (by decide)).trans (extract_self _)),
   ((extract_append_high _ _ 16 2 (by decide)).trans ((extract_append_low _ _ 0 2 (by decide)).trans (extract_self _))),
   ((getLsbD_append_high _ _ 18 (by decide)).trans ((getLsbD_append_high _ _ 2 (by decide)).trans ((getLsbD_append_low _ _ 0 (by decide)).trans (by simp))))⟩

theorem bf_fields (width : BitVec 6) (lsb : BitVec 5) :
    BitVec.extractLsb' (n := 32) 14 18 (0#18 ++ width ++ 0#3 ++ lsb) = 0#18 ∧
    BitVec.extractLsb' (n := 32) 5 3 (0#18 ++ width ++ 0#3 ++ lsb) = 0#3 ∧
    BitVec.extractLsb' (n := 32) 0 5 (0#18 ++ width ++ 0#3 ++ lsb) = lsb ∧
    BitVec.extractLsb' (n := 32) 8 6 (0#18 ++ width ++ 0#3 ++ lsb) = width :=
  ⟨((extract_append_high _ _ 14 18 (by decide)).trans ((extract_append_high _ _ 9 18 (by decide)).trans ((extract_append_high _ _ 6 18 (by decide)).trans (extract_self _)))),
   ((extract_append_high _ _ 5 3 (by decide)).trans ((extract_append_low _ _ 0 3 (by decide)).trans (extract_self _))),
   ((extract_append_low _ _ 0 5 (by decide)).trans (extract_self _)),
   ((extract_append_high _ _ 8 6 (by decide)).trans ((extract_append_high _ _ 3 6 (by decide)).trans ((extract_append_low _ _ 0 6 (by decide)).trans (extract_self _))))⟩

theorem imm16_fields (i : BitVec 16) :
    BitVec.extractLsb' (n := 32) 16 16 (0#16 ++ i) = 0#16 ∧
    BitVec.extractLsb' (n := 32) 0 16 (0#16 ++ i) = i :=
  ⟨((extract_append_high _ _ 16 16 (by decide)).trans (extract_self _)),
   ((extract_append_low _ _ 0 16 (by decide)).trans (extract_self _))⟩

theorem sat_fields (w n : BitVec 6) :
    BitVec.extractLsb' (n := 32) 14 18 (0#18 ++ w ++ 0#2 ++ n) = 0#18 ∧
    BitVec.extractLsb' (n := 32) 6 2 (0#18 ++ w ++ 0#2 ++ n) = 0#2 ∧
    BitVec.extractLsb' (n := 32) 0 6 (0#18 ++ w ++ 0#2 ++ n) = n ∧
    BitVec.extractLsb' (n := 32) 8 6 (0#18 ++ w ++ 0#2 ++ n) = w :=
  ⟨((extract_append_high _ _ 14 18 (by decide)).trans ((extract_append_high _ _ 8 18 (by decide)).trans ((extract_append_high _ _ 6 18 (by decide)).trans (extract_self _)))),
   ((extract_append_high _ _ 6 2 (by decide)).trans ((extract_append_low _ _ 0 2 (by decide)).trans (extract_self _))),
   ((extract_append_low _ _ 0 6 (by decide)).trans (extract_self _)),
   ((extract_append_high _ _ 8 6 (by decide)).trans ((extract_append_high _ _ 2 6 (by decide)).trans ((extract_append_low _ _ 0 6 (by decide)).trans (extract_self _))))⟩

/-! ## Which fields an operand fills -/

@[simp] theorem putOp2_cond (o : Op2) (f : Fields) :
    (putOp2 o f).cond = f.cond := by cases o <;> rfl

@[simp] theorem putOp2_p (o : Op2) (f : Fields) :
    (putOp2 o f).p = f.p := by cases o <;> rfl

@[simp] theorem putOp2_opc (o : Op2) (f : Fields) :
    (putOp2 o f).opc = f.opc := by cases o <;> rfl

@[simp] theorem putOp2_s (o : Op2) (f : Fields) :
    (putOp2 o f).s = f.s := by cases o <;> rfl

@[simp] theorem putOp2_rd (o : Op2) (f : Fields) :
    (putOp2 o f).rd = f.rd := by cases o <;> rfl

@[simp] theorem putOp2_rn (o : Op2) (f : Fields) :
    (putOp2 o f).rn = f.rn := by cases o <;> rfl

@[simp] theorem putOff2_cond (u : Bool) (idx : Index) (o : Off2) (f : Fields) :
    (putOff2 u idx o f).cond = f.cond := by cases o <;> rfl

@[simp] theorem putOff2_p (u : Bool) (idx : Index) (o : Off2) (f : Fields) :
    (putOff2 u idx o f).p = f.p := by cases o <;> rfl

@[simp] theorem putOff2_opc (u : Bool) (idx : Index) (o : Off2) (f : Fields) :
    (putOff2 u idx o f).opc = f.opc := by cases o <;> rfl

@[simp] theorem putOff2_s (u : Bool) (idx : Index) (o : Off2) (f : Fields) :
    (putOff2 u idx o f).s = f.s := by cases o <;> rfl

@[simp] theorem putOff2_rd (u : Bool) (idx : Index) (o : Off2) (f : Fields) :
    (putOff2 u idx o f).rd = f.rd := by cases o <;> rfl

@[simp] theorem putOff2_rn (u : Bool) (idx : Index) (o : Off2) (f : Fields) :
    (putOff2 u idx o f).rn = f.rn := by cases o <;> rfl

@[simp] theorem putOff2_rs (u : Bool) (idx : Index) (o : Off2) (f : Fields) :
    (putOff2 u idx o f).rs = f.rs := by cases o <;> rfl

@[simp] theorem putOff3_cond (u : Bool) (idx : Index) (o : Off3) (f : Fields) :
    (putOff3 u idx o f).cond = f.cond := by cases o <;> rfl

@[simp] theorem putOff3_p (u : Bool) (idx : Index) (o : Off3) (f : Fields) :
    (putOff3 u idx o f).p = f.p := by cases o <;> rfl

@[simp] theorem putOff3_opc (u : Bool) (idx : Index) (o : Off3) (f : Fields) :
    (putOff3 u idx o f).opc = f.opc := by cases o <;> rfl

@[simp] theorem putOff3_s (u : Bool) (idx : Index) (o : Off3) (f : Fields) :
    (putOff3 u idx o f).s = f.s := by cases o <;> rfl

@[simp] theorem putOff3_rd (u : Bool) (idx : Index) (o : Off3) (f : Fields) :
    (putOff3 u idx o f).rd = f.rd := by cases o <;> rfl

@[simp] theorem putOff3_rn (u : Bool) (idx : Index) (o : Off3) (f : Fields) :
    (putOff3 u idx o f).rn = f.rn := by cases o <;> rfl

@[simp] theorem putOff3_rs (u : Bool) (idx : Index) (o : Off3) (f : Fields) :
    (putOff3 u idx o f).rs = f.rs := by cases o <;> rfl

/-- R84: the suffix depends on `cond` and `P` alone. -/
theorem decodeSuffix_congr {f g : Fields} (h1 : f.cond = g.cond) (h2 : f.p = g.p) :
    decodeSuffix f = decodeSuffix g := by
  simp only [decodeSuffix, h1, h2]

/-- R62: a well-formed shifter operand put into fields that leave its own at zero reads back. -/
theorem decodeOp2_putOp2 (o : Op2) (f : Fields) (hw : o.wf = true) (hrm : f.rm = 0) (hrs : f.rs = 0)
    (hsh : f.sh = 0) (himm : f.imm = 0) : decodeOp2 (putOp2 o f) = .ok o := by
  cases o with
  | imm a b => simp [decodeOp2, putOp2, hrm, hrs, hsh, dpImm_fields, bind, Except.bind]
  | regImm a b c =>
    simp only [Op2.wf] at hw
    simp [decodeOp2, putOp2, hrs, dpReg_fields, bind, Except.bind, hw]
  | regReg a b c => simp [decodeOp2, putOp2, himm, bind, Except.bind]
  | rrx a => simp [decodeOp2, putOp2, hrs, himm, bind, Except.bind]

/-- R65: a well-formed mode-two offset reads back. -/
theorem decodeOff2_putOff2 (u : Bool) (idx : Index) (o : Off2) (f : Fields) (hw : o.wf = true)
    (hrm : f.rm = 0) (hrs : f.rs = 0) (hsh : f.sh = 0) :
    decodeOff2 (putOff2 u idx o f) = .ok o := by
  cases o with
  | imm a => simp [decodeOff2, putOff2, hrm, hrs, hsh, mem2Imm_fields, bind, Except.bind]
  | reg a b c =>
    simp only [Off2.wf] at hw
    simp [decodeOff2, putOff2, hrs, mem2Reg_fields, bind, Except.bind, hw]

/-- R66: a mode-three offset reads back. -/
theorem decodeOff3_putOff3 (u : Bool) (idx : Index) (o : Off3) (f : Fields)
    (hrm : f.rm = 0) (hrs : f.rs = 0) (hsh : f.sh = 0) :
    decodeOff3 (putOff3 u idx o f) = .ok o := by
  cases o with
  | imm a => simp [decodeOff3, putOff3, hrm, hrs, hsh, mem3Imm_fields, bind, Except.bind]
  | reg a => simp [decodeOff3, putOff3, hrs, hsh, mem3Reg_fields, bind, Except.bind]

/-- R65: the index mode and the add bit of a mode-two address read back. -/
theorem putOff2_imm (u : Bool) (idx : Index) (o : Off2) (f : Fields) :
    (putOff2 u idx o f).imm.extractLsb' 29 2 = idx.bits ∧
      (putOff2 u idx o f).imm.getLsbD 31 = u := by
  cases o with
  | imm a => exact ⟨(mem2Imm_fields u idx.bits a).1, (mem2Imm_fields u idx.bits a).2.2.2⟩
  | reg a b c => exact ⟨(mem2Reg_fields u idx.bits c).1, (mem2Reg_fields u idx.bits c).2.2.2⟩

/-- R66: the same for a mode-three address. -/
theorem putOff3_imm (u : Bool) (idx : Index) (o : Off3) (f : Fields) :
    (putOff3 u idx o f).imm.extractLsb' 29 2 = idx.bits ∧
      (putOff3 u idx o f).imm.getLsbD 31 = u := by
  cases o with
  | imm a => exact ⟨(mem3Imm_fields u idx.bits a).1, (mem3Imm_fields u idx.bits a).2.2.2⟩
  | reg a => exact ⟨(mem3Reg_fields u idx.bits).1, (mem3Reg_fields u idx.bits).2.2⟩

/-- R65: an index mode is read from its code. -/
theorem decodeIndex_of_bits {f : Fields} {idx : Index} (h : f.imm.extractLsb' 29 2 = idx.bits) :
    decodeIndex f = .ok idx := by
  unfold decodeIndex
  rw [h]
  cases idx <;> rfl

/-- Decoding an encoded operation reads its fields. -/
theorem decode_encode_fields (i : Instr) : decode (encode i) = decodeFields (encodeFields i) := by
  rw [decode, encode, unpack_pack]

end Sys2Proof
end

