-- ==== Sys2Proof/Laws/Memory.lean ====
section
/-! SUPPORT. The laws of memory: a byte written reads back, every other byte stays, and every operation
keeps the canonical form. -/

namespace Sys2Proof.Machine

theorem Memory.wf_iff (m : Memory) :
    m.wf = true ↔ (m.Pairwise fun x y => x.1 < y.1) ∧
      ∀ x ∈ m, x.1 < 2 ^ 32 ∧ x.2 ≠ Config.unlistedByte := by
  simp [Memory.wf]

theorem Memory.wf_nil : Memory.wf [] = true := by decide

/-- An address below every listed one reads as unlisted. -/
theorem Memory.read_of_lt (m : Memory) (a : Nat) (h : ∀ x ∈ m, a < x.1) :
    m.read a = Config.unlistedByte := by
  induction m with
  | nil => rfl
  | cons x rest ih =>
    obtain ⟨b, w⟩ := x
    have hb : a < b := h (b, w) (by simp)
    simp only [Memory.read, Nat.ne_of_lt hb, if_false]
    exact ih fun y hy => h y (by simp [hy])

/-- A byte written leaves every other address as it was. -/
theorem Memory.read_write_ne (m : Memory) (a x : Nat) (v : Byte) (h : x ≠ a) :
    (m.write a v).read x = m.read x := by
  induction m with
  | nil => simp only [Memory.write]; split <;> simp [Memory.read, h]
  | cons c rest ih =>
    obtain ⟨b, w⟩ := c
    simp only [Memory.write]
    split
    · split <;> simp [Memory.read, h]
    · split
      · next hab => subst hab; split <;> simp [Memory.read, h]
      · simp only [Memory.read, ih]

/-- A byte written reads back. -/
theorem Memory.read_write_self (m : Memory) (a : Nat) (v : Byte) (h : m.wf = true) :
    (m.write a v).read a = v := by
  rw [Memory.wf_iff] at h
  obtain ⟨hp, -⟩ := h
  induction m with
  | nil => simp only [Memory.write]; split <;> simp_all [Memory.read]
  | cons c rest ih =>
    obtain ⟨b, w⟩ := c
    rw [List.pairwise_cons] at hp
    simp only [Memory.write]
    split
    · next hlt =>
      split
      · next hv =>
        subst hv
        refine Memory.read_of_lt _ _ fun y hy => ?_
        rcases List.mem_cons.1 hy with rfl | hy
        · exact hlt
        · exact Nat.lt_trans hlt (hp.1 y hy)
      · simp [Memory.read]
    · split
      · next hab =>
        subst hab
        split
        · next hv => subst hv; exact Memory.read_of_lt _ _ hp.1
        · simp [Memory.read]
      · next hne =>
        simp only [Memory.read, hne, if_false]
        exact ih hp.2

/-- What a written memory lists. -/
theorem Memory.mem_write {m : Memory} {a : Nat} {v : Byte} {y : Host.Cell} (h : y ∈ m.write a v) :
    y ∈ m ∨ (y = (a, v) ∧ v ≠ Config.unlistedByte) := by
  induction m with
  | nil =>
    simp only [Memory.write] at h
    split at h <;> simp_all
  | cons c rest ih =>
    obtain ⟨b, w⟩ := c
    simp only [Memory.write] at h
    split at h
    · split at h
      · exact .inl h
      · rcases List.mem_cons.1 h with rfl | h
        · exact .inr ⟨rfl, ‹_›⟩
        · exact .inl h
    · split at h
      · split at h
        · exact .inl (List.mem_cons_of_mem _ h)
        · rcases List.mem_cons.1 h with rfl | h
          · exact .inr ⟨rfl, ‹_›⟩
          · exact .inl (List.mem_cons_of_mem _ h)
      · rcases List.mem_cons.1 h with rfl | h
        · exact .inl (by simp)
        · rcases ih h with h | h
          · exact .inl (List.mem_cons_of_mem _ h)
          · exact .inr h

theorem Memory.pairwise_write (m : Memory) (a : Nat) (v : Byte)
    (hp : m.Pairwise fun x y => x.1 < y.1) : (m.write a v).Pairwise fun x y => x.1 < y.1 := by
  induction m with
  | nil => simp only [Memory.write]; split <;> simp
  | cons c rest ih =>
    obtain ⟨b, w⟩ := c
    have hp' := hp
    rw [List.pairwise_cons] at hp
    simp only [Memory.write]
    split
    · next hlt =>
      split
      · exact hp'
      · refine List.pairwise_cons.2 ⟨fun y hy => ?_, hp'⟩
        rcases List.mem_cons.1 hy with rfl | hy
        · exact hlt
        · exact Nat.lt_trans hlt (hp.1 y hy)
    · split
      · next hab =>
        subst hab
        split
        · exact hp.2
        · exact List.pairwise_cons.2 ⟨hp.1, hp.2⟩
      · next hnlt hne =>
        refine List.pairwise_cons.2 ⟨fun y hy => ?_, ih hp.2⟩
        rcases Memory.mem_write hy with hy | ⟨rfl, -⟩
        · exact hp.1 y hy
        · show b < a; omega

/-- Writing a byte keeps the canonical form. -/
theorem Memory.wf_write (m : Memory) (a : Nat) (v : Byte) (h : m.wf = true) (ha : a < 2 ^ 32) :
    (m.write a v).wf = true := by
  rw [Memory.wf_iff] at h ⊢
  refine ⟨Memory.pairwise_write m a v h.1, fun y hy => ?_⟩
  rcases Memory.mem_write hy with hy | ⟨rfl, hv⟩
  · exact h.2 y hy
  · exact ⟨ha, hv⟩

/-- Writing bytes keeps the canonical form. -/
theorem Memory.wf_writeBytes (bs : List Byte) (m : Memory) (a : Word) (h : m.wf = true) :
    (m.writeBytes a bs).wf = true := by
  induction bs generalizing m a with
  | nil => exact h
  | cons b bs ih => exact ih _ _ (Memory.wf_write m _ b h a.isLt)

theorem byteAt_zero (a : Word) : Safety.byteAt a 0 = a.toNat := by
  simp [Safety.byteAt, Nat.mod_eq_of_lt a.isLt]

theorem byteAt_succ (a : Word) (k : Nat) : Safety.byteAt (a + 1) k = Safety.byteAt a (k + 1) := by
  simp only [Safety.byteAt, BitVec.toNat_add]
  have : (1 : Word).toNat = 1 := rfl
  rw [this]; omega

theorem byteAt_inj {a : Word} {i j : Nat} (hi : i < 2 ^ 32) (hj : j < 2 ^ 32)
    (h : Safety.byteAt a i = Safety.byteAt a j) : i = j := by
  have := a.isLt
  simp only [Safety.byteAt] at h
  omega

/-- Bytes written leave every other address as it was. -/
theorem Memory.read_writeBytes_ne (bs : List Byte) (m : Memory) (a : Word) (x : Nat)
    (h : ∀ k, k < bs.length → x ≠ Safety.byteAt a k) : (m.writeBytes a bs).read x = m.read x := by
  induction bs generalizing m a with
  | nil => rfl
  | cons b bs ih =>
    have h0 : x ≠ a.toNat := byteAt_zero a ▸ h 0 (by simp)
    rw [Memory.writeBytes, ih _ _ fun k hk => byteAt_succ a k ▸ h (k + 1) (by simpa using hk)]
    exact Memory.read_write_ne m _ _ b h0

/-- What writing bytes leaves in a canonical memory. -/
theorem Memory.stored_writeBytes (bs : List Byte) (m : Memory) (a : Word) (h : m.wf = true)
    (hlen : bs.length ≤ 2 ^ 32) : Safety.Stored m (m.writeBytes a bs) a bs := by
  refine ⟨?_, fun x hx => Memory.read_writeBytes_ne bs m a x hx⟩
  induction bs generalizing m a with
  | nil => intro k hk; simp at hk
  | cons b bs ih =>
    have hlen' : bs.length + 1 ≤ 2 ^ 32 := by simpa using hlen
    intro k hk
    cases k with
    | zero =>
      rw [Memory.writeBytes, Memory.read_writeBytes_ne, byteAt_zero]
      · exact Memory.read_write_self m _ b h
      · intro j hj e
        rw [byteAt_succ] at e
        have := byteAt_inj (by omega) (by omega) e
        omega
    | succ k =>
      have := ih _ (a + 1) (Memory.wf_write m a.toNat b h a.isLt) (by omega) k (by simpa using hk)
      rw [byteAt_succ] at this
      simpa [Memory.writeBytes] using this

end Sys2Proof.Machine
end

