-- ==== Sys2Proof/Laws/State.lean ====
section
/-! SUPPORT. What each update of the state does to each field, so that no proof unfolds a record update. -/

namespace Sys2Proof.Machine

/-! ## writeReg -/

@[simp] theorem State.writeReg_regs (s : State) (r : Reg) (v : Word) :
    (s.writeReg r v).regs = s.regs.set r.val (some v) r.isLt := rfl

@[simp] theorem State.writeReg_flags (s : State) (r : Reg) (v : Word) :
    (s.writeReg r v).flags = s.flags := rfl

@[simp] theorem State.writeReg_mem (s : State) (r : Reg) (v : Word) :
    (s.writeReg r v).mem = s.mem := rfl

@[simp] theorem State.writeReg_pcRead (s : State) (r : Reg) (v : Word) :
    (s.writeReg r v).pcRead = s.pcRead := rfl

@[simp] theorem State.writeReg_presented (s : State) (r : Reg) (v : Word) :
    (s.writeReg r v).presented = s.presented := rfl

@[simp] theorem State.writeReg_port (s : State) (r : Reg) (v : Word) :
    (s.writeReg r v).port = s.port := rfl

@[simp] theorem State.writeReg_params (s : State) (r : Reg) (v : Word) :
    (s.writeReg r v).params = s.params := rfl

@[simp] theorem State.writeReg_status (s : State) (r : Reg) (v : Word) :
    (s.writeReg r v).status = s.status := rfl

@[simp] theorem State.writeReg_requests (s : State) (r : Reg) (v : Word) :
    (s.writeReg r v).requests = s.requests := rfl

/-! ## begin -/

@[simp] theorem State.begin_regs (s : State) :
    (s.begin).regs = s.regs := rfl

@[simp] theorem State.begin_flags (s : State) :
    (s.begin).flags = s.flags := rfl

@[simp] theorem State.begin_mem (s : State) :
    (s.begin).mem = s.mem := rfl

@[simp] theorem State.begin_pcRead (s : State) :
    (s.begin).pcRead = s.pcRead := rfl

@[simp] theorem State.begin_presented (s : State) :
    (s.begin).presented = s.presented := rfl

@[simp] theorem State.begin_port (s : State) :
    (s.begin).port = s.port := rfl

@[simp] theorem State.begin_params (s : State) :
    (s.begin).params = s.params := rfl

@[simp] theorem State.begin_status (s : State) :
    (s.begin).status = s.status := rfl

@[simp] theorem State.begin_requests (s : State) :
    (s.begin).requests = [] := rfl

/-! ## take -/

@[simp] theorem State.take_regs (s : State) (op : Operation) (rest : List Operation) :
    (s.take op rest).regs = s.regs := rfl

@[simp] theorem State.take_flags (s : State) (op : Operation) (rest : List Operation) :
    (s.take op rest).flags = s.flags := rfl

@[simp] theorem State.take_mem (s : State) (op : Operation) (rest : List Operation) :
    (s.take op rest).mem = s.mem := rfl

@[simp] theorem State.take_pcRead (s : State) (op : Operation) (rest : List Operation) :
    (s.take op rest).pcRead = op.pcRead := rfl

@[simp] theorem State.take_presented (s : State) (op : Operation) (rest : List Operation) :
    (s.take op rest).presented = rest := rfl

@[simp] theorem State.take_port (s : State) (op : Operation) (rest : List Operation) :
    (s.take op rest).port = s.port := rfl

@[simp] theorem State.take_params (s : State) (op : Operation) (rest : List Operation) :
    (s.take op rest).params = s.params := rfl

@[simp] theorem State.take_status (s : State) (op : Operation) (rest : List Operation) :
    (s.take op rest).status = s.status := rfl

@[simp] theorem State.take_requests (s : State) (op : Operation) (rest : List Operation) :
    (s.take op rest).requests = s.requests := rfl

/-! ## present -/

@[simp] theorem State.present_regs (s : State) (w : BitVec 64) :
    (s.present w).regs = s.regs := rfl

@[simp] theorem State.present_flags (s : State) (w : BitVec 64) :
    (s.present w).flags = s.flags := rfl

@[simp] theorem State.present_mem (s : State) (w : BitVec 64) :
    (s.present w).mem = s.mem := rfl

@[simp] theorem State.present_pcRead (s : State) (w : BitVec 64) :
    (s.present w).pcRead = s.pcRead := rfl

@[simp] theorem State.present_presented (s : State) (w : BitVec 64) :
    (s.present w).presented = { opw := w, pcRead := s.pcRead } :: s.presented.tail := rfl

@[simp] theorem State.present_port (s : State) (w : BitVec 64) :
    (s.present w).port = s.port := rfl

@[simp] theorem State.present_params (s : State) (w : BitVec 64) :
    (s.present w).params = s.params := rfl

@[simp] theorem State.present_status (s : State) (w : BitVec 64) :
    (s.present w).status = s.status := rfl

@[simp] theorem State.present_requests (s : State) (w : BitVec 64) :
    (s.present w).requests = s.requests := rfl

/-! ## writeBack -/

@[simp] theorem State.writeBack_flags (s : State) (rn : Reg) (a : Access) :
    (s.writeBack rn a).flags = s.flags := by
  unfold State.writeBack; split <;> rfl

@[simp] theorem State.writeBack_mem (s : State) (rn : Reg) (a : Access) :
    (s.writeBack rn a).mem = s.mem := by
  unfold State.writeBack; split <;> rfl

@[simp] theorem State.writeBack_pcRead (s : State) (rn : Reg) (a : Access) :
    (s.writeBack rn a).pcRead = s.pcRead := by
  unfold State.writeBack; split <;> rfl

@[simp] theorem State.writeBack_presented (s : State) (rn : Reg) (a : Access) :
    (s.writeBack rn a).presented = s.presented := by
  unfold State.writeBack; split <;> rfl

@[simp] theorem State.writeBack_port (s : State) (rn : Reg) (a : Access) :
    (s.writeBack rn a).port = s.port := by
  unfold State.writeBack; split <;> rfl

@[simp] theorem State.writeBack_params (s : State) (rn : Reg) (a : Access) :
    (s.writeBack rn a).params = s.params := by
  unfold State.writeBack; split <;> rfl

@[simp] theorem State.writeBack_status (s : State) (rn : Reg) (a : Access) :
    (s.writeBack rn a).status = s.status := by
  unfold State.writeBack; split <;> rfl

@[simp] theorem State.writeBack_requests (s : State) (rn : Reg) (a : Access) :
    (s.writeBack rn a).requests = s.requests := by
  unfold State.writeBack; split <;> rfl

/-! ## Flags -/

@[simp] theorem Flags.setNZ_n {w : Nat} (f : Flags) (r : BitVec w) :
    (f.setNZ r).n = some (nz r).1 := rfl

@[simp] theorem Flags.setNZ_z {w : Nat} (f : Flags) (r : BitVec w) :
    (f.setNZ r).z = some (nz r).2 := rfl

@[simp] theorem Flags.setNZ_c {w : Nat} (f : Flags) (r : BitVec w) :
    (f.setNZ r).c = f.c := rfl

@[simp] theorem Flags.setNZ_v {w : Nat} (f : Flags) (r : BitVec w) :
    (f.setNZ r).v = f.v := rfl

@[simp] theorem Flags.setNZ_q {w : Nat} (f : Flags) (r : BitVec w) :
    (f.setNZ r).q = f.q := rfl

@[simp] theorem Flags.setNZ_t {w : Nat} (f : Flags) (r : BitVec w) :
    (f.setNZ r).t = f.t := rfl

@[simp] theorem Flags.setNZ_ge0 {w : Nat} (f : Flags) (r : BitVec w) :
    (f.setNZ r).ge0 = f.ge0 := rfl

@[simp] theorem Flags.setNZ_ge1 {w : Nat} (f : Flags) (r : BitVec w) :
    (f.setNZ r).ge1 = f.ge1 := rfl

@[simp] theorem Flags.setNZ_ge2 {w : Nat} (f : Flags) (r : BitVec w) :
    (f.setNZ r).ge2 = f.ge2 := rfl

@[simp] theorem Flags.setNZ_ge3 {w : Nat} (f : Flags) (r : BitVec w) :
    (f.setNZ r).ge3 = f.ge3 := rfl

@[simp] theorem Flags.setAdditive_n (f : Flags) (r : Word) (c v : Bool) :
    (f.setAdditive r c v).n = some (nz r).1 := rfl

@[simp] theorem Flags.setAdditive_z (f : Flags) (r : Word) (c v : Bool) :
    (f.setAdditive r c v).z = some (nz r).2 := rfl

@[simp] theorem Flags.setAdditive_c (f : Flags) (r : Word) (c v : Bool) :
    (f.setAdditive r c v).c = some c := rfl

@[simp] theorem Flags.setAdditive_v (f : Flags) (r : Word) (c v : Bool) :
    (f.setAdditive r c v).v = some v := rfl

@[simp] theorem Flags.setAdditive_q (f : Flags) (r : Word) (c v : Bool) :
    (f.setAdditive r c v).q = f.q := rfl

@[simp] theorem Flags.setAdditive_t (f : Flags) (r : Word) (c v : Bool) :
    (f.setAdditive r c v).t = f.t := rfl

@[simp] theorem Flags.setAdditive_ge0 (f : Flags) (r : Word) (c v : Bool) :
    (f.setAdditive r c v).ge0 = f.ge0 := rfl

@[simp] theorem Flags.setAdditive_ge1 (f : Flags) (r : Word) (c v : Bool) :
    (f.setAdditive r c v).ge1 = f.ge1 := rfl

@[simp] theorem Flags.setAdditive_ge2 (f : Flags) (r : Word) (c v : Bool) :
    (f.setAdditive r c v).ge2 = f.ge2 := rfl

@[simp] theorem Flags.setAdditive_ge3 (f : Flags) (r : Word) (c v : Bool) :
    (f.setAdditive r c v).ge3 = f.ge3 := rfl

@[simp] theorem Flags.setGE_n (f : Flags) (a b : Bool) :
    (f.setGE a b).n = f.n := rfl

@[simp] theorem Flags.setGE_z (f : Flags) (a b : Bool) :
    (f.setGE a b).z = f.z := rfl

@[simp] theorem Flags.setGE_c (f : Flags) (a b : Bool) :
    (f.setGE a b).c = f.c := rfl

@[simp] theorem Flags.setGE_v (f : Flags) (a b : Bool) :
    (f.setGE a b).v = f.v := rfl

@[simp] theorem Flags.setGE_q (f : Flags) (a b : Bool) :
    (f.setGE a b).q = f.q := rfl

@[simp] theorem Flags.setGE_t (f : Flags) (a b : Bool) :
    (f.setGE a b).t = f.t := rfl

@[simp] theorem Flags.setGE_ge0 (f : Flags) (a b : Bool) :
    (f.setGE a b).ge0 = some a := rfl

@[simp] theorem Flags.setGE_ge1 (f : Flags) (a b : Bool) :
    (f.setGE a b).ge1 = some a := rfl

@[simp] theorem Flags.setGE_ge2 (f : Flags) (a b : Bool) :
    (f.setGE a b).ge2 = some b := rfl

@[simp] theorem Flags.setGE_ge3 (f : Flags) (a b : Bool) :
    (f.setGE a b).ge3 = some b := rfl

@[simp] theorem Flags.setCarry_n (f : Flags) (k : Carry) :
    (f.setCarry k).n = f.n := by
  cases k <;> rfl

@[simp] theorem Flags.setCarry_z (f : Flags) (k : Carry) :
    (f.setCarry k).z = f.z := by
  cases k <;> rfl

@[simp] theorem Flags.setCarry_c (f : Flags) (k : Carry) :
    (f.setCarry k).c = k.or f.c := by
  cases k <;> rfl

@[simp] theorem Flags.setCarry_v (f : Flags) (k : Carry) :
    (f.setCarry k).v = f.v := by
  cases k <;> rfl

@[simp] theorem Flags.setCarry_q (f : Flags) (k : Carry) :
    (f.setCarry k).q = f.q := by
  cases k <;> rfl

@[simp] theorem Flags.setCarry_t (f : Flags) (k : Carry) :
    (f.setCarry k).t = f.t := by
  cases k <;> rfl

@[simp] theorem Flags.setCarry_ge0 (f : Flags) (k : Carry) :
    (f.setCarry k).ge0 = f.ge0 := by
  cases k <;> rfl

@[simp] theorem Flags.setCarry_ge1 (f : Flags) (k : Carry) :
    (f.setCarry k).ge1 = f.ge1 := by
  cases k <;> rfl

@[simp] theorem Flags.setCarry_ge2 (f : Flags) (k : Carry) :
    (f.setCarry k).ge2 = f.ge2 := by
  cases k <;> rfl

@[simp] theorem Flags.setCarry_ge3 (f : Flags) (k : Carry) :
    (f.setCarry k).ge3 = f.ge3 := by
  cases k <;> rfl

@[simp] theorem Flags.setQ_n (f : Flags) (b : Bool) :
    (f.setQ b).n = f.n := by
  cases b <;> rfl

@[simp] theorem Flags.setQ_z (f : Flags) (b : Bool) :
    (f.setQ b).z = f.z := by
  cases b <;> rfl

@[simp] theorem Flags.setQ_c (f : Flags) (b : Bool) :
    (f.setQ b).c = f.c := by
  cases b <;> rfl

@[simp] theorem Flags.setQ_v (f : Flags) (b : Bool) :
    (f.setQ b).v = f.v := by
  cases b <;> rfl

@[simp] theorem Flags.setQ_q (f : Flags) (b : Bool) :
    (f.setQ b).q = if b then some true else f.q := by
  cases b <;> rfl

@[simp] theorem Flags.setQ_t (f : Flags) (b : Bool) :
    (f.setQ b).t = f.t := by
  cases b <;> rfl

@[simp] theorem Flags.setQ_ge0 (f : Flags) (b : Bool) :
    (f.setQ b).ge0 = f.ge0 := by
  cases b <;> rfl

@[simp] theorem Flags.setQ_ge1 (f : Flags) (b : Bool) :
    (f.setQ b).ge1 = f.ge1 := by
  cases b <;> rfl

@[simp] theorem Flags.setQ_ge2 (f : Flags) (b : Bool) :
    (f.setQ b).ge2 = f.ge2 := by
  cases b <;> rfl

@[simp] theorem Flags.setQ_ge3 (f : Flags) (b : Bool) :
    (f.setQ b).ge3 = f.ge3 := by
  cases b <;> rfl

/-! ## The register file -/

/-- Reading a cell after a register write. -/
theorem State.writeReg_get (s : State) (r q : Reg) (v : Word) :
    (s.writeReg r v).regs.get q = if q = r then some v else s.regs.get q := by
  simp only [State.writeReg, Vector.get_eq_getElem, Fin.ext_iff]
  by_cases h : q.val = r.val
  · simp [h]
  · rw [Vector.getElem_set_ne _ _ (fun e => h e.symm)]; simp [h]

/-- Reading a register after a register write; R15 always reads `PC_READ_VALUE` (R22). -/
theorem State.readReg_writeReg (s : State) (r q : Reg) (v : Word) :
    (s.writeReg r v).readReg q =
      if q = 15 then s.pcRead else if q = r then some v else s.readReg q := by
  unfold State.readReg
  by_cases h : q = 15
  · simp [h]
  · rw [if_neg h, if_neg h, State.writeReg_get]; simp [h]

@[simp] theorem State.begin_readReg (s : State) (r : Reg) : s.begin.readReg r = s.readReg r := rfl

@[simp] theorem State.begin_missing (s : State) (l : List Source) :
    s.begin.missing l = s.missing l := by
  rfl

/-- The registers after a write-back. -/
theorem State.writeBack_regs (s : State) (rn : Reg) (a : Access) :
    (s.writeBack rn a).regs = if a.wb then s.regs.set rn.val (some a.wbval) rn.isLt else s.regs := by
  unfold State.writeBack; split <;> simp_all

end Sys2Proof.Machine
end

