-- ==== Sys2Proof/Laws/Ops.lean ====
section
/-! SUPPORT. For each shared operation, one lemma that says once everything it can do. -/

namespace Sys2Proof.Machine

/-! ## Widening multiplies at the width the operations use -/

/-- R112: the signed 32 to 64 bit product. -/
theorem sMulWide_word (a b : Word) : sMulWide a b = BitVec.ofInt 64 (a.toInt * b.toInt) := rfl

/-- R112: the unsigned 32 to 64 bit product. -/
theorem uMulWide_word (a b : Word) : uMulWide a b = BitVec.ofNat 64 (a.toNat * b.toNat) := rfl

/-! ## Sets of reads -/

theorem allSources_nodup : allSources.Nodup := by decide

theorem mem_allSources (x : Source) : x ∈ allSources := by
  cases x with
  | reg r => revert r; decide
  | flag f => cases f <;> decide

/-- R406: `missing` is the set of the reads that hold no value. -/
theorem State.missing_isMissingSet (s : State) (reads : List Source) :
    Safety.IsMissingSet s reads (s.missing reads) := by
  refine ⟨allSources_nodup.filter _, fun x => ?_⟩
  simp [State.missing, mem_allSources]

theorem State.readReg_isSome (s : State) (r : Reg) :
    (s.readReg r).isSome = s.holds (.reg r) := rfl

/-- Registers read together: every one holds a value, and the values are theirs, in order. -/
theorem State.readRegs_eq_some {s : State} {rs : List Reg} {vs : List Word} :
    s.readRegs rs = some vs ↔ rs.map s.readReg = vs.map some := by
  induction rs generalizing vs with
  | nil => cases vs <;> simp [State.readRegs]
  | cons r rs ih =>
    cases vs with
    | nil => simp only [State.readRegs]; split <;> simp
    | cons v vs =>
      simp only [State.readRegs, List.map_cons, List.cons.injEq]
      constructor
      · intro h
        split at h
        · next v' vs' h1 h2 =>
          simp only [Option.some.injEq, List.cons.injEq] at h
          obtain ⟨rfl, rfl⟩ := h
          exact ⟨h1, ih.1 h2⟩
        · simp at h
      · rintro ⟨h1, h2⟩
        simp [h1, ih.2 h2]

theorem State.readRegs_eq_none {s : State} {rs : List Reg} :
    s.readRegs rs = none ↔ ∃ r ∈ rs, s.readReg r = none := by
  induction rs with
  | nil => simp [State.readRegs]
  | cons r rs ih =>
    simp only [State.readRegs, List.mem_cons, exists_eq_or_imp]
    cases h1 : s.readReg r with
    | none => simp
    | some v =>
      cases h2 : s.readRegs rs with
      | none => simp [← ih, h2]
      | some vs => simp [← ih, h2]

/-! ## The predication multiplexer -/

/-- R172: what the multiplexer can do. -/
theorem gate_cases (c : Suffix) (s : State) (body : State → Result) :
    (Safety.passes c s = true ∧ gate c s body = body s.begin) ∨
      (∃ k, c = some k ∧ s.flags.condHolds k = none ∧
        gate c s body = raise (.unwrittenRead (s.missing (condReads k))) s.begin) ∨
      (∃ k, c = some k ∧ s.flags.condHolds k = some false ∧
        gate c s body = .next { s.begin with status := some .skipped }) := by
  cases c with
  | none => exact .inl ⟨rfl, rfl⟩
  | some k =>
    cases h : s.flags.condHolds k with
    | none => exact .inr (.inl ⟨k, rfl, h, by simp [gate, h]⟩)
    | some b =>
      cases b with
      | false => exact .inr (.inr ⟨k, rfl, h, by simp [gate, h]⟩)
      | true => exact .inl ⟨by simp [Safety.passes, h], by simp [gate, h]⟩

/-- An operation whose condition passes runs its body. -/
theorem gate_of_passes {c : Suffix} {s : State} (body : State → Result)
    (h : Safety.passes c s = true) : gate c s body = body s.begin := by
  cases c with
  | none => rfl
  | some k =>
    have hk : s.flags.condHolds k = some true := by simpa [Safety.passes] using h
    simp [gate, hk]

/-- If an operation answers a next state, its body did, or nothing but the status was recorded. -/
theorem gate_next {c : Suffix} {s t : State} {body : State → Result} (h : gate c s body = .next t) :
    body s.begin = .next t ∨ (∃ st, t = { s.begin with status := some st }) := by
  rcases gate_cases c s body with ⟨-, e⟩ | ⟨k, -, -, e⟩ | ⟨k, -, -, e⟩
  · exact .inl (e ▸ h)
  · rw [e, raise] at h
    exact .inr ⟨_, (Host.Outcome.next.inj h).symm⟩
  · rw [e] at h
    exact .inr ⟨_, (Host.Outcome.next.inj h).symm⟩

/-! ## The memory port -/

/-- What a request changes: it is recorded and takes one answer of the port. -/
def State.issued (s : State) (r : Request) : State :=
  { s with requests := s.requests ++ [r], port := s.port.tail }

@[simp] theorem State.issued_regs (s : State) (r : Request) : (s.issued r).regs = s.regs := rfl
@[simp] theorem State.issued_flags (s : State) (r : Request) : (s.issued r).flags = s.flags := rfl
@[simp] theorem State.issued_mem (s : State) (r : Request) : (s.issued r).mem = s.mem := rfl
@[simp] theorem State.issued_pcRead (s : State) (r : Request) : (s.issued r).pcRead = s.pcRead := rfl
@[simp] theorem State.issued_presented (s : State) (r : Request) :
    (s.issued r).presented = s.presented := rfl
@[simp] theorem State.issued_port (s : State) (r : Request) : (s.issued r).port = s.port.tail := rfl
@[simp] theorem State.issued_params (s : State) (r : Request) : (s.issued r).params = s.params := rfl
@[simp] theorem State.issued_status (s : State) (r : Request) : (s.issued r).status = s.status := rfl
@[simp] theorem State.issued_requests (s : State) (r : Request) :
    (s.issued r).requests = s.requests ++ [r] := rfl

/-- R44, R45, R407: everything one request can do. -/
theorem issue_cases (r : Request) (s : State) :
    (r.mayIssue s.params.alignPolicy = false ∧
        issue r s = .error (raise (.alignmentFault r.addr) s)) ∨
      (r.mayIssue s.params.alignPolicy = true ∧ s.port.head? = some .abort ∧
        issue r s = .error (raise (.memAbort r.addr) (s.issued r))) ∨
      (r.mayIssue s.params.alignPolicy = true ∧ s.port.head? = some .silent ∧
        issue r s = .error (.fault (.portSilent r.addr))) ∨
      (r.mayIssue s.params.alignPolicy = true ∧
        (s.port.head? = none ∨ s.port.head? = some .served) ∧
        issue r s = .ok (none, s.issued r)) ∨
      (∃ d, r.mayIssue s.params.alignPolicy = true ∧ s.port.head? = some (.servedAs d) ∧
        issue r s = .ok (some d, s.issued r)) := by
  unfold issue
  cases hm : r.mayIssue s.params.alignPolicy with
  | false => exact .inl ⟨rfl, rfl⟩
  | true =>
    right
    cases hp : s.port.head? with
    | none => exact .inr (.inr (.inl ⟨rfl, .inl rfl, rfl⟩))
    | some a =>
      cases a with
      | served => exact .inr (.inr (.inl ⟨rfl, .inr rfl, rfl⟩))
      | servedAs d => exact .inr (.inr (.inr ⟨d, rfl, rfl, rfl⟩))
      | abort => exact .inl ⟨rfl, rfl, rfl⟩
      | silent => exact .inr (.inl ⟨rfl, rfl, rfl⟩)

/-- A request that succeeds. -/
theorem issue_ok {r : Request} {s s' : State} {d : Option Word} (h : issue r s = .ok (d, s')) :
    s' = s.issued r := by
  rcases issue_cases r s with ⟨-, e⟩ | ⟨-, -, e⟩ | ⟨-, -, e⟩ | ⟨-, -, e⟩ | ⟨d', -, -, e⟩ <;>
    rw [e] at h <;> simp_all

/-- A request that ends the operation: no register, flag or memory byte differs, or it faults. -/
theorem issue_error {r : Request} {s : State} {o : Result} (h : issue r s = .error o) :
    (∃ a, o = .fault (.portSilent a)) ∨
      ∃ t, o = .next t ∧ t.regs = s.regs ∧ t.flags = s.flags ∧ t.mem = s.mem ∧
        t.pcRead = s.pcRead ∧ t.presented = s.presented ∧ t.params = s.params ∧
        (t.status = some (.alignmentFault r.addr) ∨ t.status = some (.memAbort r.addr)) := by
  rcases issue_cases r s with ⟨-, e⟩ | ⟨-, -, e⟩ | ⟨-, -, e⟩ | ⟨-, -, e⟩ | ⟨d', -, -, e⟩
  · rw [e] at h
    exact .inr ⟨_, (Except.error.inj h).symm, rfl, rfl, rfl, rfl, rfl, rfl, .inl rfl⟩
  · rw [e] at h
    exact .inr ⟨_, (Except.error.inj h).symm, rfl, rfl, rfl, rfl, rfl, rfl, .inr rfl⟩
  · rw [e] at h
    exact .inl ⟨_, (Except.error.inj h).symm⟩
  · rw [e] at h; simp at h
  · rw [e] at h; simp at h

/-- A word write that succeeds. -/
theorem memWriteWord_ok {a v : Word} {s s' : State} (h : memWriteWord a v s = .ok s') :
    s' = { s.issued (.writeWord a v) with
      mem := s.mem.writeBytes a (bytesOfWord s.params.endian v) } := by
  unfold memWriteWord at h
  split at h
  · simp at h
  · next d s1 h1 =>
    have := issue_ok h1
    subst this
    exact (Except.ok.inj h).symm

/-- A halfword write that succeeds. -/
theorem memWriteHalf_ok {a : Word} {v : Half} {s s' : State} (h : memWriteHalf a v s = .ok s') :
    s' = { s.issued (.writeHalf a v) with
      mem := s.mem.writeBytes a (bytesOfHalf s.params.endian v) } := by
  unfold memWriteHalf at h
  split at h
  · simp at h
  · next d s1 h1 =>
    have := issue_ok h1
    subst this
    exact (Except.ok.inj h).symm

/-- A read that succeeds. -/
theorem memReadWord_ok {a d : Word} {u : Bool} {s s' : State}
    (h : memReadWord a u s = .ok (d, s')) : s' = s.issued (.readWord a u) := by
  unfold memReadWord at h
  split at h
  · simp at h
  · next d1 s1 h1 =>
    have := issue_ok h1
    subst this
    exact (Prod.ext_iff.1 (Except.ok.inj h)).2.symm
  · next s1 h1 =>
    have := issue_ok h1
    subst this
    exact (Prod.ext_iff.1 (Except.ok.inj h)).2.symm

/-- What a sequence of word writes leaves alone. -/
theorem memWriteWords_ok {vs : List Word} {a : Word} {s s' : State}
    (h : memWriteWords vs a s = .ok s') :
    s'.regs = s.regs ∧ s'.flags = s.flags ∧ s'.pcRead = s.pcRead ∧ s'.presented = s.presented ∧
      s'.params = s.params ∧ s'.status = s.status ∧
      (s.mem.wf = true → s'.mem.wf = true) := by
  induction vs generalizing a s with
  | nil =>
    cases Except.ok.inj h
    exact ⟨rfl, rfl, rfl, rfl, rfl, rfl, id⟩
  | cons v vs ih =>
    unfold memWriteWords at h
    split at h
    · simp at h
    · next s1 h1 =>
      have e := memWriteWord_ok h1
      subst e
      obtain ⟨h2, h3, h4, h5, h6, h7, h8⟩ := ih h
      exact ⟨h2, h3, h4, h5, h6, h7, fun hw => h8 (Memory.wf_writeBytes _ _ _ hw)⟩

/-- A write that ends the operation: no register or flag differs, or it faults. -/
theorem memWriteWords_error {vs : List Word} {a : Word} {s : State} {o : Result}
    (h : memWriteWords vs a s = .error o) :
    (∃ b, o = .fault (.portSilent b)) ∨
      ∃ t, o = .next t ∧ t.regs = s.regs ∧ t.flags = s.flags ∧ t.pcRead = s.pcRead ∧
        t.presented = s.presented ∧ t.params = s.params ∧
        (∃ b, t.status = some (.alignmentFault b) ∨ t.status = some (.memAbort b)) ∧
        (s.mem.wf = true → t.mem.wf = true) := by
  induction vs generalizing a s with
  | nil => simp [memWriteWords] at h
  | cons v vs ih =>
    unfold memWriteWords at h
    split at h
    · next o1 h1 =>
      cases Except.error.inj h
      unfold memWriteWord at h1
      split at h1
      · next o2 h2 =>
        cases Except.error.inj h1
        rcases issue_error h2 with h3 | ⟨t, rfl, e1, e2, e3, e4, e5, e6, e7⟩
        · exact .inl h3
        · exact .inr ⟨t, rfl, e1, e2, e4, e5, e6, ⟨_, e7⟩, fun hw => e3 ▸ hw⟩
      · simp at h1
    · next s1 h1 =>
      have e := memWriteWord_ok h1
      subst e
      rcases ih h with h3 | ⟨t, rfl, e1, e2, e4, e5, e6, e7, e8⟩
      · exact .inl h3
      · exact .inr ⟨t, rfl, e1, e2, e4, e5, e6, e7,
          fun hw => e8 (Memory.wf_writeBytes _ _ _ hw)⟩

/-- What ends a memory operation. -/
theorem afterRequests_cases (x : Except Result State) (commit : State → State) :
    (∃ o, x = .error o ∧ afterRequests x commit = o) ∨
      ∃ s, x = .ok s ∧ afterRequests x commit = (commit s).complete := by
  cases x with
  | error o => exact .inl ⟨o, rfl, rfl⟩
  | ok s => exact .inr ⟨s, rfl, rfl⟩

/-! ## Operands -/

/-- A shifter operand has a value exactly when everything it reads does. -/
theorem shifter_eq_none (s : State) (o : Op2) :
    shifter s o = none ↔ ∃ x ∈ op2Reads o, s.holds x = false := by
  cases o with
  | imm a b => simp [shifter, op2Reads]
  | regImm rm sh n => cases h : s.readReg rm <;> simp [shifter, op2Reads, State.holds, h]
  | regReg rm sh rs =>
    cases h : s.readReg rm <;> cases h' : s.readReg rs <;>
      simp [shifter, op2Reads, State.holds, h, h']
  | rrx rm =>
    cases h : s.readReg rm <;> cases h' : s.flags.c <;>
      simp [shifter, op2Reads, State.holds, Flags.get, h, h']

theorem off2Value_eq_none (s : State) (o : Off2) :
    off2Value s o = none ↔ ∃ x ∈ off2Reads o, s.holds x = false := by
  cases o with
  | imm a => simp [off2Value, off2Reads]
  | reg rm sh n => cases h : s.readReg rm <;> simp [off2Value, off2Reads, State.holds, h]

theorem off3Value_eq_none (s : State) (o : Off3) :
    off3Value s o = none ↔ ∃ x ∈ off3Reads o, s.holds x = false := by
  cases o with
  | imm a => simp [off3Value, off3Reads]
  | reg rm => cases h : s.readReg rm <;> simp [off3Value, off3Reads, State.holds, h]

@[simp] theorem shifter_begin (s : State) (o : Op2) : shifter s.begin o = shifter s o := by
  cases o <;> rfl

@[simp] theorem modeTwo_begin (s : State) (rn : Reg) (u : Bool) (idx : Index) (off : Off2) :
    modeTwo s.begin rn u idx off = modeTwo s rn u idx off := by
  cases off <;> rfl

@[simp] theorem modeThree_begin (s : State) (rn : Reg) (u : Bool) (idx : Index) (off : Off3) :
    modeThree s.begin rn u idx off = modeThree s rn u idx off := by
  cases off <;> rfl

@[simp] theorem readRegs_begin (s : State) (rs : List Reg) :
    s.begin.readRegs rs = s.readRegs rs := by
  induction rs with
  | nil => rfl
  | cons r rs ih => simp only [State.readRegs, ih, State.begin_readReg]

/-- R150: the fields of an access. -/
@[simp] theorem indexed_wb (base offset : Word) (u : Bool) (idx : Index) :
    (indexed base offset u idx).wb = writesBack idx := rfl

@[simp] theorem indexed_wbval (base offset : Word) (u : Bool) (idx : Index) :
    (indexed base offset u idx).wbval = if u then base + offset else base - offset := rfl

end Sys2Proof.Machine
end

