-- ==== Sys2Proof/Laws/PerInstr.lean ====
section
/-! SUPPORT. Laws stated for every operation, one lemma per constructor of `Instr`. -/

open Sys2Proof Sys2Proof.Safety

/-- R61, R84, R170: the word of an operation carries its condition suffix: `P` says whether there is one,
and `cond` is its number, or 0 without one. -/
def Sys2Proof.Laws.SuffixOfEncoding.Statement (i : Instr) : Prop :=
  suffixBit (encode i) = i.suffix.isSome ∧
    condField (encode i) = (match i.suffix with | none => 0 | some k => k.bits.toNat)

theorem Sys2Proof.Laws.suffixOfEncoding_of_fields (i : Instr)
    (hp : (encodeFields i).p = i.suffix.isSome)
    (hc : (encodeFields i).cond = (match i.suffix with | none => 0 | some k => k.bits)) :
    Sys2Proof.Laws.SuffixOfEncoding.Statement i := by
  have h := unpack_pack (encodeFields i)
  refine ⟨(congrArg Fields.p h).trans hp, ?_⟩
  refine (congrArg (fun f : Fields => f.cond.toNat) h).trans ?_
  rw [hc]
  cases i.suffix <;> rfl

namespace Sys2Proof.Laws

theorem SuffixOfEncoding.and : ∀ c s rd rn op2, SuffixOfEncoding.Statement (.and c s rd rn op2) := fun c s rd rn op2 =>
  suffixOfEncoding_of_fields _ (by cases c <;> cases op2 <;> rfl) (by cases c <;> cases op2 <;> rfl)

theorem SuffixOfEncoding.eor : ∀ c s rd rn op2, SuffixOfEncoding.Statement (.eor c s rd rn op2) := fun c s rd rn op2 =>
  suffixOfEncoding_of_fields _ (by cases c <;> cases op2 <;> rfl) (by cases c <;> cases op2 <;> rfl)

theorem SuffixOfEncoding.orr : ∀ c s rd rn op2, SuffixOfEncoding.Statement (.orr c s rd rn op2) := fun c s rd rn op2 =>
  suffixOfEncoding_of_fields _ (by cases c <;> cases op2 <;> rfl) (by cases c <;> cases op2 <;> rfl)

theorem SuffixOfEncoding.orn : ∀ c s rd rn op2, SuffixOfEncoding.Statement (.orn c s rd rn op2) := fun c s rd rn op2 =>
  suffixOfEncoding_of_fields _ (by cases c <;> cases op2 <;> rfl) (by cases c <;> cases op2 <;> rfl)

theorem SuffixOfEncoding.bic : ∀ c s rd rn op2, SuffixOfEncoding.Statement (.bic c s rd rn op2) := fun c s rd rn op2 =>
  suffixOfEncoding_of_fields _ (by cases c <;> cases op2 <;> rfl) (by cases c <;> cases op2 <;> rfl)

theorem SuffixOfEncoding.mov : ∀ c s rd op2, SuffixOfEncoding.Statement (.mov c s rd op2) := fun c s rd op2 =>
  suffixOfEncoding_of_fields _ (by cases c <;> cases op2 <;> rfl) (by cases c <;> cases op2 <;> rfl)

theorem SuffixOfEncoding.mvn : ∀ c s rd op2, SuffixOfEncoding.Statement (.mvn c s rd op2) := fun c s rd op2 =>
  suffixOfEncoding_of_fields _ (by cases c <;> cases op2 <;> rfl) (by cases c <;> cases op2 <;> rfl)

theorem SuffixOfEncoding.add : ∀ c s rd rn op2, SuffixOfEncoding.Statement (.add c s rd rn op2) := fun c s rd rn op2 =>
  suffixOfEncoding_of_fields _ (by cases c <;> cases op2 <;> rfl) (by cases c <;> cases op2 <;> rfl)

theorem SuffixOfEncoding.sub : ∀ c s rd rn op2, SuffixOfEncoding.Statement (.sub c s rd rn op2) := fun c s rd rn op2 =>
  suffixOfEncoding_of_fields _ (by cases c <;> cases op2 <;> rfl) (by cases c <;> cases op2 <;> rfl)

theorem SuffixOfEncoding.sbc : ∀ c s rd rn op2, SuffixOfEncoding.Statement (.sbc c s rd rn op2) := fun c s rd rn op2 =>
  suffixOfEncoding_of_fields _ (by cases c <;> cases op2 <;> rfl) (by cases c <;> cases op2 <;> rfl)

theorem SuffixOfEncoding.neg : ∀ c s rd rm, SuffixOfEncoding.Statement (.neg c s rd rm) := fun c s rd rm =>
  suffixOfEncoding_of_fields _ (by cases c <;> rfl) (by cases c <;> rfl)

theorem SuffixOfEncoding.cmp : ∀ c rn op2, SuffixOfEncoding.Statement (.cmp c rn op2) := fun c rn op2 =>
  suffixOfEncoding_of_fields _ (by cases c <;> cases op2 <;> rfl) (by cases c <;> cases op2 <;> rfl)

theorem SuffixOfEncoding.tst : ∀ c rn op2, SuffixOfEncoding.Statement (.tst c rn op2) := fun c rn op2 =>
  suffixOfEncoding_of_fields _ (by cases c <;> cases op2 <;> rfl) (by cases c <;> cases op2 <;> rfl)

theorem SuffixOfEncoding.qadd16 : ∀ c rd rn rm, SuffixOfEncoding.Statement (.qadd16 c rd rn rm) := fun c rd rn rm =>
  suffixOfEncoding_of_fields _ (by cases c <;> rfl) (by cases c <;> rfl)

theorem SuffixOfEncoding.qasx : ∀ c rd rn rm, SuffixOfEncoding.Statement (.qasx c rd rn rm) := fun c rd rn rm =>
  suffixOfEncoding_of_fields _ (by cases c <;> rfl) (by cases c <;> rfl)

theorem SuffixOfEncoding.uqsax : ∀ c rd rn rm, SuffixOfEncoding.Statement (.uqsax c rd rn rm) := fun c rd rn rm =>
  suffixOfEncoding_of_fields _ (by cases c <;> rfl) (by cases c <;> rfl)

theorem SuffixOfEncoding.uhasx : ∀ c rd rn rm, SuffixOfEncoding.Statement (.uhasx c rd rn rm) := fun c rd rn rm =>
  suffixOfEncoding_of_fields _ (by cases c <;> rfl) (by cases c <;> rfl)

theorem SuffixOfEncoding.uadd16 : ∀ c rd rn rm, SuffixOfEncoding.Statement (.uadd16 c rd rn rm) := fun c rd rn rm =>
  suffixOfEncoding_of_fields _ (by cases c <;> rfl) (by cases c <;> rfl)

theorem SuffixOfEncoding.shadd16 : ∀ c rd rn rm, SuffixOfEncoding.Statement (.shadd16 c rd rn rm) := fun c rd rn rm =>
  suffixOfEncoding_of_fields _ (by cases c <;> rfl) (by cases c <;> rfl)

theorem SuffixOfEncoding.uhsub8 : ∀ c rd rn rm, SuffixOfEncoding.Statement (.uhsub8 c rd rn rm) := fun c rd rn rm =>
  suffixOfEncoding_of_fields _ (by cases c <;> rfl) (by cases c <;> rfl)

theorem SuffixOfEncoding.mla : ∀ c s rd rn rm ra, SuffixOfEncoding.Statement (.mla c s rd rn rm ra) := fun c s rd rn rm ra =>
  suffixOfEncoding_of_fields _ (by cases c <;> rfl) (by cases c <;> rfl)

theorem SuffixOfEncoding.smull : ∀ c s rdLo rn rm rdHi, SuffixOfEncoding.Statement (.smull c s rdLo rn rm rdHi) := fun c s rdLo rn rm rdHi =>
  suffixOfEncoding_of_fields _ (by cases c <;> rfl) (by cases c <;> rfl)

theorem SuffixOfEncoding.umull : ∀ c s rdLo rn rm rdHi, SuffixOfEncoding.Statement (.umull c s rdLo rn rm rdHi) := fun c s rdLo rn rm rdHi =>
  suffixOfEncoding_of_fields _ (by cases c <;> rfl) (by cases c <;> rfl)

theorem SuffixOfEncoding.umaal : ∀ c rdLo rn rm rdHi, SuffixOfEncoding.Statement (.umaal c rdLo rn rm rdHi) := fun c rdLo rn rm rdHi =>
  suffixOfEncoding_of_fields _ (by cases c <;> rfl) (by cases c <;> rfl)

theorem SuffixOfEncoding.smmul : ∀ c rd rn rm, SuffixOfEncoding.Statement (.smmul c rd rn rm) := fun c rd rn rm =>
  suffixOfEncoding_of_fields _ (by cases c <;> rfl) (by cases c <;> rfl)

theorem SuffixOfEncoding.smmulr : ∀ c rd rn rm, SuffixOfEncoding.Statement (.smmulr c rd rn rm) := fun c rd rn rm =>
  suffixOfEncoding_of_fields _ (by cases c <;> rfl) (by cases c <;> rfl)

theorem SuffixOfEncoding.smulwb : ∀ c rd rn rm, SuffixOfEncoding.Statement (.smulwb c rd rn rm) := fun c rd rn rm =>
  suffixOfEncoding_of_fields _ (by cases c <;> rfl) (by cases c <;> rfl)

theorem SuffixOfEncoding.smulwt : ∀ c rd rn rm, SuffixOfEncoding.Statement (.smulwt c rd rn rm) := fun c rd rn rm =>
  suffixOfEncoding_of_fields _ (by cases c <;> rfl) (by cases c <;> rfl)

theorem SuffixOfEncoding.str : ∀ c rt rn u idx off, SuffixOfEncoding.Statement (.str c rt rn u idx off) := fun c rt rn u idx off =>
  suffixOfEncoding_of_fields _ (by cases c <;> cases off <;> rfl) (by cases c <;> cases off <;> rfl)

theorem SuffixOfEncoding.strh : ∀ c rt rn u idx off, SuffixOfEncoding.Statement (.strh c rt rn u idx off) := fun c rt rn u idx off =>
  suffixOfEncoding_of_fields _ (by cases c <;> cases off <;> rfl) (by cases c <;> cases off <;> rfl)

theorem SuffixOfEncoding.strd : ∀ c rt rn u idx off, SuffixOfEncoding.Statement (.strd c rt rn u idx off) := fun c rt rn u idx off =>
  suffixOfEncoding_of_fields _ (by cases c <;> cases off <;> rfl) (by cases c <;> cases off <;> rfl)

theorem SuffixOfEncoding.ldrt : ∀ c rt rn u off, SuffixOfEncoding.Statement (.ldrt c rt rn u off) := fun c rt rn u off =>
  suffixOfEncoding_of_fields _ (by cases c <;> cases off <;> rfl) (by cases c <;> cases off <;> rfl)

theorem SuffixOfEncoding.stm : ∀ c rn list am w, SuffixOfEncoding.Statement (.stm c rn list am w) := fun c rn list am w =>
  suffixOfEncoding_of_fields _ (by cases c <;> rfl) (by cases c <;> rfl)

theorem SuffixOfEncoding.sbfx : ∀ c rd rn lsb width, SuffixOfEncoding.Statement (.sbfx c rd rn lsb width) := fun c rd rn lsb width =>
  suffixOfEncoding_of_fields _ (by cases c <;> rfl) (by cases c <;> rfl)

theorem SuffixOfEncoding.bfc : ∀ c rd lsb width, SuffixOfEncoding.Statement (.bfc c rd lsb width) := fun c rd lsb width =>
  suffixOfEncoding_of_fields _ (by cases c <;> rfl) (by cases c <;> rfl)

theorem SuffixOfEncoding.bfi : ∀ c rd rn lsb width, SuffixOfEncoding.Statement (.bfi c rd rn lsb width) := fun c rd rn lsb width =>
  suffixOfEncoding_of_fields _ (by cases c <;> rfl) (by cases c <;> rfl)

theorem SuffixOfEncoding.movt : ∀ c rd imm16, SuffixOfEncoding.Statement (.movt c rd imm16) := fun c rd imm16 =>
  suffixOfEncoding_of_fields _ (by cases c <;> rfl) (by cases c <;> rfl)

theorem SuffixOfEncoding.ssat : ∀ c rd rn sh amount sat, SuffixOfEncoding.Statement (.ssat c rd rn sh amount sat) := fun c rd rn sh amount sat =>
  suffixOfEncoding_of_fields _ (by cases c <;> rfl) (by cases c <;> rfl)

theorem SuffixOfEncoding.usat : ∀ c rd rn sh amount sat, SuffixOfEncoding.Statement (.usat c rd rn sh amount sat) := fun c rd rn sh amount sat =>
  suffixOfEncoding_of_fields _ (by cases c <;> rfl) (by cases c <;> rfl)

theorem SuffixOfEncoding.rev : ∀ c rd rm, SuffixOfEncoding.Statement (.rev c rd rm) := fun c rd rm =>
  suffixOfEncoding_of_fields _ (by cases c <;> rfl) (by cases c <;> rfl)

theorem SuffixOfEncoding.revsh : ∀ c rd rm, SuffixOfEncoding.Statement (.revsh c rd rm) := fun c rd rm =>
  suffixOfEncoding_of_fields _ (by cases c <;> rfl) (by cases c <;> rfl)

theorem SuffixOfEncoding.rbit : ∀ c rd rm, SuffixOfEncoding.Statement (.rbit c rd rm) := fun c rd rm =>
  suffixOfEncoding_of_fields _ (by cases c <;> rfl) (by cases c <;> rfl)

end Sys2Proof.Laws
end

