-- ==== Sys2Proof/Machine/Names.lean ====
section
/-! DEFINITION. The names of spec/30_encoding.md R70, R88-R90 and spec/40_datapath_primitives.md R114:
register-name tokens, condition suffixes, the older names of operations, and the pseudo-instructions.
They belong to the decoder or assembler that builds an OPW; no step uses them. -/

namespace Sys2Proof.Machine

/-- R20, R114: `RegIndex(name)`; no other alias is accepted (spec/91_not_in_source.md N3). -/
def regIndex (name : String) : Option Reg :=
  match name with
  | "R0" => some 0
  | "R1" => some 1
  | "R2" => some 2
  | "R3" => some 3
  | "R4" => some 4
  | "R5" => some 5
  | "R6" => some 6
  | "R7" => some 7
  | "R8" => some 8
  | "R9" => some 9
  | "R10" => some 10
  | "R11" => some 11
  | "R12" => some 12
  | "R13" => some 13
  | "R14" => some 14
  | "R15" => some 15
  | "SP" => some 13
  | "LR" => some 14
  | "PC" => some 15
  | _ => none

/-- R70, R90: the condition of a suffix; CS = HS and CC = LO. -/
def condOfSuffix (name : String) : Option Cond :=
  match name with
  | "EQ" => some .eq
  | "NE" => some .ne
  | "CS" => some .cs
  | "HS" => some .cs
  | "CC" => some .cc
  | "LO" => some .cc
  | "MI" => some .mi
  | "PL" => some .pl
  | "VS" => some .vs
  | "VC" => some .vc
  | "HI" => some .hi
  | "LS" => some .ls
  | "GE" => some .ge
  | "LT" => some .lt
  | "GT" => some .gt
  | "LE" => some .le
  | "AL" => some .al
  | "NV" => some .nv
  | _ => none

/-- R90: the current name of an operation given by an older one. -/
def currentName (name : String) : String :=
  match name with
  | "QADDSUBX" => "QASX"
  | "UHADDSUBX" => "UHASX"
  | "UQSUBADDX" => "UQSAX"
  | other => other

/-- R90: `LSL|LSR|ASR|ROR Rd, Rm, #n` is MOV with that shift. -/
def shiftPseudo (c : Suffix) (s : Bool) (sh : ShiftKind) (rd rm : Reg) (n : BitVec 6) : Instr :=
  .mov c s rd (.regImm rm sh n)

/-- R90: `RRX Rd, Rm` is `MOV Rd, Rm, RRX`. -/
def rrxPseudo (c : Suffix) (s : Bool) (rd rm : Reg) : Instr := .mov c s rd (.rrx rm)

end Sys2Proof.Machine
end

