-- ==== Sys2Proof/Tests/Slice0.lean ====
section
/-! SUPPORT. The model's own tests. Expected values are those of spec/95_test_vectors.md or worked out by
hand from the rule named; every word is written from the field layout of spec/30_encoding.md R61. The
last part gives, for each statement with hypotheses, a state and operands that meet them (`witness_`). -/

namespace Sys2Proof.Tests

open Sys2Proof Sys2Proof.Machine Sys2Proof.Safety

/-! ## Helpers -/

/-- No flag holds a value. -/
def noFlags : Flags :=
  { n := none, z := none, c := none, v := none, q := none, t := none,
    ge0 := none, ge1 := none, ge2 := none, ge3 := none }

def nzcv (n z c v : Option Bool) : Flags := { noFlags with n, z, c, v }

/-- Only these registers hold a value; no `PC_READ_VALUE`; memory of zeros. -/
def start (rs : List (Reg × Word)) (f : Flags) : State :=
  { State.reset with
    regs := rs.foldl (fun g w => g.set w.1.val (some w.2) w.1.isLt) (Vector.replicate 16 none)
    flags := f
    pcRead := none }

/-- The state after one step on this word. -/
def stepped (w : Nat) (s : State) : Option State :=
  match step (s.withFetchWord 64 w) with
  | .next t => some t
  | .fault _ => none
  | .refused _ => none

/-- One step on this word ends with this status, these registers and exactly these flags. -/
def ends (w : Nat) (s : State) (st : Status) (rs : List (Reg × Word)) (f : Flags) : Bool :=
  match stepped w s with
  | some t => t.status == some st && rs.all (fun p => t.regs[p.1.val] == some p.2) && t.flags == f
  | none => false

/-- One step on this word ends with this status and no register changed. -/
def endsWith (w : Nat) (s : State) (st : Status) : Bool :=
  match stepped w s with
  | some t => t.status == some st && t.regs == s.regs
  | none => false

/-- One step on this word stops the run. -/
def stops (w : Nat) (s : State) (f : Fault) : Bool :=
  match step (s.withFetchWord 64 w) with
  | .next _ => false
  | .fault g => g == f
  | .refused _ => false

/-- The bytes at an address after one step on this word with these answers of the port. -/
def storedAt (w : Nat) (s : State) (port : List PortAnswer) (a n : Nat) : List Byte :=
  match stepped w { s with port } with
  | some t => (List.range n).map fun k => t.mem.read (a + k)
  | none => []

/-! ## Well-formedness: each check refuses an ill-formed term -/

theorem test_wf_lsl_amount :
    (Instr.mov none false 0 (.regImm 1 .lsl 32)).wf = false ∧
    (Instr.mov none false 0 (.regImm 1 .lsl 31)).wf = true := by decide

theorem test_wf_lsr_amount :
    (Instr.cmp none 0 (.regImm 1 .lsr 33)).wf = false ∧
    (Instr.cmp none 0 (.regImm 1 .lsr 32)).wf = true := by decide

theorem test_wf_asr_amount :
    (Instr.str none 0 1 true .offset (.reg 2 .asr 33)).wf = false ∧
    (Instr.str none 0 1 true .offset (.reg 2 .asr 32)).wf = true := by decide

theorem test_wf_ror_amount :
    (Instr.ldrt none 0 1 true (.reg 2 .ror 32)).wf = false ∧
    (Instr.ldrt none 0 1 true (.reg 2 .ror 31)).wf = true := by decide

theorem test_wf_saturate_shift :
    (Instr.ssat none 0 1 .lsl 32 8).wf = false ∧ (Instr.ssat none 0 1 .lsl 31 8).wf = true ∧
    (Instr.usat none 0 1 .asr 33 8).wf = false ∧ (Instr.usat none 0 1 .asr 32 8).wf = true := by decide

theorem test_wf_saturate_width :
    (Instr.ssat none 0 1 .lsl 0 0).wf = false ∧ (Instr.ssat none 0 1 .lsl 0 1).wf = true ∧
    (Instr.usat none 0 1 .lsl 0 33).wf = false ∧ (Instr.usat none 0 1 .lsl 0 32).wf = true := by decide

theorem test_refused_by_policy :
    Instr.refusedBy { Config.specParams with pcFlagset := .refuse } (.add none true 15 1 (.imm 1 0)) = true ∧
    Instr.refusedBy Config.specParams (.add none true 15 1 (.imm 1 0)) = false := by decide

/-! ## Decoding: words the decoder refuses, by name -/

/-- R82. -/
theorem test_decode_refuses_reserved :
    decode 0x01A0000000000000 = .error .reservedOpc ∧
    decode 0x02E0000000000000 = .error .reservedOpc ∧
    decode 0x04E0000000000000 = .error .reservedOpc ∧
    decode 0x0660000000000000 = .error .reservedOpc ∧
    decode 0x07E0000000000000 = .error .reservedOpc := by decide

/-- R83. -/
theorem test_decode_refuses_unused_field :
    decode 0x0000001000000000 = .error .unusedField ∧
    decode 0x0000010000000000 = .error .unusedField ∧
    decode 0x0200000000000001 = .error .unusedField ∧
    decode 0x0600100000000000 = .error .unusedField ∧
    decode 0x0481000000000000 = .error .unusedField := by decide

/-- R84. -/
theorem test_decode_refuses_flag_bit :
    decode 0x0210000000000000 = .error .flagBit ∧
    decode 0x0370000000000000 = .error .flagBit ∧
    decode 0x0160000100000000 = .error .flagBit ∧
    decode 0x10E0110100000000 = .error .condWithoutSuffix := by decide

/-- R85. -/
theorem test_decode_refuses_ranges :
    decode 0x0000000300000000 = .error .form ∧
    decode 0x0400000280000000 = .error .form ∧
    decode 0x0580000500000800 = .error .form ∧
    decode 0x0460100080000004 = .error .indexMode ∧
    decode 0x0400000060000000 = .error .indexMode ∧
    decode 0x0000000100000020 = .error .shiftAmount ∧
    decode 0x0000000500000021 = .error .shiftAmount ∧
    decode 0x05A0100100000000 = .error .satWidth ∧
    decode 0x0580000100002100 = .error .satWidth := by decide

/-- R86. -/
theorem test_decode_refuses_register_fields :
    decode 0x00A0100100000000 = .error .registerField ∧
    decode 0x0171000100000000 = .error .registerField ∧
    decode 0x0140100100000000 = .error .registerField ∧
    decode 0x0380001000000000 = .error .registerField := by decide

/-! ## Decoding: every operation, word by word -/

/-- R62, R80: every operation of format DP, and every form and shift kind. -/
theorem test_decode_dp :
    decode 0x08012000000003A5 = .ok (.and (some .eq) false 1 2 (.imm 0xA5 3)) ∧
    decode 0x183123010000001F = .ok (.eor (some .ne) true 1 2 (.regImm 3 .lsl 31)) ∧
    decode 0x2841230500000020 = .ok (.orr (some .cs) false 1 2 (.regImm 3 .lsr 32)) ∧
    decode 0x3871230900000020 = .ok (.orn (some .cc) true 1 2 (.regImm 3 .asr 32)) ∧
    decode 0x4881230D0000001F = .ok (.bic (some .mi) false 1 2 (.regImm 3 .ror 31)) ∧
    decode 0x58F1234A00000000 = .ok (.add (some .pl) true 1 2 (.regReg 3 .asr 4)) ∧
    decode 0x6901234E00000000 = .ok (.sub (some .vs) false 1 2 (.regReg 3 .ror 4)) ∧
    decode 0x7931230F00000000 = .ok (.sbc (some .vc) true 1 2 (.rrx 3)) ∧
    decode 0x88A10000000003A5 = .ok (.mov (some .hi) false 1 (.imm 0xA5 3)) ∧
    decode 0x98D1030900000020 = .ok (.mvn (some .ls) true 1 (.regImm 3 .asr 32)) ∧
    decode 0xC951030100000000 = .ok (.neg (some .gt) true 1 3) ∧
    decode 0xB970234600000000 = .ok (.cmp (some .lt) 2 (.regReg 3 .lsr 4)) ∧
    decode 0xA990200000000FFF = .ok (.tst (some .ge) 2 (.imm 0xFF 15)) := by decide

/-- R63. -/
theorem test_decode_pk :
    decode 0x0A01230000000000 = .ok (.qadd16 (some .eq) 1 2 3) ∧
    decode 0x1A21230000000000 = .ok (.qasx (some .ne) 1 2 3) ∧
    decode 0x2A41230000000000 = .ok (.uqsax (some .cs) 1 2 3) ∧
    decode 0x3A61230000000000 = .ok (.uhasx (some .cc) 1 2 3) ∧
    decode 0x4A81230000000000 = .ok (.uadd16 (some .mi) 1 2 3) ∧
    decode 0x5AA1230000000000 = .ok (.shadd16 (some .pl) 1 2 3) ∧
    decode 0x6AC1230000000000 = .ok (.uhsub8 (some .vs) 1 2 3) := by decide

/-- R64. -/
theorem test_decode_mul :
    decode 0xFB11234000000000 = .ok (.mla (some .nv) true 1 2 3 4) ∧
    decode 0xEB31234000000000 = .ok (.smull (some .al) true 1 2 3 4) ∧
    decode 0xDB51234000000000 = .ok (.umull (some .le) true 1 2 3 4) ∧
    decode 0x0361234000000000 = .ok (.umaal none 1 2 3 4) ∧
    decode 0x3B81230000000000 = .ok (.smmul (some .cc) 1 2 3) ∧
    decode 0x4BA1230000000000 = .ok (.smmulr (some .mi) 1 2 3) ∧
    decode 0x5BC1230000000000 = .ok (.smulwb (some .pl) 1 2 3) ∧
    decode 0x6BE1230000000000 = .ok (.smulwt (some .vs) 1 2 3) := by decide

/-- R65-R67: every index mode and sub-mode. -/
theorem test_decode_memory :
    decode 0x0401230920000020 = .ok (.str none 1 2 false .pre (.reg 3 .asr 32)) ∧
    decode 0x04012000C0000ABC = .ok (.str none 1 2 true .post (.imm 0xABC)) ∧
    decode 0x2C212000800000AB = .ok (.strh (some .cs) 1 2 true .offset (.imm 0xAB)) ∧
    decode 0x0421230140000000 = .ok (.strh none 1 2 false .post (.reg 3)) ∧
    decode 0x04442301A0000000 = .ok (.strd none 4 2 true .pre (.reg 3)) ∧
    decode 0x0461230D4000001F = .ok (.ldrt none 1 2 false (.reg 3 .ror 31)) ∧
    decode 0x0480200000048001 = .ok (.stm none 2 0x8001 .ia true) ∧
    decode 0x0480200000010002 = .ok (.stm none 2 0x0002 .ib false) ∧
    decode 0x0480200000020010 = .ok (.stm none 2 0x0010 .da false) ∧
    decode 0x048020000007FFFB = .ok (.stm none 2 0xFFFB .db true) := by decide

/-- R68, R69. -/
theorem test_decode_bits :
    decode 0x0501200000003F1F = .ok (.sbfx none 1 2 31 63) ∧
    decode 0x1D21000000002005 = .ok (.bfc (some .ne) 1 5 32) ∧
    decode 0x0541200000000110 = .ok (.bfi none 1 2 16 1) ∧
    decode 0x056100000000BEEF = .ok (.movt none 1 0xBEEF) ∧
    decode 0x0581200900002020 = .ok (.ssat none 1 2 .asr 32 32) ∧
    decode 0x05A120010000011F = .ok (.usat none 1 2 .lsl 31 1) ∧
    decode 0x0601030000000000 = .ok (.rev none 1 3) ∧
    decode 0xEE21030000000000 = .ok (.revsh (some .al) 1 3) ∧
    decode 0xFE41030000000000 = .ok (.rbit (some .nv) 1 3) := by decide

/-- The table's numbering: one 64-bit word; a shorter one has zeros above. -/
theorem test_table_word :
    decodeTableWord 64 0x0880120100000000 = some (.bic (some .eq) false 0 1 (.regImm 2 .lsl 0)) ∧
    decodeTableWord 64 0x01A0000000000000 = none ∧
    decodeTableWord 32 0x0880120100000FFF = some (.and none false 0 0 (.imm 0xFF 15)) := by decide

/-! ## Names -/

/-- R20, R70, R90, R114. -/
theorem test_names :
    regIndex "SP" = some 13 ∧ regIndex "R7" = some 7 ∧ regIndex "R16" = none ∧
    condOfSuffix "HS" = some .cs ∧ currentName "UQSUBADDX" = "UQSAX" ∧
    encode (shiftPseudo none false .lsr 0 1 32) = 0x00A0010500000020 ∧
    encode (rrxPseudo none true 0 1) = 0x00B0010F00000000 := by decide

/-! ## One step of each operation -/

/-- spec/95_test_vectors.md section 2.2. -/
theorem test_and :
    ends 0x00101000000004FF (start [(1, 0x80000000)] (nzcv none none none (some true))) .ok [(0, 0x80000000)] (nzcv (some true) (some false) (some true) (some true)) = true ∧
    ends 0x0010100000000001 (start [(1, 0x3)] (nzcv none none (some false) none)) .ok [(0, 0x1)] (nzcv (some false) (some false) (some false) none) = true := by decide

/-- spec/95_test_vectors.md section 2.2. -/
theorem test_eor :
    ends 0x0030110100000000 (start [(1, 0x12345678)] (nzcv none none (some true) (some false))) .ok [(0, 0x0), (1, 0x12345678)] (nzcv (some false) (some true) (some true) (some false)) = true := by decide

/-- R194, R195, by hand: OR with the operand, and with its complement. -/
theorem test_orr_orn :
    ends 0x0040120100000000 (start [(1, 0xF0), (2, 0xF)] noFlags) .ok [(0, 0xFF)] noFlags = true ∧
    ends 0x0060120100000000 (start [(1, 0xF0), (2, 0xFFFFFF0F)] noFlags) .ok [(0, 0xF0)] noFlags = true := by decide

/-- spec/95_test_vectors.md section 1, E4. -/
theorem test_bic :
    ends 0x0880120100000000 (start [(0, 0x11111111), (1, 0xFFFFFFFF), (2, 0xFF00)] (nzcv none (some false) none none)) .skipped [(0, 0x11111111)] (nzcv none (some false) none none) = true ∧
    ends 0x0880120100000000 (start [(0, 0x11111111), (1, 0xFFFFFFFF), (2, 0xFF00)] (nzcv none (some true) none none)) .ok [(0, 0xFFFF00FF)] (nzcv none (some true) none none) = true ∧
    ends 0x0880120100000000 (start [(0, 0x11111111), (1, 0xFFFFFFFF), (2, 0xFF00)] noFlags) (.unwrittenRead [.flag .z]) [(0, 0x11111111)] noFlags = true ∧
    ends 0x0080120100000000 (start [(0, 0x11111111), (1, 0xFFFFFFFF), (2, 0xFF00)] noFlags) .ok [(0, 0xFFFF00FF)] noFlags = true := by decide

/-- spec/95_test_vectors.md section 1, E5, and section 2.2. -/
theorem test_mov :
    ends 0x00A1020100000000 (start [(1, 0x5), (2, 0x80000000)] (nzcv (some false) (some true) (some true) (some false))) .ok [(1, 0x80000000)] (nzcv (some false) (some true) (some true) (some false)) = true ∧
    ends 0x00B1020100000000 (start [(1, 0x80000000), (2, 0x80000000)] (nzcv (some false) (some true) (some true) (some false))) .ok [(1, 0x80000000)] (nzcv (some true) (some false) (some true) (some false)) = true ∧
    ends 0x00B0010F00000000 (start [(1, 0x1)] (nzcv none none (some false) none)) .ok [(0, 0x0)] (nzcv (some false) (some true) (some true) none) = true := by decide

/-- spec/95_test_vectors.md section 2.2. -/
theorem test_mvn :
    ends 0x00D0010100000000 (start [(1, 0x0)] noFlags) .ok [(0, 0xFFFFFFFF)] (nzcv (some true) (some false) none none) = true := by decide

/-- spec/95_test_vectors.md section 2.2. -/
theorem test_add :
    ends 0x00F0120100000000 (start [(1, 0xFFFFFFFF), (2, 0x1)] noFlags) .ok [(0, 0x0)] (nzcv (some false) (some true) (some true) (some false)) = true ∧
    ends 0x00F0120100000000 (start [(1, 0x7FFFFFFF), (2, 0x1)] noFlags) .ok [(0, 0x80000000)] (nzcv (some true) (some false) (some false) (some true)) = true ∧
    ends 0x00E0000100000000 (start [(0, 0x40000000)] noFlags) .ok [(0, 0x80000000)] noFlags = true ∧
    ends 0x00FF120100000000 (start [(1, 0x1), (2, 0x2)] noFlags) .ok [(15, 0x3)] (nzcv (some false) (some false) (some false) (some false)) = true := by decide

/-- spec/95_test_vectors.md section 1, E1, and section 2.2. -/
theorem test_sub :
    ends 0x0110000100000000 (start [(0, 0x12345678)] noFlags) .ok [(0, 0x0)] (nzcv (some false) (some true) (some true) (some false)) = true ∧
    ends 0x0110120100000000 (start [(1, 0x0), (2, 0x1)] noFlags) .ok [(0, 0xFFFFFFFF)] (nzcv (some true) (some false) (some false) (some false)) = true ∧
    ends 0x0110120100000000 (start [(1, 0x80000000), (2, 0x1)] noFlags) .ok [(0, 0x7FFFFFFF)] (nzcv (some false) (some false) (some true) (some true)) = true := by decide

/-- spec/95_test_vectors.md section 2.2. -/
theorem test_sbc :
    ends 0x0130120100000000 (start [(1, 0x5), (2, 0x3)] (nzcv none none (some false) none)) .ok [(0, 0x1)] (nzcv (some false) (some false) (some true) (some false)) = true ∧
    ends 0x0130120100000000 (start [(1, 0x0), (2, 0x0)] (nzcv none none (some false) none)) .ok [(0, 0xFFFFFFFF)] (nzcv (some true) (some false) (some false) (some false)) = true ∧
    ends 0x0120120100000000 (start [(1, 0x0), (2, 0x0)] noFlags) (.unwrittenRead [.flag .c]) [] noFlags = true := by decide

/-- spec/95_test_vectors.md section 2.2. -/
theorem test_neg :
    ends 0x0150010100000000 (start [(1, 0x0)] noFlags) .ok [(0, 0x0)] (nzcv (some false) (some true) (some true) (some false)) = true ∧
    ends 0x0150010100000000 (start [(1, 0x80000000)] noFlags) .ok [(0, 0x80000000)] (nzcv (some true) (some false) (some false) (some true)) = true := by decide

/-- spec/95_test_vectors.md section 2.3. -/
theorem test_cmp :
    ends 0x0170010100000000 (start [(0, 0x3), (1, 0x5)] noFlags) .ok [(0, 0x3), (1, 0x5)] (nzcv (some true) (some false) (some false) (some false)) = true ∧
    ends 0x0170010100000000 (start [(0, 0x80000000), (1, 0x1)] noFlags) .ok [] (nzcv (some false) (some false) (some true) (some true)) = true := by decide

/-- spec/95_test_vectors.md section 2.3. -/
theorem test_tst :
    ends 0x0190100000000080 (start [(1, 0x80)] (nzcv none none (some true) none)) .ok [(1, 0x80)] (nzcv (some false) (some false) (some true) none) = true ∧
    ends 0x01901000000004FF (start [(1, 0x80000000)] noFlags) .ok [(1, 0x80000000)] (nzcv (some true) (some false) (some true) none) = true := by decide

/-- spec/95_test_vectors.md section 1, E2, and section 2.5. -/
theorem test_qadd16 :
    ends 0x0200120000000000 (start [(1, 0x7FFF0001), (2, 0x10001)] { noFlags with q := some false }) .ok [(0, 0x7FFF0002)] { noFlags with q := some true } = true ∧
    ends 0x0200120000000000 (start [(1, 0x10001), (2, 0x10001)] { noFlags with q := some true }) .ok [(0, 0x20002)] { noFlags with q := some true } = true ∧
    ends 0x0200120000000000 (start [(1, 0x80000001), (2, 0xFFFF0001)] { noFlags with q := some false }) .ok [(0, 0x80000002)] { noFlags with q := some true } = true ∧
    stops 0x0200F10000000000 (start [] noFlags) (.unknownEffect 0x10) = true := by decide

/-- spec/95_test_vectors.md section 2.5. -/
theorem test_qasx :
    ends 0x0220120000000000 (start [(1, 0x50003), (2, 0x10002)] { noFlags with q := some false }) .ok [(0, 0x70002)] { noFlags with q := some false } = true ∧
    ends 0x0220120000000000 (start [(1, 0x7FFF8000), (2, 0x10001)] { noFlags with q := some false }) .ok [(0, 0x7FFF8000)] { noFlags with q := some true } = true := by decide

/-- spec/95_test_vectors.md section 2.5. -/
theorem test_uqsax :
    ends 0x0240120000000000 (start [(1, 0x50003), (2, 0x10002)] { noFlags with q := some false }) .ok [(0, 0x30004)] { noFlags with q := some false } = true ∧
    ends 0x0240120000000000 (start [(1, 0x1FFFF), (2, 0x20001)] { noFlags with q := some false }) .ok [(0, 0xFFFF)] { noFlags with q := some true } = true := by decide

/-- spec/95_test_vectors.md section 2.5. -/
theorem test_uhasx :
    ends 0x0260120000000000 (start [(1, 0x50003), (2, 0x10002)] noFlags) .ok [(0, 0x30001)] noFlags = true ∧
    ends 0x0260120000000000 (start [(1, 0x0), (2, 0x10000)] noFlags) .ok [(0, 0xFFFF)] noFlags = true := by decide

/-- spec/95_test_vectors.md section 2.5. -/
theorem test_uadd16 :
    ends 0x0280120000000000 (start [(1, 0xFFFF0001), (2, 0x10001)] noFlags) .ok [(0, 0x2)] { noFlags with ge3 := some true, ge2 := some true, ge1 := some false, ge0 := some false } = true ∧
    ends 0x0280120000000000 (start [(1, 0x8000FFFF), (2, 0x80000001)] noFlags) .ok [(0, 0x0)] { noFlags with ge3 := some true, ge2 := some true, ge1 := some true, ge0 := some true } = true := by decide

/-- spec/95_test_vectors.md section 2.5. -/
theorem test_shadd16 :
    ends 0x02A0120000000000 (start [(1, 0x7FFF8000), (2, 0x7FFF8000)] noFlags) .ok [(0, 0x7FFF8000)] noFlags = true ∧
    ends 0x02A0120000000000 (start [(1, 0x10001), (2, 0x0)] noFlags) .ok [(0, 0x0)] noFlags = true := by decide

/-- spec/95_test_vectors.md section 2.5. -/
theorem test_uhsub8 :
    ends 0x02C0120000000000 (start [(1, 0xFF0203), (2, 0xFF000301)] noFlags) .ok [(0, 0x807FFF01)] noFlags = true ∧
    ends 0x02C0120000000000 (start [(1, 0x0), (2, 0xFFFFFFFF)] noFlags) .ok [(0, 0x80808080)] noFlags = true := by decide

/-- spec/95_test_vectors.md section 2.6. -/
theorem test_mla :
    ends 0x0300231000000000 (start [(2, 0x3), (3, 0x4), (1, 0x5)] noFlags) .ok [(0, 0x11)] noFlags = true ∧
    ends 0x0310231000000000 (start [(2, 0x80000000), (3, 0x2), (1, 0x0)] (nzcv none none (some true) (some true))) .ok [(0, 0x0)] (nzcv (some false) (some true) (some true) (some true)) = true := by decide

/-- spec/95_test_vectors.md section 2.6. -/
theorem test_smull :
    ends 0x0320231000000000 (start [(2, 0xFFFFFFFF), (3, 0xFFFFFFFF)] noFlags) .ok [(0, 0x1), (1, 0x0)] noFlags = true ∧
    ends 0x0330231000000000 (start [(2, 0xFFFFFFFE), (3, 0x3)] noFlags) .ok [(0, 0xFFFFFFFA), (1, 0xFFFFFFFF)] (nzcv (some true) (some false) none none) = true ∧
    stops 0x0320120000000000 (start [] noFlags) (.unknownEffect 0x19) = true := by decide

/-- spec/95_test_vectors.md section 2.6. -/
theorem test_umull :
    ends 0x0340231000000000 (start [(2, 0x10000), (3, 0x10000)] noFlags) .ok [(0, 0x0), (1, 0x1)] noFlags = true ∧
    ends 0x0340231000000000 (start [(2, 0xFFFFFFFF), (3, 0xFFFFFFFF)] noFlags) .ok [(0, 0x1), (1, 0xFFFFFFFE)] noFlags = true := by decide

/-- spec/95_test_vectors.md section 2.6. -/
theorem test_umaal :
    ends 0x0360231000000000 (start [(0, 0xFFFFFFFF), (1, 0xFFFFFFFF), (2, 0xFFFFFFFF), (3, 0xFFFFFFFF)] noFlags) .ok [(0, 0xFFFFFFFF), (1, 0xFFFFFFFF)] noFlags = true ∧
    ends 0x0360231000000000 (start [(2, 0x2), (3, 0x3), (0, 0x4), (1, 0x5)] noFlags) .ok [(0, 0xF), (1, 0x0)] noFlags = true := by decide

/-- spec/95_test_vectors.md section 2.6. -/
theorem test_smmul :
    ends 0x0380120000000000 (start [(1, 0x40000000), (2, 0x40000000)] noFlags) .ok [(0, 0x10000000)] noFlags = true ∧
    ends 0x0380120000000000 (start [(1, 0xFFFFFFFF), (2, 0xFFFFFFFF)] noFlags) .ok [(0, 0x0)] noFlags = true := by decide

/-- spec/95_test_vectors.md section 2.6. -/
theorem test_smmulr :
    ends 0x03A0120000000000 (start [(1, 0x10000), (2, 0x8000)] noFlags) .ok [(0, 0x1)] noFlags = true ∧
    ends 0x03A0120000000000 (start [(1, 0xFFFFFFFF), (2, 0xFFFFFFFF)] noFlags) .ok [(0, 0x0)] noFlags = true := by decide

/-- spec/95_test_vectors.md section 2.6. -/
theorem test_smulwb :
    ends 0x03C0120000000000 (start [(1, 0x7FFFFFFF), (2, 0x7FFF)] noFlags) .ok [(0, 0x3FFF7FFF)] noFlags = true ∧
    ends 0x03C0120000000000 (start [(1, 0x80000000), (2, 0x8000)] { noFlags with q := some false }) .ok [(0, 0x40000000)] { noFlags with q := some false } = true := by decide

/-- spec/95_test_vectors.md section 2.6. -/
theorem test_smulwt :
    ends 0x03E0120000000000 (start [(1, 0x30000), (2, 0xFFFF0004)] noFlags) .ok [(0, 0xFFFFFFFD)] noFlags = true := by decide

/-- spec/95_test_vectors.md section 2.7. -/
theorem test_str :
    ends 0x04012000A0000004 (start [(1, 0xAABBCCDD), (2, 0x1000)] noFlags) .ok [(2, 0x1004)] noFlags = true ∧
    storedAt 0x04012000A0000004 (start [(1, 0xAABBCCDD), (2, 0x1000)] noFlags) [] 0x1004 4 = [0xDD, 0xCC, 0xBB, 0xAA] ∧
    ends 0x0401200040000004 (start [(1, 0xAABBCCDD), (2, 0x0)] noFlags) .ok [(2, 0xFFFFFFFC)] noFlags = true ∧
    ends 0x0401200080000002 (start [(1, 0xAABBCCDD), (2, 0x1000)] noFlags) (.alignmentFault 0x1002) [(2, 0x1000)] noFlags = true := by decide

/-- spec/95_test_vectors.md section 2.7. -/
theorem test_str_register_offset :
    storedAt 0x0401230180000002 (start [(1, 0xAABBCCDD), (2, 0x1000), (3, 0x3)] noFlags) [] 0x100C 4 = [0xDD, 0xCC, 0xBB, 0xAA] := by decide

/-- spec/95_test_vectors.md section 2.7. -/
theorem test_strh :
    storedAt 0x0421200080000002 (start [(1, 0xAABBCCDD), (2, 0x1000)] noFlags) [] 0x1001 4 = [0x00, 0xDD, 0xCC, 0x00] ∧
    ends 0x0421200080000001 (start [(1, 0xAABBCCDD), (2, 0x1000)] noFlags) (.alignmentFault 0x1001) [] noFlags = true ∧
    ends 0x0421200080000001 (start [(2, 0x1000)] noFlags) (.unwrittenRead [.reg 1]) [] noFlags = true := by decide

/-- spec/95_test_vectors.md section 2.7. -/
theorem test_strd :
    storedAt 0x0444200080000008 (start [(4, 0x11111111), (5, 0x22222222), (2, 0x1000)] noFlags) [] 0x1008 8 = [0x11, 0x11, 0x11, 0x11, 0x22, 0x22, 0x22, 0x22] ∧
    storedAt 0x0444200080000000 (start [(4, 0x11111111), (5, 0x22222222), (2, 0x1000)] noFlags) [.served, .abort] 0x1000 8 = [0x11, 0x11, 0x11, 0x11, 0x00, 0x00, 0x00, 0x00] ∧
    stops 0x0443200080000000 (start [] noFlags) (.unknownEffect 0x22) = true := by decide

/-- spec/95_test_vectors.md section 2.7. -/
theorem test_strd_abort :
    endsWith 0x0444200080000000 { start [(4, 0x11111111), (5, 0x22222222), (2, 0x1000)] noFlags with port := [.served, .abort] } (.memAbort 0x1004) = true := by decide

/-- spec/95_test_vectors.md section 2.7. -/
theorem test_ldrt :
    (stepped 0x04601000C0000004 { start [(1, 0x2000)] noFlags with port := [.servedAs 0xCAFEF00D] }).map (fun t =>
      (t.regs[0], t.regs[1], t.requests)) =
    some (some 0xCAFEF00D, some 0x2004, [.readWord 0x2000 true]) ∧
    (stepped 0x04661000C0000004 { start [(1, 0x2000)] noFlags with
      mem := [(0x2000, 0x0D), (0x2001, 0xF0), (0x2002, 0xFE), (0x2003, 0xCA)] }).map (fun t => t.regs[6]) =
    some (some 0xCAFEF00D) ∧
    ends 0x0460100080000004 (start [(1, 0x0)] noFlags) (.illegal 0x0460100080000004) [] noFlags = true := by decide

/-- spec/95_test_vectors.md section 2.7. -/
theorem test_stm :
    ends 0x0480D00000074030 (start [(4, 0x11111111), (5, 0x22222222), (13, 0x8000), (14, 0x33333333)] noFlags) .ok [(13, 0x7FF4)] noFlags = true ∧
    storedAt 0x0480D00000074030 (start [(4, 0x11111111), (5, 0x22222222), (13, 0x8000), (14, 0x33333333)] noFlags) [] 0x7FF4 12 = [0x11, 0x11, 0x11, 0x11, 0x22, 0x22, 0x22, 0x22, 0x33, 0x33, 0x33, 0x33] ∧
    ends 0x0480000000060006 (start [(0, 0x100), (1, 0x44444444), (2, 0x55555555)] noFlags) .ok [(0, 0xF8)] noFlags = true ∧
    storedAt 0x0480000000060006 (start [(0, 0x100), (1, 0x44444444), (2, 0x55555555)] noFlags) [] 0xFC 8 = [0x44, 0x44, 0x44, 0x44, 0x55, 0x55, 0x55, 0x55] := by decide

/-- spec/95_test_vectors.md sections 2.7 and 2.11. -/
theorem test_stm_faults :
    storedAt 0x048000000004000E (start [(0, 0x100), (1, 0x11111111), (2, 0x22222222), (3, 0x33333333)] noFlags) [.served, .abort] 0x100 8 = [0x11, 0x11, 0x11, 0x11, 0x00, 0x00, 0x00, 0x00] ∧
    ends 0x0480000000040006 (start [(0, 0x101), (1, 0x0), (2, 0x0)] noFlags) (.alignmentFault 0x101) [(0, 0x101)] noFlags = true ∧
    stops 0x0480000000040003 (start [] noFlags) (.unknownEffect 0x24) = true ∧
    stops 0x0480000000000000 (start [] noFlags) (.unknownEffect 0x24) = true := by decide

/-- spec/95_test_vectors.md sections 1, E3, and 2.8. -/
theorem test_sbfx :
    ends 0x0502000000000404 (start [(0, 0xB0)] noFlags) .ok [(2, 0xFFFFFFFB)] noFlags = true ∧
    ends 0x0502000000002000 (start [(0, 0x12345678)] noFlags) .ok [(2, 0x12345678)] noFlags = true ∧
    ends 0x050200000000011F (start [(0, 0x80000000)] noFlags) .ok [(2, 0xFFFFFFFF)] noFlags = true ∧
    stops 0x050200000000041E (start [] noFlags) (.unknownEffect 0x28) = true := by decide

/-- spec/95_test_vectors.md section 2.8. -/
theorem test_bfc :
    ends 0x0520000000000808 (start [(0, 0xFFFFFFFF)] noFlags) .ok [(0, 0xFFFF00FF)] noFlags = true ∧
    ends 0x0520000000002000 (start [(0, 0x12345678)] noFlags) .ok [(0, 0x0)] noFlags = true ∧
    stops 0x0520000000000008 (start [] noFlags) (.unknownEffect 0x29) = true := by decide

/-- spec/95_test_vectors.md section 2.8. -/
theorem test_bfi :
    ends 0x0540100000000C04 (start [(0, 0x0), (1, 0x12345678)] noFlags) .ok [(0, 0x6780)] noFlags = true ∧
    ends 0x0540100000002000 (start [(0, 0x12345678), (1, 0xCAFEBABE)] noFlags) .ok [(0, 0xCAFEBABE)] noFlags = true ∧
    ends 0x0540100000000404 (start [(1, 0x1)] noFlags) (.unwrittenRead [.reg 0]) [] noFlags = true := by decide

/-- spec/95_test_vectors.md section 2.8. -/
theorem test_movt :
    ends 0x0560000000001234 (start [(0, 0x5678)] noFlags) .ok [(0, 0x12345678)] noFlags = true ∧
    ends 0x0560000000000000 (start [(0, 0xFFFFFFFF)] noFlags) .ok [(0, 0xFFFF)] noFlags = true := by decide

/-- spec/95_test_vectors.md section 2.9. -/
theorem test_ssat :
    ends 0x0580100900001008 (start [(1, 0x80000000)] { noFlags with q := some false }) .ok [(0, 0xFFFF8000)] { noFlags with q := some true } = true ∧
    ends 0x0580100100000800 (start [(1, 0xFFFFFF7F)] { noFlags with q := some false }) .ok [(0, 0xFFFFFF80)] { noFlags with q := some true } = true ∧
    ends 0x0580100100002000 (start [(1, 0x80000000)] { noFlags with q := some false }) .ok [(0, 0x80000000)] { noFlags with q := some false } = true ∧
    ends 0x0580100100000100 (start [(1, 0x1)] { noFlags with q := some false }) .ok [(0, 0x0)] { noFlags with q := some true } = true := by decide

/-- spec/95_test_vectors.md section 2.9. -/
theorem test_usat :
    ends 0x05A0100100000800 (start [(1, 0xFFFFFFFF)] { noFlags with q := some false }) .ok [(0, 0x0)] { noFlags with q := some true } = true ∧
    ends 0x05A0100100001000 (start [(1, 0x10000)] { noFlags with q := some false }) .ok [(0, 0xFFFF)] { noFlags with q := some true } = true ∧
    ends 0x05A0100100002000 (start [(1, 0x7FFFFFFF)] { noFlags with q := some false }) .ok [(0, 0x7FFFFFFF)] { noFlags with q := some false } = true := by decide

/-- spec/95_test_vectors.md section 2.10. -/
theorem test_rev :
    ends 0x0600010000000000 (start [(1, 0x12345678)] noFlags) .ok [(0, 0x78563412)] noFlags = true := by decide

/-- spec/95_test_vectors.md section 2.10. -/
theorem test_revsh :
    ends 0x0620010000000000 (start [(1, 0x1280)] noFlags) .ok [(0, 0xFFFF8012)] noFlags = true ∧
    ends 0x0620010000000000 (start [(1, 0xFFFF7F00)] noFlags) .ok [(0, 0x7F)] noFlags = true := by decide

/-- spec/95_test_vectors.md section 2.10. -/
theorem test_rbit :
    ends 0x0640010000000000 (start [(1, 0x12345678)] noFlags) .ok [(0, 0x1E6A2C48)] noFlags = true := by decide

/-- spec/95_test_vectors.md section 2.1. -/
theorem test_shifter_immediate :
    shifter (start [(1, 0x80000001)] (nzcv none none (some false) none)) (.imm 0xFF 4) = some (0xFF000000, some true) ∧
    shifter (start [(1, 0x80000001)] (nzcv none none (some false) none)) (.imm 1 0) = some (0x1, none) ∧
    shifter (start [(1, 0x80000001)] (nzcv none none (some false) none)) (.regImm 1 .lsl 0) = some (0x80000001, none) ∧
    shifter (start [(1, 0x80000001)] (nzcv none none (some false) none)) (.regImm 1 .lsl 1) = some (0x2, some true) ∧
    shifter (start [(1, 0x80000001)] (nzcv none none (some false) none)) (.regImm 1 .lsr 1) = some (0x40000000, some true) ∧
    shifter (start [(1, 0x80000001)] (nzcv none none (some false) none)) (.regImm 1 .lsr 32) = some (0x0, some true) ∧
    shifter (start [(1, 0x80000001)] (nzcv none none (some false) none)) (.regImm 1 .asr 4) = some (0xF8000000, some false) ∧
    shifter (start [(1, 0x80000001)] (nzcv none none (some false) none)) (.regImm 1 .asr 32) = some (0xFFFFFFFF, some true) ∧
    shifter (start [(1, 0x80000001)] (nzcv none none (some false) none)) (.regImm 1 .ror 1) = some (0xC0000000, some true) ∧
    shifter (start [(1, 0x80000001)] (nzcv none none (some true) none)) (.rrx 1) = some (0xC0000000, some true) := by decide

/-- spec/95_test_vectors.md section 2.1. -/
theorem test_shifter_register :
    shifter (start [(1, 0x80000001), (2, 0x100)] (nzcv none none (some false) none)) (.regReg 1 .lsl 2) = some (0x80000001, none) ∧
    shifter (start [(1, 0x80000001), (2, 0x20)] (nzcv none none (some false) none)) (.regReg 1 .lsl 2) = some (0x0, some true) ∧
    shifter (start [(1, 0x80000001), (2, 0x21)] (nzcv none none (some false) none)) (.regReg 1 .lsl 2) = some (0x0, some false) ∧
    shifter (start [(1, 0x80000001), (2, 0x21)] (nzcv none none (some false) none)) (.regReg 1 .lsr 2) = some (0x0, some false) ∧
    shifter (start [(1, 0x80000001), (2, 0x28)] (nzcv none none (some false) none)) (.regReg 1 .asr 2) = some (0xFFFFFFFF, some true) ∧
    shifter (start [(1, 0x80000001), (2, 0x20)] (nzcv none none (some false) none)) (.regReg 1 .ror 2) = some (0x80000001, some true) ∧
    shifter (start [(1, 0x80000001), (2, 0x24)] (nzcv none none (some false) none)) (.regReg 1 .ror 2) = some (0x18000000, some false) ∧
    stops 0x00A001F600000000 (start [(1, 0x80000001)] noFlags) (.unknownEffect 0x5) = true := by decide

/-- spec/95_test_vectors.md section 2.4. -/
theorem test_predication :
    ends 0xF8A0010100000000 (start [] noFlags) .skipped [] noFlags = true ∧
    ends 0x08A0010100000000 (start [] (nzcv (some true) none none none)) (.unwrittenRead [.flag .z]) [] (nzcv (some true) none none none) = true ∧
    ends 0x0D40100000000000 (start [] (nzcv none (some false) none none)) .skipped [] (nzcv none (some false) none none) = true ∧
    stops 0x0D40100000000000 (start [] (nzcv none (some true) none none)) (.unknownEffect 0x2A) = true ∧
    ends 0x0D40100000000000 (start [] noFlags) (.unwrittenRead [.flag .z]) [] noFlags = true ∧
    ends 0x10E0110100000000 (start [] noFlags) (.illegal 0x10E0110100000000) [] noFlags = true := by decide

/-- R43: a big-endian port stores a word's bytes in the other order. -/
theorem test_big_endian :
    storedAt 0x0401200080000000 { start [(1, 0xAABBCCDD), (2, 0x1000)] noFlags with
      params := { Config.specParams with endian := .big } } [] 0x1000 4 = [0xAA, 0xBB, 0xCC, 0xDD] := by
  decide

/-- R459: a port that never answers. -/
theorem test_silent_port :
    stops 0x0401200080000000 { start [(1, 1), (2, 0x1000)] noFlags with port := [.silent] }
      (.portSilent 0x1000) = true := by decide

/-- R420, R453: with nothing presented a step changes nothing. -/
theorem test_idle : step State.reset = .next State.reset := rfl

/-- R105, R116: the clamp and the halving, by hand. -/
theorem test_primitives :
    saturate 128 8 .signed = (127, true) ∧ saturate (-129) 8 .signed = (-128, true) ∧
    saturate (-1) 8 .unsigned = (0, true) ∧ half (-1) 16 = 0xFFFF ∧
    sextSteps 32 (0x80 : BitVec 8) = 0xFFFFFF80 := by decide

/-- R112, by hand: the extreme products at both widths. -/
theorem test_widening_multiply :
    sMulWide (0x8000 : Half) 0x8000 = 0x40000000 ∧ sMulWide (0xFFFF : Half) 3 = 0xFFFFFFFD ∧
    uMulWide (0xFFFF : Half) 0xFFFF = 0xFFFE0001 ∧
    sMulWide (0x80000000 : Word) 0x7FFFFFFF = 0xC000000080000000 ∧
    uMulWide (0xFFFFFFFF : Word) 0xFFFFFFFF = 0xFFFFFFFE00000001 := by decide

/-! ## Witnesses: states and operands that meet the hypotheses of the statements -/

/-- Every register holds 0x1000 and every flag 0. -/
def filled : State := { State.reset with regs := Vector.replicate 16 (some 0x1000) }

/-- No register and no flag holds a value. -/
def bare : State := start [] noFlags

/-- `filled` with one word presented. -/
def presenting (w : BitVec 64) : State := { filled with presented := [{ opw := w, pcRead := some 0 }] }

/-- One operation for each row of the opcode table, outside R404's table. -/
def plain : List Instr :=
  [.and none true 1 2 (.regReg 3 .lsl 4), .eor none true 1 2 (.regImm 3 .lsl 0), .orr none true 1 2 (.rrx 3),
   .orn none false 1 2 (.regImm 3 .lsl 0), .bic none false 1 2 (.regImm 3 .lsl 0), .mov none true 1 (.rrx 3),
   .mvn none true 1 (.regImm 3 .lsl 0), .add none true 1 2 (.imm 1 0), .sub none true 1 2 (.imm 1 0),
   .sbc none true 1 2 (.imm 1 0), .neg none true 1 2, .cmp none 2 (.imm 1 0), .tst none 2 (.imm 1 0),
   .qadd16 none 1 2 3, .qasx none 1 2 3, .uqsax none 1 2 3, .uhasx none 1 2 3, .uadd16 none 1 2 3,
   .shadd16 none 1 2 3, .uhsub8 none 1 2 3, .mla none true 1 2 3 4, .smull none true 1 2 3 4,
   .umull none true 1 2 3 4, .umaal none 1 2 3 4, .smmul none 1 2 3, .smmulr none 1 2 3,
   .smulwb none 1 2 3, .smulwt none 1 2 3, .str none 1 2 true .pre (.imm 4),
   .strh none 1 2 true .post (.imm 4), .strd none 4 2 true .offset (.imm 4), .ldrt none 1 2 true (.imm 4),
   .stm none 2 0x0012 .ia true, .sbfx none 1 2 0 32, .bfc none 1 31 1, .bfi none 1 2 4 4,
   .movt none 1 7, .ssat none 1 2 .lsl 0 1, .usat none 1 2 .asr 32 32, .rev none 1 2, .revsh none 1 2,
   .rbit none 1 2]

/-- One operation of each kind that has a row in R404's table, inside it (NEG has none). -/
def unknown : List Instr :=
  [.and none true 1 2 (.regReg 15 .lsl 4), .eor none true 15 2 (.regReg 3 .lsl 4),
   .orr none true 1 15 (.regReg 3 .lsl 4), .orn none false 1 2 (.regReg 3 .lsl 15),
   .bic none false 15 2 (.regReg 3 .lsl 4), .mov none true 15 (.regReg 3 .lsl 4),
   .mvn none true 1 (.regReg 3 .lsl 15), .add none true 15 2 (.regReg 3 .lsl 4),
   .sub none true 1 15 (.regReg 3 .lsl 4), .sbc none true 1 2 (.regReg 3 .lsl 15),
   .cmp none 15 (.regReg 3 .lsl 4), .tst none 2 (.regReg 3 .lsl 15), .qadd16 none 15 2 3,
   .qasx none 1 15 3, .uqsax none 1 2 15, .uhasx none 15 2 3, .uadd16 none 1 15 3, .shadd16 none 1 2 15,
   .uhsub8 none 15 2 3, .mla none true 1 2 3 15, .smull none true 1 2 3 1, .umull none true 1 2 3 15,
   .umaal none 1 2 3 1, .smmul none 15 2 3, .smmulr none 1 15 3, .smulwb none 1 2 15, .smulwt none 15 2 3,
   .str none 1 1 true .pre (.imm 4), .strh none 15 2 true .offset (.imm 4),
   .strd none 14 2 true .offset (.imm 4), .ldrt none 1 1 true (.imm 4), .stm none 2 0 .ia true,
   .sbfx none 1 2 31 2, .bfc none 1 31 0, .bfi none 1 2 0 33, .movt none 15 7, .ssat none 15 2 .lsl 0 1,
   .usat none 1 15 .asr 32 32, .rev none 15 2, .revsh none 1 15, .rbit none 15 15]

/-- `TrapsAsListed` in every statement, UnknownEffectCases: the listed cases. -/
theorem witness_unknown_cases :
    unknown.all (fun i => unknownCase i && passes i.suffix filled) = true := by decide

/-- `TrapsAsListed` in every statement, UnwrittenReads: a read that finds no value. -/
theorem witness_unwritten_reads :
    plain.all (fun i => !unknownCase i && passes i.suffix bare &&
      (operandReads i).any fun x => !bare.holds x) = true := by decide

/-- UnwrittenReads, the other clause: everything read holds a value; and then each operation answers a
next state that ended `OK`. -/
theorem witness_all_held :
    plain.all (fun i => !unknownCase i && (operandReads i).all filled.holds &&
      match exec i filled with
      | .next t => t.status == some .ok
      | .fault _ => false
      | .refused _ => false) = true := by decide

theorem witness_DecodeOfEncode : (Instr.mov none true 0 (.regImm 1 .lsr 32)).wf = true := by decide

theorem witness_EncodeOfDecode : decode 0x0601030000000000 = .ok (.rev none 1 3) := by decide

/-- The ends of each reserved range. -/
theorem witness_ReservedOpcodesAreIllegal :
    ([0x01A0000000000000, 0x01E0000000000000, 0x02E0000000000000, 0x04A0000000000000,
      0x04E0000000000000, 0x05C0000000000000, 0x05E0000000000000, 0x0660000000000000,
      0x07E0000000000000] : List (BitVec 64)).all (fun w => decide (opcOf w ∈ [0x0D, 0x0E, 0x0F, 0x17, 0x25, 0x26, 0x27, 0x2E, 0x2F, 0x33, 0x34, 0x35, 0x36, 0x37,
        0x38, 0x39, 0x3A, 0x3B, 0x3C, 0x3D, 0x3E, 0x3F])) = true := by decide

theorem witness_StepsIllegal :
    (presenting 0x01A0000000000000).presented = [{ opw := 0x01A0000000000000, pcRead := some 0 }] := by decide

/-- One unlisted bit in each format. -/
theorem witness_UnlistedBitsAreIllegal :
    ([0x0000010000000000, 0x0000008100000000, 0x0000000200000001, 0x0000000F00000001,
      0x0200001000000000, 0x0300000000000001, 0x0400010080000000, 0x0420000000000100,
      0x0480000000080000, 0x0500000000000020, 0x0520100000000100, 0x0560000000010000,
      0x0580010100000000, 0x0600001000000000] : List (BitVec 64)).all (fun w => w &&& ~~~ listedBits w != 0) = true := by decide

/-- FlagAndSuffixBitsChecked, first clause. -/
theorem witness_FlagBitNotAllowed :
    ([0x0210000000000000, 0x02D0000000000000, 0x0370000000000000, 0x03F0000000000000,
      0x0410000000000000, 0x0650000000000000] : List (BitVec 64)).all (fun w => flagBit w && decide (¬ (opcOf w ≤ 0x0C ∨ (0x18 ≤ opcOf w ∧ opcOf w ≤ 0x1A)))) = true := by decide

/-- FlagAndSuffixBitsChecked, third clause. -/
theorem witness_FlagBitRequired :
    ([0x0160000100000000, 0x0180000100000000] : List (BitVec 64)).all (fun w => !flagBit w && decide (opcOf w = 0x0B ∨ opcOf w = 0x0C)) = true := by decide

/-- FlagAndSuffixBitsChecked, fourth clause. -/
theorem witness_SuffixBit :
    ([0x10E0000100000000, 0xF0E0000100000000] : List (BitVec 64)).all (fun w => !suffixBit w && decide (condField w ≠ 0)) = true := by decide

/-- FlagAndSuffixBitsChecked, last clause; StepOtherwise, second clause. -/
theorem witness_policy :
    let s : State := { presenting 0x00FF120100000000 with params := { Config.specParams with pcFlagset := .refuse } }
    s.presented = [{ opw := 0x00FF120100000000, pcRead := some 0 }] ∧ s.params.pcFlagset = .refuse ∧
      opcOf 0x00FF120100000000 ≤ 0x0A ∧ flagBit 0x00FF120100000000 = true ∧
      rdField 0x00FF120100000000 = 15 ∧
      decode 0x00FF120100000000 = .ok (.add none true 15 1 (.regImm 2 .lsl 0)) ∧
      Instr.refusedBy s.params (.add none true 15 1 (.regImm 2 .lsl 0)) = true := by decide

/-- FormsAndRangesChecked, second clause. -/
theorem witness_FormThree :
    ([0x0000000300000000, 0x0190000B00000000] : List (BitVec 64)).all (fun w => decide (opcOf w ≤ 0x0C ∧ formField w = 3 ∧ shField w ≠ 3)) = true := by decide

/-- FormsAndRangesChecked, third clause: one past each greatest amount. -/
theorem witness_ShiftAmount :
    ([0x0000000100000020, 0x00A0000500000021, 0x0400000980000021, 0x0460000D40000020,
      0x0580000100000820, 0x05A0000900000821] : List (BitVec 64)).all (fun w => decide ((opcOf w ≤ 0x0C ∨ opcOf w ∈ [0x20, 0x23, 0x2C, 0x2D]) ∧ formField w = 1 ∧
        maxAmount (shField w) < amountField w)) = true := by decide

/-- FormsAndRangesChecked, fourth and fifth clauses. -/
theorem witness_MemoryForm :
    ([0x0400000200000000, 0x0420000300000000, 0x0440000060000000, 0x0460000060000000] : List (BitVec 64)).all (fun w => decide (opcOf w ∈ [0x20, 0x21, 0x22, 0x23] ∧ (2 ≤ formField w ∨ idxField w = 3))) = true := by decide

/-- FormsAndRangesChecked, fifth clause. -/
theorem witness_UnprivilegedIndex :
    ([0x0460000000000000, 0x0460000020000000, 0x0460000060000000] : List (BitVec 64)).all (fun w => decide (opcOf w = 0x23 ∧ idxField w ≠ 2)) = true := by decide

/-- FormsAndRangesChecked, sixth clause. -/
theorem witness_PlainOffset :
    ([0x0420000500000000, 0x0440000D00000000] : List (BitVec 64)).all (fun w => decide ((opcOf w = 0x21 ∨ opcOf w = 0x22) ∧ formField w = 1 ∧ shField w ≠ 0)) = true := by decide

/-- FormsAndRangesChecked, seventh clause. -/
theorem witness_SaturateFields :
    ([0x0580000000000800, 0x05A0000500000800, 0x0580000D00000800, 0x05A0000100000000,
      0x0580000100002100] : List (BitVec 64)).all (fun w => decide ((opcOf w = 0x2C ∨ opcOf w = 0x2D) ∧
        (formField w ≠ 1 ∨ shField w = 1 ∨ shField w = 3 ∨ satField w = 0 ∨ 32 < satField w))) = true := by decide

/-- RegisterFieldsChecked: a word in each clause. -/
theorem witness_RegisterFieldsChecked :
    ([0x00A0100100000000, 0x00C0F00100000000, 0x0171000100000000, 0x019F000100000000,
      0x0140100100000000, 0x0140000000000000, 0x0140000500000000, 0x0140000100000001,
      0x0380001000000000, 0x03E000F000000000] : List (BitVec 64)).all (fun w => decide (((opcOf w = 0x05 ∨ opcOf w = 0x06) ∧ rnField w ≠ 0) ∨
        ((opcOf w = 0x0B ∨ opcOf w = 0x0C) ∧ rdField w ≠ 0) ∨
        (opcOf w = 0x0A ∧ (rnField w ≠ 0 ∨ formField w ≠ 1 ∨ shField w ≠ 0 ∨ amountField w ≠ 0)) ∨
        (0x1C ≤ opcOf w ∧ opcOf w ≤ 0x1F ∧ rsField w ≠ 0))) = true := by decide

theorem witness_StepRunsDecodedOperation :
    (presenting 0x0601030000000000).presented = [{ opw := 0x0601030000000000, pcRead := some 0 }] ∧
    decode 0x0601030000000000 = .ok (.rev none 1 3) ∧
    Instr.refusedBy filled.params (.rev none 1 3) = false := by decide

/-- StepOtherwise, first and last clauses. -/
theorem witness_StepOtherwise :
    decode 0x01A0000000000000 = .error .reservedOpc ∧ filled.presented = [] := by decide

/-- ConditionTruthTable: every row with every flag held, and every row that reads a flag with one
missing. -/
theorem witness_ConditionTruthTable :
    conditionTable.all (fun row =>
      ((withSuffix (some row.1) (.rev none 1 2)).suffix == some row.1) &&
      row.2.1.all (fun f => (filled.flags.get f).isSome) &&
      (row.2.1.isEmpty || row.2.1.any fun f => !(bare.flags.get f).isSome)) = true := by decide

theorem witness_ConditionGates :
    (Instr.rev (some .eq) 1 2).suffix = some .eq ∧ filled.flags.condHolds .eq = some false ∧
    filled.flags.condHolds .ne = some true := by decide

/-- SignExtensionSteps, SaturationClamps, HalvingKeepsUpperBits: the smallest widths. -/
theorem witness_widths : (0 < 1 ∧ 1 ≤ 1 ∧ 1 ≤ 32) ∧ sextSteps 1 (1 : BitVec 1) = 1 := by decide

/-- ShiftByImmediate: 0, 1 and the greatest amount of each kind. -/
theorem witness_ShiftByImmediate :
    filled.readReg 1 = some 0x1000 ∧ (0 : BitVec 6).toNat ≤ 31 ∧ (1 : BitVec 6).toNat ≤ 31 ∧
    (31 : BitVec 6).toNat ≤ 31 ∧ (32 : BitVec 6).toNat ≤ 32 := by decide

/-- ShiftByRegister, ShiftByZero: the ends of each range of amounts. -/
theorem witness_ShiftByRegister :
    [0, 1, 31, 32, 33, 255, 256].all (fun k =>
      (start [(1, 0x80000001), (2, BitVec.ofNat 32 k)] noFlags).readReg 2 == some (BitVec.ofNat 32 k)) = true ∧
    (start [(1, 0x80000001), (2, 0x100)] noFlags).readReg 1 = some 0x80000001 ∧
    (0x100 : Word).toNat % 256 = 0 := by decide

/-- RotateWithExtend: C held and C not held. -/
theorem witness_RotateWithExtend :
    filled.readReg 1 = some 0x1000 ∧ filled.flags.c = some false ∧
    (start [(1, 1)] noFlags).readReg 1 = some 1 ∧ (start [(1, 1)] noFlags).flags.c = none ∧
    passes none (start [(1, 1)] noFlags) = true := by decide

/-- IndexedAddresses: a base, a shifted register offset and a plain one. -/
theorem witness_IndexedAddresses :
    filled.readReg 2 = some 0x1000 ∧ shifter filled (.regImm 3 .lsr 32) = some (0, some false) ∧
    filled.readReg 3 = some 0x1000 := by decide

/-- LogicalResults, MoveResults, AddSubResults, CompareAndTest, NegateResult; the operand keeps C. -/
theorem witness_data_processing :
    passes none filled = true ∧ regRegPc [1, 2] (.regImm 3 .lsl 0) = false ∧
    regRegPc [15, 2] (.imm 1 0) = false ∧ filled.readReg 2 = some 0x1000 ∧
    shifter filled (.regImm 3 .lsl 0) = some (0x1000, none) ∧
    shifter filled (.imm 1 0) = some (1, none) ∧
    shifter filled (.imm 0xFF 4) = some (0xFF000000, some true) := by decide

/-- SubtractWithCarryResult: C is 0 or 1. -/
theorem witness_SubtractWithCarryResult :
    filled.flags.c = some false ∧ { filled.flags with c := some true }.c = some true ∧
    filled.readReg 2 = some 0x1000 ∧ shifter filled (.imm 1 0) = some (1, none) := by decide

/-- PackedSaturation, PackedHalving, PackedAddAndGE, HighPartMultiplies. -/
theorem witness_three_registers :
    passes none filled = true ∧ (15 : Reg) ∉ [(1 : Reg), 2, 3] ∧ filled.readReg 2 = some 0x1000 ∧
    filled.readReg 3 = some 0x1000 := by decide

/-- AccumulatingMultiplies, LongMultiplies. -/
theorem witness_four_registers :
    (15 : Reg) ∉ [(1 : Reg), 2, 3, 4] ∧ (4 : Reg) ≠ 1 ∧ filled.readReg 1 = some 0x1000 ∧
    filled.readReg 4 = some 0x1000 := by decide

/-- StoreWord, StoreHalfword: a misaligned address, an abort, a request served, and memory in form. -/
theorem witness_one_write :
    unknownCase (.str none 1 2 true .pre (.imm 2)) = false ∧
    modeTwo filled 2 true .pre (.imm 2) = some { addr := 0x1002, wb := true, wbval := 0x1002 } ∧
    modeThree filled 2 true .offset (.imm 1) = some { addr := 0x1001, wb := false, wbval := 0x1001 } ∧
    filled.readReg 1 = some 0x1000 ∧ addrOk 4 filled 0x1002 = false ∧ addrOk 2 filled 0x1001 = false ∧
    addrOk 4 filled 0x1000 = true ∧
    { filled with port := [.abort] }.port.head? = some .abort ∧
    portServes 1 filled = true ∧ portServes 1 { filled with port := [.served] } = true ∧
    filled.mem.wf = true := by decide

/-- StoreDoubleword: the abort of the first and of the second request, and both served. -/
theorem witness_StoreDoubleword :
    unknownCase (.strd none 4 2 true .offset (.imm 4)) = false ∧
    modeThree filled 2 true .offset (.imm 4) = some { addr := 0x1004, wb := false, wbval := 0x1004 } ∧
    filled.readReg 4 = some 0x1000 ∧ filled.readReg (4 + 1) = some 0x1000 ∧
    addrOk 4 filled 0x1004 = true ∧ portServes 2 filled = true ∧
    portServes 0 { filled with port := [.abort] } = true ∧
    { filled with port := [.abort] }.port[0]? = some .abort ∧
    portServes 1 { filled with port := [.served, .abort] } = true ∧
    { filled with port := [.served, .abort] }.port[1]? = some .abort := by decide

/-- StoreMultiple: a list of one register and one of fifteen. -/
theorem witness_StoreMultiple :
    unknownCase (.stm none 2 0x8000 .db true) = false ∧ unknownCase (.stm none 2 0xFFFB .ia true) = false ∧
    filled.readReg 2 = some 0x1000 ∧ (listed 0x8000).map filled.readReg = [(0 : Word)].map some ∧
    (listed 0x0012).map filled.readReg = [(0x1000 : Word), 0x1000].map some := by decide

/-- LoadUnprivileged: each clause. -/
theorem witness_LoadUnprivileged :
    unknownCase (.ldrt none 1 2 true (.imm 4)) = false ∧
    modeTwo filled 2 true .post (.imm 4) = some { addr := 0x1000, wb := true, wbval := 0x1004 } ∧
    addrOk 4 (start [(2, 0x1002)] noFlags) 0x1002 = false ∧ addrOk 4 filled 0x1000 = true ∧
    { filled with port := [.abort] }.port.head? = some .abort ∧
    { filled with port := [.servedAs 7] }.port.head? = some (.servedAs 7) ∧
    { filled with port := [.served] }.port.head? = some .served ∧ filled.port.head? = none := by decide

/-- SignedFieldExtract, FieldReplacement, InsertThenExtract: the least and greatest fields. -/
theorem witness_fields :
    (1 ≤ (1 : BitVec 6).toNat ∧ (31 : BitVec 5).toNat + (1 : BitVec 6).toNat ≤ 32) ∧
    (1 ≤ (32 : BitVec 6).toNat ∧ (0 : BitVec 5).toNat + (32 : BitVec 6).toNat ≤ 32) ∧
    (15 : Reg) ∉ [(1 : Reg), 2, 3] ∧ (1 : Reg) ≠ 15 ∧ filled.readReg 1 = some 0x1000 := by decide

/-- SaturateToWidth: both shifts at their greatest amounts, both ends of the width. -/
theorem witness_SaturateToWidth :
    (Instr.ssat none 1 2 .lsl 31 1).wf = true ∧ (Instr.ssat none 1 2 .asr 32 32).wf = true ∧
    (15 : Reg) ∉ [(1 : Reg), 2] ∧ filled.readReg 2 = some 0x1000 := by decide

/-- Reversals. -/
theorem witness_Reversals : (15 : Reg) ∉ [(1 : Reg), 3] ∧ filled.readReg 3 = some 0x1000 := by decide

/-- UnknownEffectCases, second clause. -/
theorem witness_unknown_fault :
    exec (.movt none 15 7) filled = .fault (.unknownEffect 0x2B) := rfl

/-- OnlyTheseStops: a stop of each kind. -/
theorem witness_OnlyTheseStops :
    exec (.rev none 15 2) filled = .fault (.unknownEffect 0x30) ∧
    exec (.str none 1 2 true .offset (.imm 0)) { filled with port := [.silent] } =
      .fault (.portSilent 0x1000) := ⟨rfl, rfl⟩

/-- FaultsCommitNothing: an operation that ends otherwise than `OK`. -/
theorem witness_FaultsCommitNothing :
    exec (.str none 1 2 true .offset (.imm 2)) filled = .next (endedWith filled (.alignmentFault 0x1002)) ∧
    (endedWith filled (.alignmentFault 0x1002)).status ≠ some .ok :=
  ⟨rfl, by decide⟩

/-- IssuedRequestsAligned, FlagFrame, QIsSticky, RegisterFrame, MemoryFrame: an operation that answers a
next state, with a request and without. -/
theorem witness_next_states :
    (∃ t, exec (.str none 1 2 true .offset (.imm 0)) filled = .next t ∧ t.requests ≠ []) ∧
    (∃ t, exec (.qadd16 none 1 2 3) filled = .next t ∧ t.requests = []) ∧
    (∃ t, exec (.ldrt none 1 2 true (.imm 0)) filled = .next t) ∧
    filled.params.alignPolicy = .fault ∧
    reachesMemory (.qadd16 none 1 2 3) = false ∧
    opcOf (encode (.ldrt none 1 2 true (.imm 0))) = 0x23 :=
  ⟨⟨_, rfl, by decide⟩, ⟨_, rfl, by decide⟩, ⟨_, rfl⟩, by decide, by decide, by decide⟩

/-- StepKeepsInv. -/
theorem witness_StepKeepsInv :
    Inv (presenting 0x0401200080000000) ∧ ∃ t, step (presenting 0x0401200080000000) = .next t :=
  ⟨show filled.mem.wf = true by decide, ⟨_, rfl⟩⟩

end Sys2Proof.Tests
end

section
/-! PROOFS. The state at reset (spec/00_scope.md R6). -/

namespace Sys2Proof.Machine
open Sys2Proof.Config

/-- R6: reset leaves the parameters as the spec fixes them. -/
@[simp] theorem State.reset_params : State.reset.params = specParams := rfl

/-- notes/assumptions/6.md. -/
@[simp] theorem State.reset_presented : State.reset.presented = [] := rfl

/-- notes/assumptions/14.md. -/
@[simp] theorem State.reset_requests : State.reset.requests = [] := rfl

/-- notes/assumptions/14.md. -/
@[simp] theorem State.reset_status : State.reset.status = none := rfl

/-- The value column of R6, for the parameters that have an alternative. -/
theorem specParams_values :
    specParams.endian = .little ∧ specParams.alignPolicy = .fault ∧
      specParams.pcFlagset = .asIfNotPc ∧ specParams.packedSatSetsQ = true ∧
      specParams.uadd16SetsGE = true :=
  ⟨rfl, rfl, rfl, rfl, rfl⟩

/-- Settles O59: the parameters at reset are `specParams`, whose fields are R6's values; the other
fields are reset's own. -/
theorem resetParameters : Obligations.ResetParameters := by
  simpa [Obligations.ResetParameters] using specParams_values

end Sys2Proof.Machine
end

section
/-! PROOFS. What register and operand reads give (spec/10_state.md R20-R23), and what no operation
changes: the flags outside its row of R29, a Q that is set (R28), and the registers outside its
destinations. -/

namespace Sys2Proof.Machine
open Sys2Proof.Safety

/-! ## Reads of registers and of the shifter operand -/

/-- The two tables of what a shifter operand reads, the model's and the statements', agree. -/
@[simp] theorem op2Sources_eq_op2Reads (o : Op2) : op2Sources o = op2Reads o := by
  cases o <;> rfl

theorem State.readReg_eq_getElem (s : State) (r : Reg) :
    s.readReg r = if r = 15 then s.pcRead else s.regs[r.val] := rfl

theorem State.writeReg_getElem (s : State) (r q : Reg) (v : Word) :
    (s.writeReg r v).regs[q.val] = if q = r then some v else s.regs[q.val] :=
  s.writeReg_get r q v

theorem shifter_eq_some_iff (s : State) (o : Op2) :
    (∃ b, shifter s o = some b) ↔ ∀ x ∈ op2Reads o, s.holds x = true := by
  rw [← Option.ne_none_iff_exists', ne_eq, shifter_eq_none]
  simp

end Sys2Proof.Machine

/-! `Laws`, because `Safety.operandReads` is also opened in `Machine`. -/

namespace Sys2Proof.Laws
open Sys2Proof.Machine

/-- Settles O24, from the rules for a register read, a register write and a shifter operand without
a value. -/
theorem operandReads : Obligations.OperandReads := by
  refine ⟨State.readReg_eq_getElem, State.writeReg_getElem, fun s o => ?_⟩
  rw [op2Sources_eq_op2Reads]
  exact shifter_eq_some_iff s o

end Sys2Proof.Laws

namespace Sys2Proof.Machine
open Sys2Proof.Safety

/-! ## Flags -/

/-- `g` is `f` but for the flags of `fs`, and Q of `g` is Q of `f` or 1 (R28). -/
structure FlagsKept (fs : List FlagName) (f g : Flags) : Prop where
  get_eq : ∀ x, x ∉ fs → g.get x = f.get x
  sticky : g.q = f.q ∨ g.q = some true

theorem FlagsKept.refl (fs : List FlagName) (f : Flags) : FlagsKept fs f f :=
  ⟨fun _ _ => rfl, .inl rfl⟩

/-- The entries a table row has only when its flag-setting or write-back bit is 1. -/
def onlyIf {α : Type} (b : Bool) (l : List α) : List α := if b then l else []

/-- An update that only S = 1 makes. -/
theorem FlagsKept.ite {fs : List FlagName} {f g : Flags} (s : Bool) (h : FlagsKept fs f g) :
    FlagsKept (onlyIf s fs) f (if s then g else f) := by
  cases s with
  | false => exact .refl [] f
  | true => exact h

theorem setNZ_flagsKept {w : Nat} (f : Flags) (r : BitVec w) : FlagsKept [.n, .z] f (f.setNZ r) :=
  ⟨fun x hx => by cases x <;> simp_all [Flags.get], .inl rfl⟩

theorem setLogical_flagsKept (f : Flags) (r : Word) (k : Carry) :
    FlagsKept [.n, .z, .c] f (f.setLogical r k) :=
  ⟨fun x hx => by cases x <;> simp_all [Flags.get, Flags.setLogical],
    .inl (by simp [Flags.setLogical])⟩

theorem setAdditive_flagsKept (f : Flags) (r : Word) (c v : Bool) :
    FlagsKept [.n, .z, .c, .v] f (f.setAdditive r c v) :=
  ⟨fun x hx => by cases x <;> simp_all [Flags.get], .inl rfl⟩

theorem setGE_flagsKept (f : Flags) (a b : Bool) :
    FlagsKept [.ge0, .ge1, .ge2, .ge3] f (f.setGE a b) :=
  ⟨fun x hx => by cases x <;> simp_all [Flags.get], .inl rfl⟩

/-- R106: the one update that touches Q, and it only sets it. -/
theorem setQ_flagsKept (f : Flags) (b : Bool) : FlagsKept [.q] f (f.setQ b) :=
  ⟨fun x hx => by cases x <;> simp_all [Flags.get], by cases b <;> simp⟩

theorem satLanes_flagsKept (l : (Int × Bool) × (Int × Bool)) (p : Config.Params) (f : Flags) :
    FlagsKept [.q] f (satLanes l p f).2 := by
  simp only [satLanes, packedQ]
  split
  · exact setQ_flagsKept f _
  · exact .refl _ f

theorem uadd16Effect_flagsKept (n m : Word) (p : Config.Params) (f : Flags) :
    FlagsKept [.ge0, .ge1, .ge2, .ge3] f (uadd16Effect n m p f).2 := by
  simp only [uadd16Effect]
  split
  · exact setGE_flagsKept f _ _
  · exact .refl _ f

/-! ## The frame of an operation -/

/-- `t` is `s` but for the registers of `ws`, the flags of `fs`, memory and its port, and what the
operation reports (its status and requests). -/
structure Frame (ws : List Reg) (fs : List FlagName) (s t : State) : Prop where
  regs : ∀ r : Reg, r ∉ ws → t.regs[r.val] = s.regs[r.val]
  flags : FlagsKept fs s.flags t.flags
  params : t.params = s.params
  presented : t.presented = s.presented
  pcRead : t.pcRead = s.pcRead

section
variable {ws : List Reg} {fs : List FlagName} {s t : State}

theorem Frame.of_eq (hr : t.regs = s.regs) (hf : t.flags = s.flags) (hc : t.pcRead = s.pcRead)
    (hp : t.presented = s.presented) (ha : t.params = s.params) : Frame ws fs s t :=
  ⟨fun _ _ => by rw [hr], hf ▸ .refl fs _, ha, hp, hc⟩

theorem Frame.refl (ws : List Reg) (fs : List FlagName) (s : State) : Frame ws fs s s :=
  .of_eq rfl rfl rfl rfl rfl

theorem Frame.writeReg {r : Reg} {v : Word} (h : Frame ws fs s t) (hr : r ∈ ws) :
    Frame ws fs s (t.writeReg r v) where
  regs q hq := by
    have hne : q ≠ r := fun e => hq (e ▸ hr)
    rw [State.writeReg_getElem, if_neg hne, h.regs q hq]
  flags := h.flags
  params := h.params
  presented := h.presented
  pcRead := h.pcRead

theorem Frame.setFlags {g : Flags} (h : Frame ws fs s t) (hg : FlagsKept fs s.flags g) :
    Frame ws fs s { t with flags := g } :=
  ⟨h.regs, hg, h.params, h.presented, h.pcRead⟩

theorem Frame.setStatus {st : Option Status} (h : Frame ws fs s t) :
    Frame ws fs s { t with status := st } :=
  ⟨h.regs, h.flags, h.params, h.presented, h.pcRead⟩

/-- R152: a write-back touches its base only when the access asks for it. -/
theorem Frame.writeBack {rn : Reg} {a : Access} (h : Frame ws fs s t)
    (hr : a.wb = true → rn ∈ ws) : Frame ws fs s (t.writeBack rn a) := by
  unfold State.writeBack
  split
  · next hwb => exact h.writeReg (hr hwb)
  · exact h

theorem Frame.of_begin (h : Frame ws fs s.begin t) : Frame ws fs s t :=
  ⟨h.regs, h.flags, h.params, h.presented, h.pcRead⟩

end

/-- Whatever next state the outcome answers stays within the frame. -/
structure StaysWithin (ws : List Reg) (fs : List FlagName) (s : State) (o : Result) : Prop where
  frame : ∀ t, o = .next t → Frame ws fs s t

section
variable {ws : List Reg} {fs : List FlagName} {s t : State}

theorem next_staysWithin (h : Frame ws fs s t) : StaysWithin ws fs s (.next t) :=
  ⟨fun _ e => Host.Outcome.next.inj e ▸ h⟩

theorem fault_staysWithin (f : Fault) : StaysWithin ws fs s (.fault f) :=
  ⟨fun _ h => nomatch h⟩

/-- R408 step 4: the unknown-effect check in front of an operation's reads. -/
theorem check_staysWithin {b : Bool} {f : Fault} {o : Result} (h : StaysWithin ws fs s o) :
    StaysWithin ws fs s (if b then .fault f else o) := by
  cases b with
  | false => exact h
  | true => exact fault_staysWithin f

theorem raise_staysWithin (st : Status) : StaysWithin ws fs s (raise st s) :=
  next_staysWithin (Frame.refl ws fs s).setStatus

theorem complete_staysWithin (h : Frame ws fs s t) : StaysWithin ws fs s t.complete :=
  next_staysWithin h.setStatus

/-- The multiplexer (R172) adds nothing to the frame of the body it selects. -/
theorem gate_staysWithin {c : Suffix} {body : State → Result}
    (h : StaysWithin ws fs s.begin (body s.begin)) : StaysWithin ws fs s (gate c s body) := by
  refine ⟨fun t ht => ?_⟩
  rcases gate_next ht with hb | ⟨st, rfl⟩
  · exact (h.frame t hb).of_begin
  · exact (Frame.refl ws fs s.begin).setStatus.of_begin

end

/-! ## Data processing -/

section
variable (opc : BitVec 6) (sf : Bool) (rd rn rm : Reg) (o : Op2) (s : State)

theorem commitLogical_staysWithin (r : Word) (k : Carry) :
    StaysWithin [rd] (onlyIf sf [.n, .z, .c]) s (s.commitLogical sf rd r k) :=
  complete_staysWithin (((Frame.refl _ _ s).writeReg (by simp)).setFlags
    ((setLogical_flagsKept s.flags r k).ite sf))

theorem commitAdditive_staysWithin (x : Word × Bool × Bool) :
    StaysWithin [rd] (onlyIf sf [.n, .z, .c, .v]) s (s.commitAdditive sf rd x) :=
  complete_staysWithin (((Frame.refl _ _ s).writeReg (by simp)).setFlags
    ((setAdditive_flagsKept s.flags x.1 x.2.1 x.2.2).ite sf))

theorem logical3_staysWithin (f : Word → Word → Word) :
    StaysWithin [rd] (onlyIf sf [.n, .z, .c]) s (logical3 opc f sf rd rn o s) := by
  unfold logical3
  refine check_staysWithin ?_
  split
  · exact commitLogical_staysWithin ..
  · exact raise_staysWithin _

theorem logical2_staysWithin (f : Word → Word) :
    StaysWithin [rd] (onlyIf sf [.n, .z, .c]) s (logical2 opc f sf rd o s) := by
  unfold logical2
  refine check_staysWithin ?_
  split
  · exact commitLogical_staysWithin ..
  · exact raise_staysWithin _

theorem additive3_staysWithin (f : Word → Word → Word × Bool × Bool) :
    StaysWithin [rd] (onlyIf sf [.n, .z, .c, .v]) s (additive3 opc f sf rd rn o s) := by
  unfold additive3
  refine check_staysWithin ?_
  split
  · exact commitAdditive_staysWithin ..
  · exact raise_staysWithin _

theorem sbcBody_staysWithin :
    StaysWithin [rd] (onlyIf sf [.n, .z, .c, .v]) s (sbcBody sf rd rn o s) := by
  unfold sbcBody
  refine check_staysWithin ?_
  split
  · exact commitAdditive_staysWithin ..
  · exact raise_staysWithin _

theorem negBody_staysWithin :
    StaysWithin [rd] (onlyIf sf [.n, .z, .c, .v]) s (negBody sf rd rm s) := by
  unfold negBody
  split
  · exact commitAdditive_staysWithin ..
  · exact raise_staysWithin _

/-- R356: a comparison writes no register. -/
theorem comparison_staysWithin {fs : List FlagName}
    {f : Word → Word → Carry → Flags → Flags}
    (hf : ∀ a b k g, FlagsKept fs g (f a b k g)) :
    StaysWithin [] fs s (comparison opc f rn o s) := by
  unfold comparison
  refine check_staysWithin ?_
  split
  · exact complete_staysWithin ((Frame.refl _ _ s).setFlags (hf ..))
  · exact raise_staysWithin _

/-! ## Packed operations and multiplies -/

theorem packed_staysWithin {fs : List FlagName}
    {f : Word → Word → Config.Params → Flags → Word × Flags}
    (hf : ∀ n m p g, FlagsKept fs g (f n m p g).2) :
    StaysWithin [rd] fs s (packed opc f rd rn rm s) := by
  unfold packed
  refine check_staysWithin ?_
  split
  · exact complete_staysWithin (((Frame.refl _ _ s).writeReg (by simp)).setFlags (hf ..))
  · exact raise_staysWithin _

theorem mlaBody_staysWithin (ra : Reg) :
    StaysWithin [rd] (onlyIf sf [.n, .z]) s (mlaBody sf rd rn rm ra s) := by
  unfold mlaBody
  refine check_staysWithin ?_
  split
  · exact complete_staysWithin (((Frame.refl _ _ s).writeReg (by simp)).setFlags
      ((setNZ_flagsKept s.flags _).ite sf))
  · exact raise_staysWithin _

theorem commitLong_staysWithin (lo hi : Reg) (r : DWord) :
    StaysWithin [lo, hi] (onlyIf sf [.n, .z]) s (s.commitLong sf lo hi r) :=
  complete_staysWithin ((((Frame.refl _ _ s).writeReg (by simp)).writeReg (by simp)).setFlags
    ((setNZ_flagsKept s.flags r).ite sf))

theorem mulLong_staysWithin (f : Word → Word → DWord) (lo hi : Reg) :
    StaysWithin [lo, hi] (onlyIf sf [.n, .z]) s (mulLong opc f sf lo rn rm hi s) := by
  unfold mulLong
  refine check_staysWithin ?_
  split
  · exact commitLong_staysWithin ..
  · exact raise_staysWithin _

theorem umaalBody_staysWithin (lo hi : Reg) :
    StaysWithin [lo, hi] [] s (umaalBody lo rn rm hi s) := by
  unfold umaalBody
  refine check_staysWithin ?_
  split
  · exact commitLong_staysWithin false s lo hi _
  · exact raise_staysWithin _

/-- An operation whose one effect is a register write. -/
theorem writeReg_complete_staysWithin (v : Word) :
    StaysWithin [rd] [] s (s.writeReg rd v).complete :=
  complete_staysWithin ((Frame.refl _ _ s).writeReg (by simp))

theorem mul3_staysWithin (f : Word → Word → Word) :
    StaysWithin [rd] [] s (mul3 opc f rd rn rm s) := by
  unfold mul3
  refine check_staysWithin ?_
  split
  · exact writeReg_complete_staysWithin ..
  · exact raise_staysWithin _

/-! ## Bit fields, saturation to a width, reversal -/

section
variable (lsb : BitVec 5) (width : BitVec 6)

theorem sbfxBody_staysWithin : StaysWithin [rd] [] s (sbfxBody rd rn lsb width s) := by
  unfold sbfxBody
  refine check_staysWithin ?_
  split
  · exact writeReg_complete_staysWithin ..
  · exact raise_staysWithin _

theorem bfcBody_staysWithin : StaysWithin [rd] [] s (bfcBody rd lsb width s) := by
  unfold bfcBody
  refine check_staysWithin ?_
  split
  · exact writeReg_complete_staysWithin ..
  · exact raise_staysWithin _

theorem bfiBody_staysWithin : StaysWithin [rd] [] s (bfiBody rd rn lsb width s) := by
  unfold bfiBody
  refine check_staysWithin ?_
  split
  · exact writeReg_complete_staysWithin ..
  · exact raise_staysWithin _

end

theorem movtBody_staysWithin (imm16 : BitVec 16) :
    StaysWithin [rd] [] s (movtBody rd imm16 s) := by
  unfold movtBody
  refine check_staysWithin ?_
  split
  · exact writeReg_complete_staysWithin ..
  · exact raise_staysWithin _

theorem saturateTo_staysWithin (kind : SatKind) (sh : SatShift) (n width : BitVec 6) :
    StaysWithin [rd] [.q] s (saturateTo opc kind rd rn sh n width s) := by
  unfold saturateTo
  refine check_staysWithin ?_
  split
  · exact complete_staysWithin (((Frame.refl _ _ s).writeReg (by simp)).setFlags
      (setQ_flagsKept s.flags _))
  · exact raise_staysWithin _

theorem reversal_staysWithin (f : Word → Word) :
    StaysWithin [rd] [] s (reversal opc f rd rm s) := by
  unfold reversal
  refine check_staysWithin ?_
  split
  · exact writeReg_complete_staysWithin ..
  · exact raise_staysWithin _

end

/-! ## Loads and stores -/

/-- The error of a word write is that of its request. -/
theorem memWriteWord_error {a v : Word} {s : State} {o : Result}
    (h : memWriteWord a v s = .error o) : issue (.writeWord a v) s = .error o := by
  unfold memWriteWord at h
  split at h
  · next e => cases h; exact e
  · cases h

/-- The error of a halfword write is that of its request. -/
theorem memWriteHalf_error {a : Word} {v : Half} {s : State} {o : Result}
    (h : memWriteHalf a v s = .error o) : issue (.writeHalf a v) s = .error o := by
  unfold memWriteHalf at h
  split at h
  · next e => cases h; exact e
  · cases h

/-- The error of a read is that of its request. -/
theorem memReadWord_error {a : Word} {u : Bool} {s : State} {o : Result}
    (h : memReadWord a u s = .error o) : issue (.readWord a u) s = .error o := by
  unfold memReadWord at h
  split at h
  · next e => cases h; exact e
  · cases h
  · cases h

section
variable {ws : List Reg} {fs : List FlagName} {s : State}

theorem issue_error_staysWithin {r : Request} {o : Result} (h : issue r s = .error o) :
    StaysWithin ws fs s o := by
  rcases issue_error h with ⟨a, rfl⟩ | ⟨t, rfl, hr, hf, -, hc, hp, ha, -⟩
  · exact fault_staysWithin _
  · exact next_staysWithin (.of_eq hr hf hc hp ha)

theorem memWriteWords_error_staysWithin {vs : List Word} {a : Word} {o : Result}
    (h : memWriteWords vs a s = .error o) : StaysWithin ws fs s o := by
  rcases memWriteWords_error h with ⟨b, rfl⟩ | ⟨t, rfl, hr, hf, hc, hp, ha, -, -⟩
  · exact fault_staysWithin _
  · exact next_staysWithin (.of_eq hr hf hc hp ha)

theorem memWriteWords_ok_frame {vs : List Word} {a : Word} {s' : State}
    (h : memWriteWords vs a s = .ok s') : Frame ws fs s s' := by
  obtain ⟨hr, hf, hc, hp, ha, -, -⟩ := memWriteWords_ok h
  exact .of_eq hr hf hc hp ha

theorem memWriteWord_ok_frame {a v : Word} {s' : State} (h : memWriteWord a v s = .ok s') :
    Frame ws fs s s' := by
  rw [memWriteWord_ok h]
  exact .of_eq rfl rfl rfl rfl rfl

theorem memWriteHalf_ok_frame {a : Word} {v : Half} {s' : State}
    (h : memWriteHalf a v s = .ok s') : Frame ws fs s s' := by
  rw [memWriteHalf_ok h]
  exact .of_eq rfl rfl rfl rfl rfl

theorem memReadWord_ok_frame {a d : Word} {u : Bool} {s' : State}
    (h : memReadWord a u s = .ok (d, s')) : Frame ws fs s s' := by
  rw [memReadWord_ok h]
  exact .of_eq rfl rfl rfl rfl rfl

/-- R290 steps 4 and 5: the frame of the requests and that of the commit. -/
theorem afterRequests_staysWithin {x : Except Result State} {commit : State → State}
    (herr : ∀ o, x = .error o → StaysWithin ws fs s o)
    (hok : ∀ s', x = .ok s' → Frame ws fs s (commit s')) :
    StaysWithin ws fs s (afterRequests x commit) := by
  rcases afterRequests_cases x commit with ⟨o, hx, e⟩ | ⟨s', hx, e⟩
  · exact e ▸ herr o hx
  · exact e ▸ complete_staysWithin (hok s' hx)

end

/-- R151: the base an operation writes back, by its index mode. -/
def writtenBase (idx : Index) (rn : Reg) : List Reg := if idx = .offset then [] else [rn]

section
variable {s : State} {rn : Reg} {u : Bool} {idx : Index} {a : Access}

theorem modeTwo_wb {off : Off2} (h : modeTwo s rn u idx off = some a) : a.wb = writesBack idx := by
  unfold modeTwo at h
  split at h
  · cases h; rfl
  · cases h

theorem modeThree_wb {off : Off3} (h : modeThree s rn u idx off = some a) :
    a.wb = writesBack idx := by
  unfold modeThree at h
  split at h
  · cases h; rfl
  · cases h

/-- The access writes its base back only in an index mode that lets the operation write it. -/
theorem mem_writtenBase (hwb : a.wb = writesBack idx) (h : a.wb = true) :
    rn ∈ writtenBase idx rn := by
  cases idx with
  | offset => exact absurd (hwb.symm.trans h) (by decide)
  | pre => simp [writtenBase]
  | post => simp [writtenBase]

end

section
variable (rt rn : Reg) (u : Bool) (idx : Index) (s : State)

theorem strBody_staysWithin (off : Off2) :
    StaysWithin (writtenBase idx rn) [] s (strBody rt rn u idx off s) := by
  unfold strBody
  refine check_staysWithin ?_
  split
  · next ha _ =>
    exact afterRequests_staysWithin
      (fun _ h => issue_error_staysWithin (memWriteWord_error h))
      (fun _ h => (memWriteWord_ok_frame h).writeBack (mem_writtenBase (modeTwo_wb ha)))
  · exact raise_staysWithin _

theorem strhBody_staysWithin (off : Off3) :
    StaysWithin (writtenBase idx rn) [] s (strhBody rt rn u idx off s) := by
  unfold strhBody
  refine check_staysWithin ?_
  split
  · next ha _ =>
    exact afterRequests_staysWithin
      (fun _ h => issue_error_staysWithin (memWriteHalf_error h))
      (fun _ h => (memWriteHalf_ok_frame h).writeBack (mem_writtenBase (modeThree_wb ha)))
  · exact raise_staysWithin _

theorem strdBody_staysWithin (off : Off3) :
    StaysWithin (writtenBase idx rn) [] s (strdBody rt rn u idx off s) := by
  unfold strdBody
  refine check_staysWithin ?_
  split
  · next ha _ _ =>
    exact afterRequests_staysWithin
      (fun _ h => memWriteWords_error_staysWithin h)
      (fun _ h => (memWriteWords_ok_frame h).writeBack (mem_writtenBase (modeThree_wb ha)))
  · exact raise_staysWithin _

theorem ldrtBody_staysWithin (off : Off2) :
    StaysWithin [rt, rn] [] s (ldrtBody rt rn u off s) := by
  unfold ldrtBody
  refine check_staysWithin ?_
  split
  · split
    · next h => exact issue_error_staysWithin (memReadWord_error h)
    · next h =>
      exact complete_staysWithin
        (((memReadWord_ok_frame h).writeReg (by simp)).writeBack (by simp))
  · exact raise_staysWithin _

theorem stmBody_staysWithin (list : BitVec 16) (am : BlockMode) (w : Bool) :
    StaysWithin (onlyIf w [rn]) [] s (stmBody rn list am w s) := by
  unfold stmBody
  refine check_staysWithin ?_
  split
  · refine afterRequests_staysWithin (fun _ h => memWriteWords_error_staysWithin h)
      fun _ h => ?_
    cases w with
    | false => exact memWriteWords_ok_frame h
    | true => exact (memWriteWords_ok_frame h).writeReg (by simp [onlyIf])
  · exact raise_staysWithin _

end

/-! ## Every operation -/

/-- An operation stays within its registers and its row of R29: its body does. -/
theorem exec_staysWithin (i : Instr) (s : State) :
    StaysWithin (regsWritten i) (flagsWritten i) s (exec i s) := by
  cases i with
  | and | eor | orr | orn | bic => exact gate_staysWithin (logical3_staysWithin ..)
  | mov | mvn => exact gate_staysWithin (logical2_staysWithin ..)
  | add | sub => exact gate_staysWithin (additive3_staysWithin ..)
  | sbc => exact gate_staysWithin (sbcBody_staysWithin ..)
  | neg => exact gate_staysWithin (negBody_staysWithin ..)
  | cmp =>
    exact gate_staysWithin (comparison_staysWithin _ _ _ _ fun _ _ _ g =>
      setAdditive_flagsKept g _ _ _)
  | tst =>
    exact gate_staysWithin (comparison_staysWithin _ _ _ _ fun _ _ _ g =>
      setLogical_flagsKept g _ _)
  | qadd16 | qasx | uqsax =>
    exact gate_staysWithin (packed_staysWithin _ _ _ _ _ fun _ _ => satLanes_flagsKept _)
  | uadd16 => exact gate_staysWithin (packed_staysWithin _ _ _ _ _ uadd16Effect_flagsKept)
  | uhasx | shadd16 | uhsub8 =>
    exact gate_staysWithin (packed_staysWithin _ _ _ _ _ fun _ _ _ g => .refl _ g)
  | mla => exact gate_staysWithin (mlaBody_staysWithin ..)
  | smull | umull => exact gate_staysWithin (mulLong_staysWithin ..)
  | umaal => exact gate_staysWithin (umaalBody_staysWithin ..)
  | smmul | smmulr | smulwb | smulwt => exact gate_staysWithin (mul3_staysWithin ..)
  | str => exact gate_staysWithin (strBody_staysWithin ..)
  | strh => exact gate_staysWithin (strhBody_staysWithin ..)
  | strd => exact gate_staysWithin (strdBody_staysWithin ..)
  | ldrt => exact gate_staysWithin (ldrtBody_staysWithin ..)
  | stm => exact gate_staysWithin (stmBody_staysWithin ..)
  | sbfx => exact gate_staysWithin (sbfxBody_staysWithin ..)
  | bfc => exact gate_staysWithin (bfcBody_staysWithin ..)
  | bfi => exact gate_staysWithin (bfiBody_staysWithin ..)
  | movt => exact gate_staysWithin (movtBody_staysWithin ..)
  | ssat | usat => exact gate_staysWithin (saturateTo_staysWithin ..)
  | rev | revsh | rbit => exact gate_staysWithin (reversal_staysWithin ..)

/-- The frame of an operation that answers a next state. -/
theorem exec_frame {i : Instr} {s t : State} (h : exec i s = .next t) :
    Frame (regsWritten i) (flagsWritten i) s t :=
  (exec_staysWithin i s).frame t h

/-- R30: T is in no row of R29. -/
theorem t_not_mem_flagsWritten (i : Instr) : .t ∉ flagsWritten i := by
  cases i <;> simp [flagsWritten]

/-- R61: the opc of an operation's word is the one its encoding gives. -/
theorem opcOf_encode (i : Instr) : opcOf (encode i) = (encodeFields i).opc.toNat :=
  congrArg (fun f : Fields => f.opc.toNat) (unpack_pack (encodeFields i))

/-- R29, column Q: the operations that may write Q are the saturating ones. -/
theorem opcOf_encode_of_q_mem {i : Instr} (h : .q ∈ flagsWritten i) :
    opcOf (encode i) ∈ [0x10, 0x11, 0x12, 0x2C, 0x2D] := by
  rw [opcOf_encode]
  cases i with
  | qadd16 | qasx | uqsax | ssat | usat =>
    simp [encodeFields, baseFields, opcQADD16, opcQASX, opcUQSAX, opcSSAT, opcUSAT]
  | _ => simp [flagsWritten] at h

/-- Settles O53, from the frame of an operation. -/
theorem flagFrame : Obligations.FlagFrame := by
  intro i s t h
  have hf := (exec_frame h).flags.get_eq
  exact ⟨hf, hf .t (t_not_mem_flagsWritten i)⟩

/-- Settles O54: Q is kept outside the rows of R29 that hold it, and sticky within them. -/
theorem qIsSticky : Obligations.QIsSticky := by
  intro i s t h
  have hf := (exec_frame h).flags
  by_cases hq : .q ∈ flagsWritten i
  · exact hf.sticky.imp_right fun hset => ⟨hset, opcOf_encode_of_q_mem hq⟩
  · exact .inl (hf.get_eq .q hq)

/-- Settles O55, from the frame of an operation. -/
theorem registerFrame : Obligations.RegisterFrame := by
  intro i s t h
  obtain ⟨hregs, -, hparams, hpresented, hpc⟩ := exec_frame h
  exact ⟨hregs, hparams, hpresented, hpc⟩

end Sys2Proof.Machine
end

section
/-! PROOFS. What an operation does to memory and its port (spec/20_memory.md R40-R49): which requests it
makes, that each is aligned, and that memory stays in its canonical form. -/

namespace Sys2Proof.Machine
open Sys2Proof.Safety

/-! ## The requests an operation may make -/

/-- R42: the requests that carry data to memory. -/
def Request.IsWrite : Request → Prop
  | .writeHalf _ _ => True
  | .writeWord _ _ => True
  | .readWord _ _ => False

/-- R40, R291-R295: the stores make writes, LDRT makes a read, no other operation makes a request. -/
def requestsOf : Instr → Request → Prop
  | .str _ _ _ _ _ _ => Request.IsWrite
  | .strh _ _ _ _ _ _ => Request.IsWrite
  | .strd _ _ _ _ _ _ => Request.IsWrite
  | .stm _ _ _ _ _ => Request.IsWrite
  | .ldrt _ _ _ _ _ => fun r => ¬ r.IsWrite
  | _ => fun _ => False

theorem not_requestsOf {i : Instr} (h : reachesMemory i = false) (r : Request) :
    ¬ requestsOf i r := by
  cases i with
  | str | strh | strd | stm | ldrt => cases h
  | _ => exact id

/-- R80: the operation of opc 0x23, LDRT, makes no write. -/
theorem not_isWrite_of_opc_ldrt {i : Instr} (h : opcOf (encode i) = 0x23) {r : Request}
    (hr : requestsOf i r) : ¬ r.IsWrite := by
  rw [opcOf_encode] at h
  cases i with
  | ldrt => exact hr
  | str _ _ _ _ _ off => cases off <;> simp [encodeFields, putOff2, baseFields, opcSTR] at h
  | strh _ _ _ _ _ off => cases off <;> simp [encodeFields, putOff3, baseFields, opcSTRH] at h
  | strd _ _ _ _ _ off => cases off <;> simp [encodeFields, putOff3, baseFields, opcSTRD] at h
  | stm => simp [encodeFields, baseFields, opcSTM] at h
  | _ => exact hr.elim

/-! ## How memory, the port and the requests change -/

/-- From `s` to `t` the memory side changes only by requests of the kinds `K`, each one that may be
issued, recorded and answered in turn; bytes change only by writes. -/
structure MemReach (K : Request → Prop) (s t : State) : Prop where
  params : t.params = s.params
  made : ∃ rs : List Request, t.requests = s.requests ++ rs ∧ t.port = s.port.drop rs.length ∧
    ∀ r ∈ rs, K r ∧ r.mayIssue s.params.alignPolicy = true
  mem : (∀ r, K r → ¬ r.IsWrite) → t.mem = s.mem
  wf : s.mem.wf = true → t.mem.wf = true

section
variable {K : Request → Prop} {s t : State} {r : Request}

theorem MemReach.of_eq (hm : t.mem = s.mem) (hr : t.requests = s.requests) (hp : t.port = s.port)
    (ha : t.params = s.params) : MemReach K s t where
  params := ha
  made := ⟨[], by simp [hr], hp, by simp⟩
  mem _ := hm
  wf h := hm ▸ h

theorem MemReach.trans {u : State} (h : MemReach K s t) (h' : MemReach K t u) : MemReach K s u where
  params := h'.params.trans h.params
  made := by
    obtain ⟨rs, hrs, hport, hK⟩ := h.made
    obtain ⟨rs', hrs', hport', hK'⟩ := h'.made
    refine ⟨rs ++ rs', by rw [hrs', hrs, List.append_assoc], ?_, fun r hr => ?_⟩
    · rw [hport', hport, List.drop_drop, List.length_append]
    · rcases List.mem_append.1 hr with hr | hr
      · exact hK r hr
      · exact h.params ▸ hK' r hr
  mem hK := (h'.mem hK).trans (h.mem hK)
  wf hs := h'.wf (h.wf hs)

theorem MemReach.issued (hK : K r) (hr : r.mayIssue s.params.alignPolicy = true) :
    MemReach K s (s.issued r) where
  params := rfl
  made := ⟨[r], rfl, List.drop_one.symm, fun _ h => List.mem_singleton.1 h ▸ ⟨hK, hr⟩⟩
  mem _ := rfl
  wf := id

/-- The bytes that a write among the requests carries. -/
theorem MemReach.writeBytes {a : Word} {bs : List Byte} (h : MemReach K s t) (hK : K r)
    (hr : r.IsWrite) : MemReach K s { t with mem := t.mem.writeBytes a bs } where
  params := h.params
  made := h.made
  mem hreads := absurd hr (hreads r hK)
  wf hs := Memory.wf_writeBytes bs t.mem a (h.wf hs)

theorem MemReach.writeReg (h : MemReach K s t) (rd : Reg) (v : Word) :
    MemReach K s (t.writeReg rd v) :=
  h.trans (.of_eq rfl rfl rfl rfl)

theorem MemReach.writeBack (h : MemReach K s t) (rn : Reg) (a : Access) :
    MemReach K s (t.writeBack rn a) :=
  h.trans (.of_eq (by simp) (by simp) (by simp) (by simp))

theorem MemReach.setStatus (h : MemReach K s t) (st : Option Status) :
    MemReach K s { t with status := st } :=
  h.trans (.of_eq rfl rfl rfl rfl)

end

/-- Whatever next state the outcome answers is reached by requests of the kinds `K`. -/
structure ReachesOnly (K : Request → Prop) (s : State) (o : Result) : Prop where
  reach : ∀ t, o = .next t → MemReach K s t

section
variable {K : Request → Prop} {s t : State}

theorem next_reachesOnly (h : MemReach K s t) : ReachesOnly K s (.next t) :=
  ⟨fun _ e => Host.Outcome.next.inj e ▸ h⟩

theorem fault_reachesOnly (f : Fault) : ReachesOnly K s (.fault f) :=
  ⟨fun _ h => nomatch h⟩

/-- R408 step 4: the unknown-effect check in front of an operation's reads. -/
theorem check_reachesOnly {b : Bool} {f : Fault} {o : Result} (h : ReachesOnly K s o) :
    ReachesOnly K s (if b then .fault f else o) := by
  cases b with
  | false => exact h
  | true => exact fault_reachesOnly f

/-- An outcome that leaves memory, port, requests and parameters alone: a fault status, or a commit of
registers and flags. -/
theorem quiet_reachesOnly (hm : t.mem = s.mem) (hr : t.requests = s.requests)
    (hp : t.port = s.port) (ha : t.params = s.params) : ReachesOnly K s (.next t) :=
  next_reachesOnly (.of_eq hm hr hp ha)

theorem raise_reachesOnly (st : Status) : ReachesOnly K s (raise st s) :=
  quiet_reachesOnly rfl rfl rfl rfl

theorem complete_reachesOnly (h : MemReach K s t) : ReachesOnly K s t.complete :=
  next_reachesOnly (h.setStatus _)

/-- The multiplexer (R172) makes no request of its own. -/
theorem gate_reachesOnly {c : Suffix} {body : State → Result}
    (h : ReachesOnly K s.begin (body s.begin)) : ReachesOnly K s.begin (gate c s body) := by
  refine ⟨fun t ht => ?_⟩
  rcases gate_next ht with hb | ⟨st, rfl⟩
  · exact h.reach t hb
  · exact .of_eq rfl rfl rfl rfl

end

/-! ## Operations that do not reach memory

After the unknown-effect check each body either commits registers and flags or records a fault status;
neither touches the memory side. -/

section
variable {K : Request → Prop} (opc : BitVec 6) (sf : Bool) (rd rn rm : Reg) (o : Op2)
  (lsb : BitVec 5) (width : BitVec 6) (s : State)

theorem logical3_reachesOnly (f : Word → Word → Word) :
    ReachesOnly K s (logical3 opc f sf rd rn o s) := by
  unfold logical3
  refine check_reachesOnly ?_
  split <;> exact quiet_reachesOnly rfl rfl rfl rfl

theorem logical2_reachesOnly (f : Word → Word) : ReachesOnly K s (logical2 opc f sf rd o s) := by
  unfold logical2
  refine check_reachesOnly ?_
  split <;> exact quiet_reachesOnly rfl rfl rfl rfl

theorem additive3_reachesOnly (f : Word → Word → Word × Bool × Bool) :
    ReachesOnly K s (additive3 opc f sf rd rn o s) := by
  unfold additive3
  refine check_reachesOnly ?_
  split <;> exact quiet_reachesOnly rfl rfl rfl rfl

theorem sbcBody_reachesOnly : ReachesOnly K s (sbcBody sf rd rn o s) := by
  unfold sbcBody
  refine check_reachesOnly ?_
  split <;> exact quiet_reachesOnly rfl rfl rfl rfl

theorem negBody_reachesOnly : ReachesOnly K s (negBody sf rd rm s) := by
  unfold negBody
  split <;> exact quiet_reachesOnly rfl rfl rfl rfl

theorem comparison_reachesOnly (f : Word → Word → Carry → Flags → Flags) :
    ReachesOnly K s (comparison opc f rn o s) := by
  unfold comparison
  refine check_reachesOnly ?_
  split <;> exact quiet_reachesOnly rfl rfl rfl rfl

theorem packed_reachesOnly (f : Word → Word → Config.Params → Flags → Word × Flags) :
    ReachesOnly K s (packed opc f rd rn rm s) := by
  unfold packed
  refine check_reachesOnly ?_
  split <;> exact quiet_reachesOnly rfl rfl rfl rfl

theorem mlaBody_reachesOnly (ra : Reg) : ReachesOnly K s (mlaBody sf rd rn rm ra s) := by
  unfold mlaBody
  refine check_reachesOnly ?_
  split <;> exact quiet_reachesOnly rfl rfl rfl rfl

theorem mulLong_reachesOnly (f : Word → Word → DWord) (hi : Reg) :
    ReachesOnly K s (mulLong opc f sf rd rn rm hi s) := by
  unfold mulLong
  refine check_reachesOnly ?_
  split <;> exact quiet_reachesOnly rfl rfl rfl rfl

theorem umaalBody_reachesOnly (hi : Reg) : ReachesOnly K s (umaalBody rd rn rm hi s) := by
  unfold umaalBody
  refine check_reachesOnly ?_
  split <;> exact quiet_reachesOnly rfl rfl rfl rfl

theorem mul3_reachesOnly (f : Word → Word → Word) : ReachesOnly K s (mul3 opc f rd rn rm s) := by
  unfold mul3
  refine check_reachesOnly ?_
  split <;> exact quiet_reachesOnly rfl rfl rfl rfl

theorem sbfxBody_reachesOnly : ReachesOnly K s (sbfxBody rd rn lsb width s) := by
  unfold sbfxBody
  refine check_reachesOnly ?_
  split <;> exact quiet_reachesOnly rfl rfl rfl rfl

theorem bfcBody_reachesOnly : ReachesOnly K s (bfcBody rd lsb width s) := by
  unfold bfcBody
  refine check_reachesOnly ?_
  split <;> exact quiet_reachesOnly rfl rfl rfl rfl

theorem bfiBody_reachesOnly : ReachesOnly K s (bfiBody rd rn lsb width s) := by
  unfold bfiBody
  refine check_reachesOnly ?_
  split <;> exact quiet_reachesOnly rfl rfl rfl rfl

theorem movtBody_reachesOnly (imm16 : BitVec 16) : ReachesOnly K s (movtBody rd imm16 s) := by
  unfold movtBody
  refine check_reachesOnly ?_
  split <;> exact quiet_reachesOnly rfl rfl rfl rfl

theorem saturateTo_reachesOnly (kind : SatKind) (sh : SatShift) (n : BitVec 6) :
    ReachesOnly K s (saturateTo opc kind rd rn sh n width s) := by
  unfold saturateTo
  refine check_reachesOnly ?_
  split <;> exact quiet_reachesOnly rfl rfl rfl rfl

theorem reversal_reachesOnly (f : Word → Word) : ReachesOnly K s (reversal opc f rd rm s) := by
  unfold reversal
  refine check_reachesOnly ?_
  split <;> exact quiet_reachesOnly rfl rfl rfl rfl

end

/-! ## Loads and stores -/

/-- R45: a request that succeeds may be issued. -/
theorem issue_ok_reach {K : Request → Prop} {r : Request} {s s' : State} {d : Option Word}
    (hK : K r) (h : issue r s = .ok (d, s')) : MemReach K s s' := by
  rcases issue_cases r s with ⟨-, e⟩ | ⟨-, -, e⟩ | ⟨-, -, e⟩ | ⟨hr, -, e⟩ | ⟨d', hr, -, e⟩
  · exact nomatch e.symm.trans h
  · exact nomatch e.symm.trans h
  · exact nomatch e.symm.trans h
  · cases e.symm.trans h
    exact .issued hK hr
  · cases e.symm.trans h
    exact .issued hK hr

/-- R405, R407: a request that ends the operation was refused for its alignment, or was made and
answered with an abort. -/
theorem issue_error_reachesOnly {K : Request → Prop} {r : Request} {s : State} {o : Result}
    (hK : K r) (h : issue r s = .error o) : ReachesOnly K s o := by
  rcases issue_cases r s with ⟨-, e⟩ | ⟨hr, -, e⟩ | ⟨-, -, e⟩ | ⟨-, -, e⟩ | ⟨d, -, -, e⟩
  · cases e.symm.trans h
    exact raise_reachesOnly _
  · cases e.symm.trans h
    exact next_reachesOnly ((MemReach.issued hK hr).setStatus _)
  · cases e.symm.trans h
    exact fault_reachesOnly _
  · exact nomatch e.symm.trans h
  · exact nomatch e.symm.trans h

/-- What a run of writes does, whether all are served or one ends the operation. -/
structure WritesOnly (s : State) (x : Except Result State) : Prop where
  error : ∀ o, x = .error o → ReachesOnly Request.IsWrite s o
  ok : ∀ t, x = .ok t → MemReach Request.IsWrite s t

theorem memWriteWord_writesOnly (a v : Word) (s : State) : WritesOnly s (memWriteWord a v s) where
  error _ h := issue_error_reachesOnly (r := .writeWord a v) trivial (memWriteWord_error h)
  ok t h := by
    unfold memWriteWord at h
    split at h
    · cases h
    · next e =>
      cases h
      exact (issue_ok_reach trivial e).writeBytes (r := .writeWord a v) trivial trivial

theorem memWriteHalf_writesOnly (a : Word) (v : Half) (s : State) :
    WritesOnly s (memWriteHalf a v s) where
  error _ h := issue_error_reachesOnly (r := .writeHalf a v) trivial (memWriteHalf_error h)
  ok t h := by
    unfold memWriteHalf at h
    split at h
    · cases h
    · next e =>
      cases h
      exact (issue_ok_reach trivial e).writeBytes (r := .writeHalf a v) trivial trivial

/-- A run of writes that starts after others. -/
theorem WritesOnly.after {s t : State} {x : Except Result State} (h : WritesOnly t x)
    (hst : MemReach Request.IsWrite s t) : WritesOnly s x where
  error o e := ⟨fun u hu => hst.trans ((h.error o e).reach u hu)⟩
  ok u e := hst.trans (h.ok u e)

theorem memWriteWords_writesOnly (vs : List Word) (a : Word) (s : State) :
    WritesOnly s (memWriteWords vs a s) := by
  induction vs generalizing a s with
  | nil =>
    refine ⟨fun _ h => (nomatch h), fun t h => ?_⟩
    cases h
    exact .of_eq rfl rfl rfl rfl
  | cons v vs ih =>
    have hv := memWriteWord_writesOnly a v s
    unfold memWriteWords
    split
    · next o e => exact ⟨fun _ h => Except.error.inj h ▸ hv.error o e, fun _ h => nomatch h⟩
    · next s' e => exact (ih (a + 4) s').after (hv.ok s' e)

/-- R290 steps 4 and 5: the commit after the requests touches registers only. -/
theorem afterRequests_reachesOnly {s : State} {x : Except Result State} {commit : State → State}
    (h : WritesOnly s x)
    (hc : ∀ t, MemReach Request.IsWrite s t → MemReach Request.IsWrite s (commit t)) :
    ReachesOnly Request.IsWrite s (afterRequests x commit) := by
  rcases afterRequests_cases x commit with ⟨o, hx, e⟩ | ⟨t, hx, e⟩
  · exact e ▸ h.error o hx
  · exact e ▸ complete_reachesOnly (hc t (h.ok t hx))

theorem memReadWord_ok_reach {a d : Word} {v : Bool} {s s' : State}
    (h : memReadWord a v s = .ok (d, s')) : MemReach (fun r => ¬ r.IsWrite) s s' := by
  unfold memReadWord at h
  split at h
  · cases h
  · next e =>
    cases h
    exact issue_ok_reach id e
  · next e =>
    cases h
    exact issue_ok_reach id e

section
variable (rt rn : Reg) (u : Bool) (idx : Index) (s : State)

theorem strBody_reachesOnly (off : Off2) :
    ReachesOnly Request.IsWrite s (strBody rt rn u idx off s) := by
  unfold strBody
  refine check_reachesOnly ?_
  split
  · exact afterRequests_reachesOnly (memWriteWord_writesOnly ..) fun _ h => h.writeBack rn _
  · exact raise_reachesOnly _

theorem strhBody_reachesOnly (off : Off3) :
    ReachesOnly Request.IsWrite s (strhBody rt rn u idx off s) := by
  unfold strhBody
  refine check_reachesOnly ?_
  split
  · exact afterRequests_reachesOnly (memWriteHalf_writesOnly ..) fun _ h => h.writeBack rn _
  · exact raise_reachesOnly _

theorem strdBody_reachesOnly (off : Off3) :
    ReachesOnly Request.IsWrite s (strdBody rt rn u idx off s) := by
  unfold strdBody
  refine check_reachesOnly ?_
  split
  · exact afterRequests_reachesOnly (memWriteWords_writesOnly ..) fun _ h => h.writeBack rn _
  · exact raise_reachesOnly _

theorem stmBody_reachesOnly (list : BitVec 16) (am : BlockMode) (w : Bool) :
    ReachesOnly Request.IsWrite s (stmBody rn list am w s) := by
  unfold stmBody
  refine check_reachesOnly ?_
  split
  · refine afterRequests_reachesOnly (memWriteWords_writesOnly ..) fun t h => ?_
    cases w with
    | false => exact h
    | true => exact h.writeReg rn _
  · exact raise_reachesOnly _

theorem ldrtBody_reachesOnly (off : Off2) :
    ReachesOnly (fun r => ¬ r.IsWrite) s (ldrtBody rt rn u off s) := by
  unfold ldrtBody
  refine check_reachesOnly ?_
  split
  · split
    · next h => exact issue_error_reachesOnly id (memReadWord_error h)
    · next h =>
      exact complete_reachesOnly (((memReadWord_ok_reach h).writeReg rt _).writeBack rn _)
  · exact raise_reachesOnly _

end

/-! ## Every operation -/

/-- An operation reaches memory only by the requests of its kind: its body does. -/
theorem exec_reachesOnly (i : Instr) (s : State) :
    ReachesOnly (requestsOf i) s.begin (exec i s) := by
  cases i with
  | and | eor | orr | orn | bic => exact gate_reachesOnly (logical3_reachesOnly ..)
  | mov | mvn => exact gate_reachesOnly (logical2_reachesOnly ..)
  | add | sub => exact gate_reachesOnly (additive3_reachesOnly ..)
  | sbc => exact gate_reachesOnly (sbcBody_reachesOnly ..)
  | neg => exact gate_reachesOnly (negBody_reachesOnly ..)
  | cmp | tst => exact gate_reachesOnly (comparison_reachesOnly ..)
  | qadd16 | qasx | uqsax | uhasx | uadd16 | shadd16 | uhsub8 =>
    exact gate_reachesOnly (packed_reachesOnly ..)
  | mla => exact gate_reachesOnly (mlaBody_reachesOnly ..)
  | smull | umull => exact gate_reachesOnly (mulLong_reachesOnly ..)
  | umaal => exact gate_reachesOnly (umaalBody_reachesOnly ..)
  | smmul | smmulr | smulwb | smulwt => exact gate_reachesOnly (mul3_reachesOnly ..)
  | str => exact gate_reachesOnly (strBody_reachesOnly ..)
  | strh => exact gate_reachesOnly (strhBody_reachesOnly ..)
  | strd => exact gate_reachesOnly (strdBody_reachesOnly ..)
  | ldrt => exact gate_reachesOnly (ldrtBody_reachesOnly ..)
  | stm => exact gate_reachesOnly (stmBody_reachesOnly ..)
  | sbfx => exact gate_reachesOnly (sbfxBody_reachesOnly ..)
  | bfc => exact gate_reachesOnly (bfcBody_reachesOnly ..)
  | bfi => exact gate_reachesOnly (bfiBody_reachesOnly ..)
  | movt => exact gate_reachesOnly (movtBody_reachesOnly ..)
  | ssat | usat => exact gate_reachesOnly (saturateTo_reachesOnly ..)
  | rev | revsh | rbit => exact gate_reachesOnly (reversal_reachesOnly ..)

/-- The memory side of an operation that answers a next state. -/
theorem exec_reach {i : Instr} {s t : State} (h : exec i s = .next t) :
    MemReach (requestsOf i) s.begin t :=
  (exec_reachesOnly i s).reach t h

/-- An operation's requests are of its kind, and each may be issued (R45). -/
theorem exec_requests {i : Instr} {s t : State} (h : exec i s = .next t) :
    ∀ r ∈ t.requests, requestsOf i r ∧ r.mayIssue s.params.alignPolicy = true := by
  obtain ⟨rs, hrs, -, hK⟩ := (exec_reach h).made
  rw [State.begin_requests, List.nil_append] at hrs
  exact hrs ▸ hK

/-! ## The step -/

/-- R81, R403, R420, R453: a step that answers a next state was idle, ended its word `Illegal`, or ran an
operation. -/
theorem step_next {s t : State} (h : step s = .next t) :
    t = s ∨ ∃ op rest, s.presented = op :: rest ∧
      (t = { (s.take op rest).begin with status := some (.illegal op.opw) } ∨
        ∃ i, accepted s.params op.opw = some i ∧ exec i (s.take op rest) = .next t) := by
  unfold step at h
  split at h
  · cases h
    exact .inl rfl
  · next op rest hp =>
    refine .inr ⟨op, rest, hp, ?_⟩
    split at h
    · next i ha => exact .inr ⟨i, ha, h⟩
    · cases h
      exact .inl rfl

/-- Settles O57: an operation keeps the canonical form since each write of bytes does; the other steps
leave memory as it is. -/
theorem stepKeepsInv : Obligations.StepKeepsInv := by
  intro s t hs h
  rcases step_next h with rfl | ⟨op, rest, -, rfl | ⟨i, -, hi⟩⟩
  · exact hs
  · exact hs
  · exact (exec_reach hi).wf hs

/-- Settles O58: the empty memory of reset is canonical. -/
theorem resetHasInv : Obligations.ResetHasInv := Memory.wf_nil

/-! ## Alignment -/

/-- R45: low address bits that are zero, as divisibility. -/
theorem toNat_mod_of_extract_zero {w : Nat} {a : BitVec w} {k : Nat}
    (h : (a.extractLsb' 0 k == 0) = true) : a.toNat % 2 ^ k = 0 := by
  simpa using congrArg BitVec.toNat (beq_iff_eq.1 h)

/-- Settles O52: under the fault policy a request that may be issued is aligned at its width. -/
theorem issuedRequestsAligned : Obligations.IssuedRequestsAligned := by
  intro i s t hpolicy h r hr
  obtain ⟨-, hissue⟩ := exec_requests h r hr
  rw [hpolicy] at hissue
  cases r with
  | writeHalf a v => exact toNat_mod_of_extract_zero (k := 1) hissue
  | writeWord a v => exact toNat_mod_of_extract_zero (k := 2) hissue
  | readWord a v => exact toNat_mod_of_extract_zero (k := 2) hissue

/-! ## What stays of memory -/

/-- A stretch in which no request is allowed leaves requests, port and memory as they are. -/
theorem MemReach.of_none {K : Request → Prop} {s t : State} (h : MemReach K s t)
    (hK : ∀ r, ¬ K r) : t.requests = s.requests ∧ t.port = s.port ∧ t.mem = s.mem := by
  obtain ⟨rs, hreqs, hport, hmade⟩ := h.made
  have hrs : rs = [] := List.eq_nil_iff_forall_not_mem.2 fun r hr => hK r (hmade r hr).1
  subst hrs
  exact ⟨by simpa using hreqs, hport, h.mem fun r hr => absurd hr (hK r)⟩

/-- Settles O56: an operation outside R40's list makes no request, and LDRT makes no write. -/
theorem memoryFrame : Obligations.MemoryFrame := by
  intro i s t h
  refine ⟨fun hi => (exec_reach h).of_none (not_requestsOf hi), fun hopc => ?_⟩
  exact (exec_reach h).mem fun r => not_isWrite_of_opc_ldrt hopc

end Sys2Proof.Machine
end

section
/-! PROOFS. The decoder and the encoder undo each other (spec/30_encoding.md R61-R86): each format's
decoder accepts exactly the fields its encoder fills. -/

namespace Sys2Proof

/-! ## The fields of `imm`, joined again (R62-R69) -/

section
variable (x : BitVec 32)

theorem dpImm_join (h : x.extractLsb' 12 20 = 0#20) :
    0#20 ++ x.extractLsb' 8 4 ++ x.extractLsb' 0 8 = x := by
  rw [← h, extract_join x 8 4 20, extract_join x 0 8 24, extract_self]

theorem dpReg_join (h : x.extractLsb' 6 26 = 0#26) : 0#26 ++ x.extractLsb' 0 6 = x := by
  rw [← h, extract_join x 0 6 26, extract_self]

theorem mem2Imm_join (h : x.extractLsb' 12 17 = 0#17) :
    BitVec.ofBool (x.getLsbD 31) ++ x.extractLsb' 29 2 ++ 0#17 ++ x.extractLsb' 0 12 = x := by
  rw [← h, ofBool_getLsbD, extract_join x 29 2 1, extract_join x 12 17 3, extract_join x 0 12 20,
    extract_self]

theorem mem2Reg_join (h : x.extractLsb' 6 23 = 0#23) :
    BitVec.ofBool (x.getLsbD 31) ++ x.extractLsb' 29 2 ++ 0#23 ++ x.extractLsb' 0 6 = x := by
  rw [← h, ofBool_getLsbD, extract_join x 29 2 1, extract_join x 6 23 3, extract_join x 0 6 26,
    extract_self]

theorem mem3Imm_join (h : x.extractLsb' 8 21 = 0#21) :
    BitVec.ofBool (x.getLsbD 31) ++ x.extractLsb' 29 2 ++ 0#21 ++ x.extractLsb' 0 8 = x := by
  rw [← h, ofBool_getLsbD, extract_join x 29 2 1, extract_join x 8 21 3, extract_join x 0 8 24,
    extract_self]

theorem mem3Reg_join (h : x.extractLsb' 0 29 = 0#29) :
    BitVec.ofBool (x.getLsbD 31) ++ x.extractLsb' 29 2 ++ 0#29 = x := by
  rw [← h, ofBool_getLsbD, extract_join x 29 2 1, extract_join x 0 29 3, extract_self]

theorem mem4_join (h : x.extractLsb' 19 13 = 0#13) :
    0#13 ++ BitVec.ofBool (x.getLsbD 18) ++ x.extractLsb' 16 2 ++ x.extractLsb' 0 16 = x := by
  rw [← h, ofBool_getLsbD, extract_join x 18 1 13, extract_join x 16 2 14, extract_join x 0 16 16,
    extract_self]

theorem bf_join (h : x.extractLsb' 14 18 = 0#18) (h' : x.extractLsb' 5 3 = 0#3) :
    0#18 ++ x.extractLsb' 8 6 ++ 0#3 ++ x.extractLsb' 0 5 = x := by
  rw [← h, ← h', extract_join x 8 6 18, extract_join x 5 3 24, extract_join x 0 5 27, extract_self]

theorem imm16_join (h : x.extractLsb' 16 16 = 0#16) : 0#16 ++ x.extractLsb' 0 16 = x := by
  rw [← h, extract_join x 0 16 16, extract_self]

theorem sat_join (h : x.extractLsb' 14 18 = 0#18) (h' : x.extractLsb' 6 2 = 0#2) :
    0#18 ++ x.extractLsb' 8 6 ++ 0#2 ++ x.extractLsb' 0 6 = x := by
  rw [← h, ← h', extract_join x 8 6 18, extract_join x 6 2 24, extract_join x 0 6 26, extract_self]

end

/-! ## Suffix and operands -/

/-- R84: the fields that carry a suffix. -/
theorem decodeSuffix_eq_ok {f : Fields} {c : Suffix} :
    decodeSuffix f = .ok c ↔ f.p = c.isSome ∧ f.cond = (baseFields c 0 false).cond := by
  obtain ⟨cond, p, _⟩ := f
  cases p with
  | false => cases c <;> simp [decodeSuffix, baseFields, except_bind_ok]
  | true =>
    cases c with
    | none => simp [decodeSuffix]
    | some k =>
      simp only [decodeSuffix, baseFields, if_true, Option.isSome_some, true_and,
        Except.ok.injEq, Option.some.injEq]
      exact ⟨fun h => h ▸ (bits_condOfBits cond).symm, fun h => h ▸ condOfBits_bits k⟩

/-- The fields of a word with those that hold an operand set to zero. -/
def Fields.clear (f : Fields) : Fields := { f with rm := 0, rs := 0, sh := 0, form := 0, imm := 0 }

/-- Outside its operands a word with a suffix is `baseFields` with its registers. -/
theorem clear_eq_of_decodeSuffix {f : Fields} {c : Suffix} (h : decodeSuffix f = .ok c) :
    f.clear = { baseFields c f.opc f.s with rd := f.rd, rn := f.rn } := by
  obtain ⟨hp, hcond⟩ := decodeSuffix_eq_ok.1 h
  simp [Fields.clear, baseFields, hp, hcond]

/-- R65: the index mode is that of its code. -/
theorem decodeIndex_eq_ok {f : Fields} {idx : Index} :
    decodeIndex f = .ok idx ↔ f.imm.extractLsb' 29 2 = idx.bits := by
  refine ⟨fun h => ?_, decodeIndex_of_bits⟩
  unfold decodeIndex at h
  split at h <;> cases h <;> apply BitVec.eq_of_toNat_eq <;> assumption

/-- A number of two bits. -/
theorem bitVec2_cases (b : BitVec 2) : b = 0 ∨ b = 1 ∨ b = 2 ∨ b = 3 := by
  revert b; decide

section
variable {f : Fields}

/-- R62, form IMM. -/
theorem decodeOp2_imm_eq_ok {o : Op2} (h : f.form = 0) : decodeOp2 f = .ok o ↔
    (f.rm = 0 ∧ f.rs = 0 ∧ f.sh = 0 ∧ f.imm.extractLsb' 12 20 = 0) ∧
      .imm (f.imm.extractLsb' 0 8) (f.imm.extractLsb' 8 4) = o := by
  simp [decodeOp2, h, except_bind_ok, and_assoc]

/-- R62, form REG_IMM. -/
theorem decodeOp2_regImm_eq_ok {o : Op2} (h : f.form = 1) : decodeOp2 f = .ok o ↔
    (f.rs = 0 ∧ f.imm.extractLsb' 6 26 = 0) ∧
      (shiftOfBits f.sh).amountOk (f.imm.extractLsb' 0 6) = true ∧
      .regImm f.rm.toFin (shiftOfBits f.sh) (f.imm.extractLsb' 0 6) = o := by
  simp [decodeOp2, h, except_bind_ok]

/-- R62, form REG_REG. -/
theorem decodeOp2_regReg_eq_ok {o : Op2} (h : f.form = 2) : decodeOp2 f = .ok o ↔
    f.imm = 0 ∧ .regReg f.rm.toFin (shiftOfBits f.sh) f.rs.toFin = o := by
  simp [decodeOp2, h, except_bind_ok]

/-- R62, form RRX. -/
theorem decodeOp2_rrx_eq_ok {o : Op2} (h : f.form = 3) : decodeOp2 f = .ok o ↔
    f.sh = 3 ∧ (f.rs = 0 ∧ f.imm = 0) ∧ .rrx f.rm.toFin = o := by
  simp [decodeOp2, h, except_bind_ok]

/-- R65, an immediate offset. -/
theorem decodeOff2_imm_eq_ok {off : Off2} (h : f.form = 0) : decodeOff2 f = .ok off ↔
    (f.rm = 0 ∧ f.rs = 0 ∧ f.sh = 0 ∧ f.imm.extractLsb' 12 17 = 0) ∧
      .imm (f.imm.extractLsb' 0 12) = off := by
  simp [decodeOff2, h, except_bind_ok, and_assoc]

/-- R65, a register offset. -/
theorem decodeOff2_reg_eq_ok {off : Off2} (h : f.form = 1) : decodeOff2 f = .ok off ↔
    (f.rs = 0 ∧ f.imm.extractLsb' 6 23 = 0) ∧
      (shiftOfBits f.sh).amountOk (f.imm.extractLsb' 0 6) = true ∧
      .reg f.rm.toFin (shiftOfBits f.sh) (f.imm.extractLsb' 0 6) = off := by
  simp [decodeOff2, h, except_bind_ok]

/-- R66, an immediate offset. -/
theorem decodeOff3_imm_eq_ok {off : Off3} (h : f.form = 0) : decodeOff3 f = .ok off ↔
    (f.rm = 0 ∧ f.rs = 0 ∧ f.sh = 0 ∧ f.imm.extractLsb' 8 21 = 0) ∧
      .imm (f.imm.extractLsb' 0 8) = off := by
  simp [decodeOff3, h, except_bind_ok, and_assoc]

/-- R66, a register offset. -/
theorem decodeOff3_reg_eq_ok {off : Off3} (h : f.form = 1) : decodeOff3 f = .ok off ↔
    f.sh = 0 ∧ (f.rs = 0 ∧ f.imm.extractLsb' 0 29 = 0) ∧ .reg f.rm.toFin = off := by
  simp [decodeOff3, h, except_bind_ok]

end

/-- R62: what the decoder reads as a shifter operand is well-formed, and it fills the operand's
fields. -/
theorem putOp2_of_decodeOp2 {f : Fields} {o : Op2} (h : decodeOp2 f = .ok o) :
    o.wf = true ∧ putOp2 o f.clear = f := by
  rcases bitVec2_cases f.form with hform | hform | hform | hform
  · obtain ⟨⟨hrm, hrs, hsh, himm⟩, rfl⟩ := (decodeOp2_imm_eq_ok hform).1 h
    have hjoin := dpImm_join f.imm himm
    cases f
    simp_all [Op2.wf, putOp2, Fields.clear]
  · obtain ⟨⟨hrs, himm⟩, hn, rfl⟩ := (decodeOp2_regImm_eq_ok hform).1 h
    have hjoin := dpReg_join f.imm himm
    cases f
    simp_all [Op2.wf, putOp2, Fields.clear, bits_shiftOfBits]
  · obtain ⟨himm, rfl⟩ := (decodeOp2_regReg_eq_ok hform).1 h
    cases f
    simp_all [Op2.wf, putOp2, Fields.clear, bits_shiftOfBits]
  · obtain ⟨hsh, ⟨hrs, himm⟩, rfl⟩ := (decodeOp2_rrx_eq_ok hform).1 h
    cases f
    simp_all [Op2.wf, putOp2, Fields.clear]

/-- R65: the same for a mode-two offset, beside its index mode. -/
theorem putOff2_of_decodeOff2 {f : Fields} {idx : Index} {off : Off2}
    (hidx : f.imm.extractLsb' 29 2 = idx.bits) (h : decodeOff2 f = .ok off) :
    off.wf = true ∧ putOff2 (f.imm.getLsbD 31) idx off f.clear = f := by
  rcases bitVec2_cases f.form with hform | hform | hform | hform
  · obtain ⟨⟨hrm, hrs, hsh, himm⟩, rfl⟩ := (decodeOff2_imm_eq_ok hform).1 h
    have hjoin := mem2Imm_join f.imm himm
    cases f
    simp_all [Off2.wf, putOff2, Fields.clear]
  · obtain ⟨⟨hrs, himm⟩, hn, rfl⟩ := (decodeOff2_reg_eq_ok hform).1 h
    have hjoin := mem2Reg_join f.imm himm
    cases f
    simp_all [Off2.wf, putOff2, Fields.clear, bits_shiftOfBits]
  · simp [decodeOff2, hform] at h
  · simp [decodeOff2, hform] at h

/-- R66: the same for a mode-three offset. -/
theorem putOff3_of_decodeOff3 {f : Fields} {idx : Index} {off : Off3}
    (hidx : f.imm.extractLsb' 29 2 = idx.bits) (h : decodeOff3 f = .ok off) :
    putOff3 (f.imm.getLsbD 31) idx off f.clear = f := by
  rcases bitVec2_cases f.form with hform | hform | hform | hform
  · obtain ⟨⟨hrm, hrs, hsh, himm⟩, rfl⟩ := (decodeOff3_imm_eq_ok hform).1 h
    have hjoin := mem3Imm_join f.imm himm
    cases f
    simp_all [putOff3, Fields.clear]
  · obtain ⟨hsh, ⟨hrs, himm⟩, rfl⟩ := (decodeOff3_reg_eq_ok hform).1 h
    have hjoin := mem3Reg_join f.imm himm
    cases f
    simp_all [putOff3, Fields.clear]
  · simp [decodeOff3, hform] at h
  · simp [decodeOff3, hform] at h

/-! ## Formats -/

section
variable {f : Fields} {opc : BitVec 6} {i : Instr}

/-- R62: the decoder reads a suffix and a well-formed shifter operand back from the fields they were
put into. -/
theorem decodeOp2_of_putOp2 {c : Suffix} {s : Bool} {rd rn : BitVec 4} {o : Op2} (hwf : o.wf = true)
    (hf : putOp2 o { baseFields c opc s with rd, rn } = f) :
    decodeSuffix f = .ok c ∧ decodeOp2 f = .ok o ∧ f.s = s ∧ f.rd = rd ∧ f.rn = rn := by
  subst hf
  refine ⟨?_, decodeOp2_putOp2 o _ hwf rfl rfl rfl rfl, putOp2_s .., putOp2_rd .., putOp2_rn ..⟩
  rw [decodeSuffix_eq_ok, putOp2_p, putOp2_cond]
  exact ⟨rfl, rfl⟩

/-- R65: the same for a mode-two address. -/
theorem decodeOff2_of_putOff2 {c : Suffix} {rd rn : BitVec 4} {u : Bool} {idx : Index} {off : Off2}
    (hwf : off.wf = true) (hf : putOff2 u idx off { baseFields c opc false with rd, rn } = f) :
    decodeSuffix f = .ok c ∧ decodeOff2 f = .ok off ∧ f.imm.extractLsb' 29 2 = idx.bits ∧
      f.imm.getLsbD 31 = u ∧ f.s = false ∧ f.rd = rd ∧ f.rn = rn := by
  subst hf
  obtain ⟨hidx, hu⟩ := putOff2_imm u idx off { baseFields c opc false with rd, rn }
  refine ⟨?_, decodeOff2_putOff2 u idx off _ hwf rfl rfl rfl, hidx, hu, putOff2_s .., putOff2_rd ..,
    putOff2_rn ..⟩
  rw [decodeSuffix_eq_ok, putOff2_p, putOff2_cond]
  exact ⟨rfl, rfl⟩

/-- R66: the same for a mode-three address. -/
theorem decodeOff3_of_putOff3 {c : Suffix} {rd rn : BitVec 4} {u : Bool} {idx : Index} {off : Off3}
    (hf : putOff3 u idx off { baseFields c opc false with rd, rn } = f) :
    decodeSuffix f = .ok c ∧ decodeOff3 f = .ok off ∧ decodeIndex f = .ok idx ∧
      f.imm.getLsbD 31 = u ∧ f.s = false ∧ f.rd = rd ∧ f.rn = rn := by
  subst hf
  obtain ⟨hidx, hu⟩ := putOff3_imm u idx off { baseFields c opc false with rd, rn }
  refine ⟨?_, decodeOff3_putOff3 u idx off _ rfl rfl rfl, decodeIndex_of_bits hidx, hu,
    putOff3_s .., putOff3_rd .., putOff3_rn ..⟩
  rw [decodeSuffix_eq_ok, putOff3_p, putOff3_cond]
  exact ⟨rfl, rfl⟩

/-- R62: AND to BIC, ADD, SUB, SBC. -/
theorem decodeDp3_eq_ok {mk : Suffix → Bool → Reg → Reg → Op2 → Instr} (hopc : f.opc = opc) :
    decodeDp3 mk f = .ok i ↔ ∃ c s rd rn o,
      putOp2 o { baseFields c opc s with rd := regBits rd, rn := regBits rn } = f ∧
        mk c s rd rn o = i ∧ o.wf = true := by
  constructor
  · intro h
    simp only [decodeDp3, except_bind_ok, Except.ok.injEq] at h
    obtain ⟨c, hc, o, ho, rfl⟩ := h
    obtain ⟨hwf, hf⟩ := putOp2_of_decodeOp2 ho
    rw [clear_eq_of_decodeSuffix hc, hopc] at hf
    exact ⟨c, f.s, f.rd.toFin, f.rn.toFin, o, hf, rfl, hwf⟩
  · rintro ⟨c, s, rd, rn, o, hf, rfl, hwf⟩
    obtain ⟨hc, ho, hs, hrd, hrn⟩ := decodeOp2_of_putOp2 hwf hf
    simp [decodeDp3, hc, ho, hs, hrd, hrn, except_bind_ok]

/-- R62: MOV and MVN. -/
theorem decodeDpMove_eq_ok {mk : Suffix → Bool → Reg → Op2 → Instr} (hopc : f.opc = opc) :
    decodeDpMove mk f = .ok i ↔ ∃ c s rd o,
      putOp2 o { baseFields c opc s with rd := regBits rd } = f ∧ mk c s rd o = i ∧
        o.wf = true := by
  constructor
  · intro h
    simp only [decodeDpMove, except_bind_ok, require_ok, exists_const, beq_iff_eq,
      Except.ok.injEq] at h
    obtain ⟨c, hc, hrn, o, ho, rfl⟩ := h
    obtain ⟨hwf, hf⟩ := putOp2_of_decodeOp2 ho
    rw [clear_eq_of_decodeSuffix hc, hopc, hrn] at hf
    exact ⟨c, f.s, f.rd.toFin, o, hf, rfl, hwf⟩
  · rintro ⟨c, s, rd, o, hf, rfl, hwf⟩
    obtain ⟨hc, ho, hs, hrd, hrn⟩ := decodeOp2_of_putOp2 (rn := 0) hwf hf
    simp [decodeDpMove, hc, ho, hs, hrd, hrn, except_bind_ok]

/-- R62: CMP and TST. -/
theorem decodeDpTest_eq_ok {mk : Suffix → Reg → Op2 → Instr} (hopc : f.opc = opc) :
    decodeDpTest mk f = .ok i ↔ ∃ c rn o,
      putOp2 o { baseFields c opc true with rn := regBits rn } = f ∧ mk c rn o = i ∧
        o.wf = true := by
  constructor
  · intro h
    simp only [decodeDpTest, except_bind_ok, require_ok, exists_const, beq_iff_eq,
      Except.ok.injEq] at h
    obtain ⟨c, hc, hs, hrd, o, ho, rfl⟩ := h
    obtain ⟨hwf, hf⟩ := putOp2_of_decodeOp2 ho
    rw [clear_eq_of_decodeSuffix hc, hopc, hs, hrd] at hf
    exact ⟨c, f.rn.toFin, o, hf, rfl, hwf⟩
  · rintro ⟨c, rn, o, hf, rfl, hwf⟩
    obtain ⟨hc, ho, hs, hrd, hrn⟩ := decodeOp2_of_putOp2 (rd := 0) hwf hf
    simp [decodeDpTest, hc, ho, hs, hrd, hrn, except_bind_ok]

/-- R62: NEG. -/
theorem decodeNeg_eq_ok (hopc : f.opc = opc) :
    decodeNeg f = .ok i ↔ ∃ c s rd rm,
      { baseFields c opc s with rd := regBits rd, rm := regBits rm, form := 1 } = f ∧
        .neg c s rd rm = i := by
  constructor
  · intro h
    simp only [decodeNeg, except_bind_ok, require_ok, exists_const, Bool.and_eq_true, beq_iff_eq,
      Except.ok.injEq] at h
    obtain ⟨c, hc, hrn, ⟨hform, hsh⟩, ⟨hrs, himm⟩, rfl⟩ := h
    obtain ⟨hp, hcond⟩ := decodeSuffix_eq_ok.1 hc
    refine ⟨c, f.s, f.rd.toFin, f.rm.toFin, ?_, rfl⟩
    cases f
    simp_all [baseFields]
  · rintro ⟨c, s, rd, rm, rfl, rfl⟩
    exact except_bind_ok.2 ⟨c, decodeSuffix_eq_ok.2 ⟨rfl, rfl⟩, rfl⟩

/-- R63. -/
theorem decodePk_eq_ok {mk : Suffix → Reg → Reg → Reg → Instr} (hopc : f.opc = opc) :
    decodePk mk f = .ok i ↔ ∃ c rd rn rm,
      { baseFields c opc false with rd := regBits rd, rn := regBits rn, rm := regBits rm } = f ∧
        mk c rd rn rm = i := by
  constructor
  · intro h
    simp only [decodePk, noOperandForm, except_bind_ok, require_ok, exists_const,
      Bool.not_eq_true', Bool.and_eq_true, beq_iff_eq, Except.ok.injEq] at h
    obtain ⟨c, hc, hs, ⟨⟨⟨hrs, hsh⟩, hform⟩, himm⟩, rfl⟩ := h
    obtain ⟨hp, hcond⟩ := decodeSuffix_eq_ok.1 hc
    refine ⟨c, f.rd.toFin, f.rn.toFin, f.rm.toFin, ?_, rfl⟩
    cases f
    simp_all [baseFields]
  · rintro ⟨c, rd, rn, rm, rfl, rfl⟩
    exact except_bind_ok.2 ⟨c, decodeSuffix_eq_ok.2 ⟨rfl, rfl⟩, rfl⟩

/-- R64: MLA, SMULL, UMULL. -/
theorem decodeMulS_eq_ok {mk : Suffix → Bool → Reg → Reg → Reg → Reg → Instr} (hopc : f.opc = opc) :
    decodeMulS mk f = .ok i ↔ ∃ c s rd rn rm rs,
      { baseFields c opc s with
        rd := regBits rd, rn := regBits rn, rm := regBits rm, rs := regBits rs } = f ∧
        mk c s rd rn rm rs = i := by
  constructor
  · intro h
    simp only [decodeMulS, except_bind_ok, require_ok, exists_const, Bool.and_eq_true, beq_iff_eq,
      Except.ok.injEq] at h
    obtain ⟨c, hc, ⟨⟨hsh, hform⟩, himm⟩, rfl⟩ := h
    obtain ⟨hp, hcond⟩ := decodeSuffix_eq_ok.1 hc
    refine ⟨c, f.s, f.rd.toFin, f.rn.toFin, f.rm.toFin, f.rs.toFin, ?_, rfl⟩
    cases f
    simp_all [baseFields]
  · rintro ⟨c, s, rd, rn, rm, rs, rfl, rfl⟩
    exact except_bind_ok.2 ⟨c, decodeSuffix_eq_ok.2 ⟨rfl, rfl⟩, rfl⟩

/-- R64: UMAAL. -/
theorem decodeUmaal_eq_ok (hopc : f.opc = opc) :
    decodeUmaal f = .ok i ↔ ∃ c rdLo rn rm rdHi,
      { baseFields c opc false with
        rd := regBits rdLo, rn := regBits rn, rm := regBits rm, rs := regBits rdHi } = f ∧
        .umaal c rdLo rn rm rdHi = i := by
  constructor
  · intro h
    simp only [decodeUmaal, except_bind_ok, require_ok, exists_const, Bool.not_eq_true',
      Bool.and_eq_true, beq_iff_eq, Except.ok.injEq] at h
    obtain ⟨c, hc, hs, ⟨⟨hsh, hform⟩, himm⟩, rfl⟩ := h
    obtain ⟨hp, hcond⟩ := decodeSuffix_eq_ok.1 hc
    refine ⟨c, f.rd.toFin, f.rn.toFin, f.rm.toFin, f.rs.toFin, ?_, rfl⟩
    cases f
    simp_all [baseFields]
  · rintro ⟨c, rdLo, rn, rm, rdHi, rfl, rfl⟩
    exact except_bind_ok.2 ⟨c, decodeSuffix_eq_ok.2 ⟨rfl, rfl⟩, rfl⟩

/-- R64: SMMUL, SMMULR, SMULWB, SMULWT. -/
theorem decodeMul3_eq_ok {mk : Suffix → Reg → Reg → Reg → Instr} (hopc : f.opc = opc) :
    decodeMul3 mk f = .ok i ↔ ∃ c rd rn rm,
      { baseFields c opc false with rd := regBits rd, rn := regBits rn, rm := regBits rm } = f ∧
        mk c rd rn rm = i := by
  constructor
  · intro h
    simp only [decodeMul3, except_bind_ok, require_ok, exists_const, Bool.not_eq_true',
      Bool.and_eq_true, beq_iff_eq, Except.ok.injEq] at h
    obtain ⟨c, hc, hs, hrs, ⟨⟨hsh, hform⟩, himm⟩, rfl⟩ := h
    obtain ⟨hp, hcond⟩ := decodeSuffix_eq_ok.1 hc
    refine ⟨c, f.rd.toFin, f.rn.toFin, f.rm.toFin, ?_, rfl⟩
    cases f
    simp_all [baseFields]
  · rintro ⟨c, rd, rn, rm, rfl, rfl⟩
    exact except_bind_ok.2 ⟨c, decodeSuffix_eq_ok.2 ⟨rfl, rfl⟩, rfl⟩

/-- R65: STR. -/
theorem decodeStr_eq_ok (hopc : f.opc = opc) :
    decodeStr f = .ok i ↔ ∃ c rt rn u idx off,
      putOff2 u idx off { baseFields c opc false with rd := regBits rt, rn := regBits rn } = f ∧
        .str c rt rn u idx off = i ∧ off.wf = true := by
  constructor
  · intro h
    simp only [decodeStr, except_bind_ok, require_ok, exists_const, Bool.not_eq_true',
      Except.ok.injEq] at h
    obtain ⟨c, hc, hs, idx, hidx, off, hoff, rfl⟩ := h
    obtain ⟨hwf, hf⟩ := putOff2_of_decodeOff2 (decodeIndex_eq_ok.1 hidx) hoff
    rw [clear_eq_of_decodeSuffix hc, hopc, hs] at hf
    exact ⟨c, f.rd.toFin, f.rn.toFin, _, idx, off, hf, rfl, hwf⟩
  · rintro ⟨c, rt, rn, u, idx, off, hf, rfl, hwf⟩
    obtain ⟨hc, hoff, hidx, rfl, hs, hrd, hrn⟩ := decodeOff2_of_putOff2 hwf hf
    simp [decodeStr, hc, hoff, decodeIndex_of_bits hidx, hs, hrd, hrn, except_bind_ok]

/-- R65: LDRT, whose index mode is post-indexed. -/
theorem decodeLdrt_eq_ok (hopc : f.opc = opc) :
    decodeLdrt f = .ok i ↔ ∃ c rt rn u off,
      putOff2 u .post off { baseFields c opc false with rd := regBits rt, rn := regBits rn } = f ∧
        .ldrt c rt rn u off = i ∧ off.wf = true := by
  constructor
  · intro h
    simp only [decodeLdrt, except_bind_ok, require_ok, exists_const, Bool.not_eq_true', beq_iff_eq,
      Except.ok.injEq] at h
    obtain ⟨c, hc, hs, hidx, off, hoff, rfl⟩ := h
    obtain ⟨hwf, hf⟩ := putOff2_of_decodeOff2 (idx := .post) hidx hoff
    rw [clear_eq_of_decodeSuffix hc, hopc, hs] at hf
    exact ⟨c, f.rd.toFin, f.rn.toFin, _, off, hf, rfl, hwf⟩
  · rintro ⟨c, rt, rn, u, off, hf, rfl, hwf⟩
    obtain ⟨hc, hoff, hidx, rfl, hs, hrd, hrn⟩ := decodeOff2_of_putOff2 hwf hf
    simp [decodeLdrt, hc, hoff, hidx, hs, hrd, hrn, except_bind_ok, Index.bits]

/-- R66: STRH and STRD. -/
theorem decodeMem3_eq_ok {mk : Suffix → Reg → Reg → Bool → Index → Off3 → Instr}
    (hopc : f.opc = opc) :
    decodeMem3 mk f = .ok i ↔ ∃ c rt rn u idx off,
      putOff3 u idx off { baseFields c opc false with rd := regBits rt, rn := regBits rn } = f ∧
        mk c rt rn u idx off = i := by
  constructor
  · intro h
    simp only [decodeMem3, except_bind_ok, require_ok, exists_const, Bool.not_eq_true',
      Except.ok.injEq] at h
    obtain ⟨c, hc, hs, idx, hidx, off, hoff, rfl⟩ := h
    have hf := putOff3_of_decodeOff3 (decodeIndex_eq_ok.1 hidx) hoff
    rw [clear_eq_of_decodeSuffix hc, hopc, hs] at hf
    exact ⟨c, f.rd.toFin, f.rn.toFin, _, idx, off, hf, rfl⟩
  · rintro ⟨c, rt, rn, u, idx, off, hf, rfl⟩
    obtain ⟨hc, hoff, hidx, rfl, hs, hrd, hrn⟩ := decodeOff3_of_putOff3 hf
    simp [decodeMem3, hc, hoff, hidx, hs, hrd, hrn, except_bind_ok]

/-- R67. -/
theorem decodeStm_eq_ok (hopc : f.opc = opc) :
    decodeStm f = .ok i ↔ ∃ c rn list am w,
      { baseFields c opc false with
        rn := regBits rn, imm := 0#13 ++ BitVec.ofBool w ++ am.bits ++ list } = f ∧
        .stm c rn list am w = i := by
  constructor
  · intro h
    simp only [decodeStm, except_bind_ok, require_ok, exists_const, Bool.not_eq_true',
      Bool.and_eq_true, beq_iff_eq, Except.ok.injEq] at h
    obtain ⟨c, hc, hs, ⟨⟨⟨⟨⟨hrd, hrm⟩, hrs⟩, hsh⟩, hform⟩, himm⟩, rfl⟩ := h
    obtain ⟨hp, hcond⟩ := decodeSuffix_eq_ok.1 hc
    have hjoin := mem4_join f.imm himm
    refine ⟨c, f.rn.toFin, _, _, _, ?_, rfl⟩
    cases f
    simp_all [baseFields, bits_blockModeOfBits]
  · rintro ⟨c, rn, list, am, w, rfl, rfl⟩
    obtain ⟨hzero, hlist, ham, hw⟩ := mem4_fields w am.bits list
    refine except_bind_ok.2 ⟨c, decodeSuffix_eq_ok.2 ⟨rfl, rfl⟩, ?_⟩
    simp [-BitVec.getLsbD_eq_getElem, baseFields, hzero, hlist, ham, hw, except_bind_ok]

/-- R68: SBFX and BFI. -/
theorem decodeBf_eq_ok {mk : Suffix → Reg → Reg → BitVec 5 → BitVec 6 → Instr}
    (hopc : f.opc = opc) :
    decodeBf mk f = .ok i ↔ ∃ c rd rn lsb width,
      { baseFields c opc false with
        rd := regBits rd, rn := regBits rn, imm := 0#18 ++ width ++ 0#3 ++ lsb } = f ∧
        mk c rd rn lsb width = i := by
  constructor
  · intro h
    simp only [decodeBf, bfUnusedZero, except_bind_ok, require_ok, exists_const, Bool.not_eq_true',
      Bool.and_eq_true, beq_iff_eq, Except.ok.injEq] at h
    obtain ⟨c, hc, hs, ⟨⟨⟨⟨⟨hrm, hrs⟩, hsh⟩, hform⟩, htop⟩, hmid⟩, rfl⟩ := h
    obtain ⟨hp, hcond⟩ := decodeSuffix_eq_ok.1 hc
    have hjoin := bf_join f.imm htop hmid
    refine ⟨c, f.rd.toFin, f.rn.toFin, _, _, ?_, rfl⟩
    cases f
    simp_all [baseFields]
  · rintro ⟨c, rd, rn, lsb, width, rfl, rfl⟩
    obtain ⟨htop, hmid, hlsb, hwidth⟩ := bf_fields width lsb
    refine except_bind_ok.2 ⟨c, decodeSuffix_eq_ok.2 ⟨rfl, rfl⟩, ?_⟩
    simp [baseFields, bfUnusedZero, htop, hmid, hlsb, hwidth, except_bind_ok]

/-- R68: BFC. -/
theorem decodeBfc_eq_ok (hopc : f.opc = opc) :
    decodeBfc f = .ok i ↔ ∃ c rd lsb width,
      { baseFields c opc false with rd := regBits rd, imm := 0#18 ++ width ++ 0#3 ++ lsb } = f ∧
        .bfc c rd lsb width = i := by
  constructor
  · intro h
    simp only [decodeBfc, bfUnusedZero, except_bind_ok, require_ok, exists_const,
      Bool.not_eq_true', Bool.and_eq_true, beq_iff_eq, Except.ok.injEq] at h
    obtain ⟨c, hc, hs, hrn, ⟨⟨⟨⟨⟨hrm, hrs⟩, hsh⟩, hform⟩, htop⟩, hmid⟩, rfl⟩ := h
    obtain ⟨hp, hcond⟩ := decodeSuffix_eq_ok.1 hc
    have hjoin := bf_join f.imm htop hmid
    refine ⟨c, f.rd.toFin, _, _, ?_, rfl⟩
    cases f
    simp_all [baseFields]
  · rintro ⟨c, rd, lsb, width, rfl, rfl⟩
    obtain ⟨htop, hmid, hlsb, hwidth⟩ := bf_fields width lsb
    refine except_bind_ok.2 ⟨c, decodeSuffix_eq_ok.2 ⟨rfl, rfl⟩, ?_⟩
    simp [baseFields, bfUnusedZero, htop, hmid, hlsb, hwidth, except_bind_ok]

/-- R68: MOVT. -/
theorem decodeMovt_eq_ok (hopc : f.opc = opc) :
    decodeMovt f = .ok i ↔ ∃ c rd imm16,
      { baseFields c opc false with rd := regBits rd, imm := 0#16 ++ imm16 } = f ∧
        .movt c rd imm16 = i := by
  constructor
  · intro h
    simp only [decodeMovt, except_bind_ok, require_ok, exists_const, Bool.not_eq_true',
      Bool.and_eq_true, beq_iff_eq, Except.ok.injEq] at h
    obtain ⟨c, hc, hs, ⟨⟨⟨⟨⟨hrn, hrm⟩, hrs⟩, hsh⟩, hform⟩, himm⟩, rfl⟩ := h
    obtain ⟨hp, hcond⟩ := decodeSuffix_eq_ok.1 hc
    have hjoin := imm16_join f.imm himm
    refine ⟨c, f.rd.toFin, _, ?_, rfl⟩
    cases f
    simp_all [baseFields]
  · rintro ⟨c, rd, imm16, rfl, rfl⟩
    obtain ⟨hzero, himm⟩ := imm16_fields imm16
    refine except_bind_ok.2 ⟨c, decodeSuffix_eq_ok.2 ⟨rfl, rfl⟩, ?_⟩
    simp [baseFields, hzero, himm, except_bind_ok]

/-- R69: the form and shift kind of a saturate. -/
theorem decodeSatShift_eq_ok {sh : SatShift} :
    decodeSatShift f = .ok sh ↔ f.form = 1 ∧ f.sh = sh.bits := by
  obtain ⟨_, _, _, _, _, _, _, _, sh', _, _⟩ := f
  rcases bitVec2_cases sh' with rfl | rfl | rfl | rfl <;> cases sh <;>
    simp [decodeSatShift, except_bind_ok, SatShift.bits]

/-- R69: SSAT and USAT. -/
theorem decodeSat_eq_ok {mk : Suffix → Reg → Reg → SatShift → BitVec 6 → BitVec 6 → Instr}
    (hopc : f.opc = opc) :
    decodeSat mk f = .ok i ↔ ∃ c rd rn sh n sat,
      { baseFields c opc false with
        rd := regBits rd, rn := regBits rn, sh := sh.bits, form := 1,
        imm := 0#18 ++ sat ++ 0#2 ++ n } = f ∧
        mk c rd rn sh n sat = i ∧ (sh.amountOk n && satWidthOk sat) = true := by
  constructor
  · intro h
    simp only [decodeSat, decodeSatShift_eq_ok, except_bind_ok, require_ok, exists_const,
      Bool.not_eq_true', Bool.and_eq_true, beq_iff_eq, Except.ok.injEq] at h
    obtain ⟨c, hc, hs, sh, ⟨hform, hsh⟩, ⟨⟨⟨hrm, hrs⟩, htop⟩, hmid⟩, hn, hsat, rfl⟩ := h
    obtain ⟨hp, hcond⟩ := decodeSuffix_eq_ok.1 hc
    have hjoin := sat_join f.imm htop hmid
    refine ⟨c, f.rd.toFin, f.rn.toFin, sh, _, _, ?_, rfl, Bool.and_eq_true_iff.2 ⟨hn, hsat⟩⟩
    cases f
    simp_all [baseFields]
  · rintro ⟨c, rd, rn, sh, n, sat, rfl, rfl, hwf⟩
    obtain ⟨hn, hsat⟩ := Bool.and_eq_true_iff.1 hwf
    obtain ⟨htop, hmid, hamount, hwidth⟩ := sat_fields sat n
    refine except_bind_ok.2 ⟨c, decodeSuffix_eq_ok.2 ⟨rfl, rfl⟩, ?_⟩
    refine except_bind_ok.2 ⟨(), rfl, except_bind_ok.2 ⟨sh, decodeSatShift_eq_ok.2 ⟨rfl, rfl⟩, ?_⟩⟩
    simp [baseFields, htop, hmid, hamount, hwidth, hn, hsat, except_bind_ok]

/-- R69: REV, REVSH, RBIT. -/
theorem decodeR2_eq_ok {mk : Suffix → Reg → Reg → Instr} (hopc : f.opc = opc) :
    decodeR2 mk f = .ok i ↔ ∃ c rd rm,
      { baseFields c opc false with rd := regBits rd, rm := regBits rm } = f ∧ mk c rd rm = i := by
  constructor
  · intro h
    simp only [decodeR2, noOperandForm, except_bind_ok, require_ok, exists_const,
      Bool.not_eq_true', Bool.and_eq_true, beq_iff_eq, Except.ok.injEq] at h
    obtain ⟨c, hc, hs, ⟨hrn, ⟨⟨hrs, hsh⟩, hform⟩, himm⟩, rfl⟩ := h
    obtain ⟨hp, hcond⟩ := decodeSuffix_eq_ok.1 hc
    refine ⟨c, f.rd.toFin, f.rm.toFin, ?_, rfl⟩
    cases f
    simp_all [baseFields]
  · rintro ⟨c, rd, rm, rfl, rfl⟩
    exact except_bind_ok.2 ⟨c, decodeSuffix_eq_ok.2 ⟨rfl, rfl⟩, rfl⟩

end

/-! ## Every operation -/

theorem eq_ofNat_of_toNat_eq {w n : Nat} {b : BitVec w} (h : b.toNat = n) :
    b = BitVec.ofNat w n := by
  simp [← h]

/-- What the decoder reads from fields is well-formed, and they are the fields of that operation. -/
theorem encodeFields_of_decodeFields {f : Fields} {i : Instr} (h : decodeFields f = .ok i) :
    i.wf = true ∧ encodeFields i = f := by
  unfold decodeFields at h
  generalize hn : f.opc.toNat = n at h
  have hopc := eq_ofNat_of_toNat_eq hn
  split at h
  case h_1 | h_2 | h_3 | h_4 | h_5 | h_8 | h_9 | h_10 =>
    obtain ⟨c, s, rd, rn, o, hf, rfl, hwf⟩ := (decodeDp3_eq_ok hopc).1 h
    exact ⟨hwf, hf⟩
  case h_6 | h_7 =>
    obtain ⟨c, s, rd, o, hf, rfl, hwf⟩ := (decodeDpMove_eq_ok hopc).1 h
    exact ⟨hwf, hf⟩
  case h_11 =>
    obtain ⟨c, s, rd, rm, hf, rfl⟩ := (decodeNeg_eq_ok hopc).1 h
    exact ⟨rfl, hf⟩
  case h_12 | h_13 =>
    obtain ⟨c, rn, o, hf, rfl, hwf⟩ := (decodeDpTest_eq_ok hopc).1 h
    exact ⟨hwf, hf⟩
  case h_14 | h_15 | h_16 | h_17 | h_18 | h_19 | h_20 =>
    obtain ⟨c, rd, rn, rm, hf, rfl⟩ := (decodePk_eq_ok hopc).1 h
    exact ⟨rfl, hf⟩
  case h_21 | h_22 | h_23 =>
    obtain ⟨c, s, rd, rn, rm, rs, hf, rfl⟩ := (decodeMulS_eq_ok hopc).1 h
    exact ⟨rfl, hf⟩
  case h_24 =>
    obtain ⟨c, rdLo, rn, rm, rdHi, hf, rfl⟩ := (decodeUmaal_eq_ok hopc).1 h
    exact ⟨rfl, hf⟩
  case h_25 | h_26 | h_27 | h_28 =>
    obtain ⟨c, rd, rn, rm, hf, rfl⟩ := (decodeMul3_eq_ok hopc).1 h
    exact ⟨rfl, hf⟩
  case h_29 =>
    obtain ⟨c, rt, rn, u, idx, off, hf, rfl, hwf⟩ := (decodeStr_eq_ok hopc).1 h
    exact ⟨hwf, hf⟩
  case h_30 | h_31 =>
    obtain ⟨c, rt, rn, u, idx, off, hf, rfl⟩ := (decodeMem3_eq_ok hopc).1 h
    exact ⟨rfl, hf⟩
  case h_32 =>
    obtain ⟨c, rt, rn, u, off, hf, rfl, hwf⟩ := (decodeLdrt_eq_ok hopc).1 h
    exact ⟨hwf, hf⟩
  case h_33 =>
    obtain ⟨c, rn, list, am, w, hf, rfl⟩ := (decodeStm_eq_ok hopc).1 h
    exact ⟨rfl, hf⟩
  case h_34 | h_36 =>
    obtain ⟨c, rd, rn, lsb, width, hf, rfl⟩ := (decodeBf_eq_ok hopc).1 h
    exact ⟨rfl, hf⟩
  case h_35 =>
    obtain ⟨c, rd, lsb, width, hf, rfl⟩ := (decodeBfc_eq_ok hopc).1 h
    exact ⟨rfl, hf⟩
  case h_37 =>
    obtain ⟨c, rd, imm16, hf, rfl⟩ := (decodeMovt_eq_ok hopc).1 h
    exact ⟨rfl, hf⟩
  case h_38 | h_39 =>
    obtain ⟨c, rd, rn, sh, n, sat, hf, rfl, hwf⟩ := (decodeSat_eq_ok hopc).1 h
    exact ⟨hwf, hf⟩
  case h_40 | h_41 | h_42 =>
    obtain ⟨c, rd, rm, hf, rfl⟩ := (decodeR2_eq_ok hopc).1 h
    exact ⟨rfl, hf⟩
  case h_43 => cases h


/-- The decoder reads a well-formed operation back from its fields. -/
theorem decodeFields_encodeFields {i : Instr} (hwf : i.wf = true) :
    decodeFields (encodeFields i) = .ok i := by
  cases i with
  | and c s rd rn o | eor c s rd rn o | orr c s rd rn o | orn c s rd rn o | bic c s rd rn o
  | add c s rd rn o | sub c s rd rn o | sbc c s rd rn o =>
    cases o <;> exact (decodeDp3_eq_ok rfl).2 ⟨c, s, rd, rn, _, rfl, rfl, hwf⟩
  | mov c s rd o | mvn c s rd o =>
    cases o <;> exact (decodeDpMove_eq_ok rfl).2 ⟨c, s, rd, _, rfl, rfl, hwf⟩
  | cmp c rn o | tst c rn o =>
    cases o <;> exact (decodeDpTest_eq_ok rfl).2 ⟨c, rn, _, rfl, rfl, hwf⟩
  | neg c s rd rm => exact (decodeNeg_eq_ok rfl).2 ⟨c, s, rd, rm, rfl, rfl⟩
  | qadd16 c rd rn rm | qasx c rd rn rm | uqsax c rd rn rm | uhasx c rd rn rm | uadd16 c rd rn rm
  | shadd16 c rd rn rm | uhsub8 c rd rn rm =>
    exact (decodePk_eq_ok rfl).2 ⟨c, rd, rn, rm, rfl, rfl⟩
  | mla c s rd rn rm rs | smull c s rd rn rm rs | umull c s rd rn rm rs =>
    exact (decodeMulS_eq_ok rfl).2 ⟨c, s, rd, rn, rm, rs, rfl, rfl⟩
  | umaal c rdLo rn rm rdHi => exact (decodeUmaal_eq_ok rfl).2 ⟨c, rdLo, rn, rm, rdHi, rfl, rfl⟩
  | smmul c rd rn rm | smmulr c rd rn rm | smulwb c rd rn rm | smulwt c rd rn rm =>
    exact (decodeMul3_eq_ok rfl).2 ⟨c, rd, rn, rm, rfl, rfl⟩
  | str c rt rn u idx off =>
    cases off <;> exact (decodeStr_eq_ok rfl).2 ⟨c, rt, rn, u, idx, _, rfl, rfl, hwf⟩
  | strh c rt rn u idx off | strd c rt rn u idx off =>
    cases off <;> exact (decodeMem3_eq_ok rfl).2 ⟨c, rt, rn, u, idx, _, rfl, rfl⟩
  | ldrt c rt rn u off =>
    cases off <;> exact (decodeLdrt_eq_ok rfl).2 ⟨c, rt, rn, u, _, rfl, rfl, hwf⟩
  | stm c rn list am w => exact (decodeStm_eq_ok rfl).2 ⟨c, rn, list, am, w, rfl, rfl⟩
  | sbfx c rd rn lsb width | bfi c rd rn lsb width =>
    exact (decodeBf_eq_ok rfl).2 ⟨c, rd, rn, lsb, width, rfl, rfl⟩
  | bfc c rd lsb width => exact (decodeBfc_eq_ok rfl).2 ⟨c, rd, lsb, width, rfl, rfl⟩
  | movt c rd imm16 => exact (decodeMovt_eq_ok rfl).2 ⟨c, rd, imm16, rfl, rfl⟩
  | ssat c rd rn sh n sat | usat c rd rn sh n sat =>
    exact (decodeSat_eq_ok rfl).2 ⟨c, rd, rn, sh, n, sat, rfl, rfl, hwf⟩
  | rev c rd rm | revsh c rd rm | rbit c rd rm =>
    exact (decodeR2_eq_ok rfl).2 ⟨c, rd, rm, rfl, rfl⟩

/-- Settles O1: the fields of the word read back, and the decoder reads the operation from them. -/
theorem decodeOfEncode : Obligations.DecodeOfEncode := by
  intro i hwf
  rw [decode_encode_fields]
  exact decodeFields_encodeFields hwf

/-- Settles O2: the operation's fields are those of the word, and the fields are the whole word. -/
theorem encodeOfDecode : Obligations.EncodeOfDecode := by
  intro w i h
  obtain ⟨hwf, hf⟩ := encodeFields_of_decodeFields h
  exact ⟨hwf, by rw [encode, hf, pack_unpack]⟩

end Sys2Proof
end

section
/-! PROOFS. The checks of spec/30_encoding.md R82-R86: a word that decodes has the fields its format
lists, so a word with any other field ends `Illegal`. -/

namespace Sys2Proof
open Sys2Proof.Machine Sys2Proof.Safety

/-! ## Steps that end `Illegal` -/

/-- R403: what a step does with a word that is not accepted. -/
theorem step_of_not_accepted {s : State} {w : BitVec 64} {p : Option Word} {rest : List Operation}
    (hp : s.presented = { opw := w, pcRead := p } :: rest) (h : accepted s.params w = none) :
    step s = .next { endedWith s (.illegal w) with presented := rest, pcRead := p } := by
  simp only [step, hp, h]
  rfl

/-- R81: a word that the decoder refuses ends `Illegal`. -/
theorem stepsIllegal_of_decode {w : BitVec 64} (h : ∀ i, decode w ≠ .ok i) : StepsIllegal w := by
  intro s p rest hp
  refine step_of_not_accepted hp ?_
  unfold accepted
  split
  · next i hi => exact absurd hi (h i)
  · rfl

/-- R84: an operation that the policy refuses is not accepted. -/
theorem accepted_of_refusedBy {ps : Config.Params} {w : BitVec 64} {i : Instr}
    (h : decode w = .ok i) (hi : i.refusedBy ps = true) : accepted ps w = none := by
  simp [accepted, h, hi]

/-- Settles O10: a word that is not accepted ends `Illegal`, whichever check refuses it. -/
theorem stepOtherwise : Obligations.StepOtherwise := by
  refine ⟨fun w e h => stepsIllegal_of_decode fun i hi => ?_, fun s w p rest i hp h hi => ?_,
    fun s hs => ?_⟩
  · rw [h] at hi
    cases hi
  · exact step_of_not_accepted hp (accepted_of_refusedBy h hi)
  · simp only [step, hs]

/-! ## The fields of a well-formed word, format by format (R62-R69, R82-R86) -/

theorem ShiftKind.amountOk_iff (sh : ShiftKind) (n : BitVec 6) :
    sh.amountOk n = true ↔ n.toNat ≤ maxAmount sh.bits.toNat := by
  cases sh <;> simp [ShiftKind.amountOk, ShiftKind.bits, maxAmount]

theorem SatShift.amountOk_iff (sh : SatShift) (n : BitVec 6) :
    sh.amountOk n = true ↔ n.toNat ≤ maxAmount sh.bits.toNat := by
  cases sh <;> simp [SatShift.amountOk, SatShift.bits, maxAmount]

/-- R62: the fields of a shifter operand. -/
inductive Op2Format (f : Fields) : Prop
  | imm (hform : f.form = 0) (hrm : f.rm = 0) (hrs : f.rs = 0) (hsh : f.sh = 0)
      (himm : f.imm.extractLsb' 12 20 = 0)
  | regImm (hform : f.form = 1) (hrs : f.rs = 0) (himm : f.imm.extractLsb' 6 26 = 0)
      (hamount : (f.imm.extractLsb' 0 6).toNat ≤ maxAmount f.sh.toNat)
  | regReg (hform : f.form = 2) (himm : f.imm = 0)
  | rrx (hform : f.form = 3) (hsh : f.sh = 3) (hrs : f.rs = 0) (himm : f.imm = 0)

/-- R65: the fields of a mode-two offset. -/
inductive Off2Format (f : Fields) : Prop
  | imm (hform : f.form = 0) (hrm : f.rm = 0) (hrs : f.rs = 0) (hsh : f.sh = 0)
      (himm : f.imm.extractLsb' 12 17 = 0)
  | reg (hform : f.form = 1) (hrs : f.rs = 0) (himm : f.imm.extractLsb' 6 23 = 0)
      (hamount : (f.imm.extractLsb' 0 6).toNat ≤ maxAmount f.sh.toNat)

/-- R66: the fields of a mode-three offset. -/
inductive Off3Format (f : Fields) : Prop
  | imm (hform : f.form = 0) (hrm : f.rm = 0) (hrs : f.rs = 0) (hsh : f.sh = 0)
      (himm : f.imm.extractLsb' 8 21 = 0)
  | reg (hform : f.form = 1) (hsh : f.sh = 0) (hrs : f.rs = 0) (himm : f.imm.extractLsb' 0 29 = 0)

/-- R62-R69: the fields of a well-formed word, by the format of its opc. -/
inductive Format (f : Fields) : Prop
  | dp3 (hopc : f.opc.toNat ≤ 0x04 ∨ 0x07 ≤ f.opc.toNat ∧ f.opc.toNat ≤ 0x09) (hop : Op2Format f)
  | dpMove (hopc : f.opc.toNat = 0x05 ∨ f.opc.toNat = 0x06) (hrn : f.rn = 0) (hop : Op2Format f)
  | dpTest (hopc : f.opc.toNat = 0x0B ∨ f.opc.toNat = 0x0C) (hs : f.s = true) (hrd : f.rd = 0)
      (hop : Op2Format f)
  | neg (hopc : f.opc.toNat = 0x0A) (hrn : f.rn = 0) (hform : f.form = 1) (hsh : f.sh = 0)
      (hrs : f.rs = 0) (himm : f.imm = 0)
  | pk (hopc : 0x10 ≤ f.opc.toNat ∧ f.opc.toNat ≤ 0x16) (hs : f.s = false) (hrs : f.rs = 0)
      (hsh : f.sh = 0) (hform : f.form = 0) (himm : f.imm = 0)
  | mulS (hopc : 0x18 ≤ f.opc.toNat ∧ f.opc.toNat ≤ 0x1A) (hsh : f.sh = 0) (hform : f.form = 0)
      (himm : f.imm = 0)
  | umaal (hopc : f.opc.toNat = 0x1B) (hs : f.s = false) (hsh : f.sh = 0) (hform : f.form = 0)
      (himm : f.imm = 0)
  | mul3 (hopc : 0x1C ≤ f.opc.toNat ∧ f.opc.toNat ≤ 0x1F) (hs : f.s = false) (hrs : f.rs = 0)
      (hsh : f.sh = 0) (hform : f.form = 0) (himm : f.imm = 0)
  | str (hopc : f.opc.toNat = 0x20) (hs : f.s = false) (hidx : f.imm.extractLsb' 29 2 ≠ 3)
      (hoff : Off2Format f)
  | ldrt (hopc : f.opc.toNat = 0x23) (hs : f.s = false) (hidx : f.imm.extractLsb' 29 2 = 2)
      (hoff : Off2Format f)
  | mem3 (hopc : f.opc.toNat = 0x21 ∨ f.opc.toNat = 0x22) (hs : f.s = false)
      (hidx : f.imm.extractLsb' 29 2 ≠ 3) (hoff : Off3Format f)
  | mem4 (hopc : f.opc.toNat = 0x24) (hs : f.s = false) (hrd : f.rd = 0) (hrm : f.rm = 0)
      (hrs : f.rs = 0) (hsh : f.sh = 0) (hform : f.form = 0) (himm : f.imm.extractLsb' 19 13 = 0)
  | bf (hopc : f.opc.toNat = 0x28 ∨ f.opc.toNat = 0x2A) (hs : f.s = false) (hrm : f.rm = 0)
      (hrs : f.rs = 0) (hsh : f.sh = 0) (hform : f.form = 0) (htop : f.imm.extractLsb' 14 18 = 0)
      (hmid : f.imm.extractLsb' 5 3 = 0)
  | bfc (hopc : f.opc.toNat = 0x29) (hs : f.s = false) (hrn : f.rn = 0) (hrm : f.rm = 0)
      (hrs : f.rs = 0) (hsh : f.sh = 0) (hform : f.form = 0) (htop : f.imm.extractLsb' 14 18 = 0)
      (hmid : f.imm.extractLsb' 5 3 = 0)
  | imm16 (hopc : f.opc.toNat = 0x2B) (hs : f.s = false) (hrn : f.rn = 0) (hrm : f.rm = 0)
      (hrs : f.rs = 0) (hsh : f.sh = 0) (hform : f.form = 0) (himm : f.imm.extractLsb' 16 16 = 0)
  | sat (hopc : f.opc.toNat = 0x2C ∨ f.opc.toNat = 0x2D) (hs : f.s = false) (hrm : f.rm = 0)
      (hrs : f.rs = 0) (hform : f.form = 1) (hsh : f.sh = 0 ∨ f.sh = 2)
      (htop : f.imm.extractLsb' 14 18 = 0) (hmid : f.imm.extractLsb' 6 2 = 0)
      (hamount : (f.imm.extractLsb' 0 6).toNat ≤ maxAmount f.sh.toNat)
      (hsat : 1 ≤ (f.imm.extractLsb' 8 6).toNat ∧ (f.imm.extractLsb' 8 6).toNat ≤ 32)
  | r2 (hopc : 0x30 ≤ f.opc.toNat ∧ f.opc.toNat ≤ 0x32) (hs : f.s = false) (hrn : f.rn = 0)
      (hrs : f.rs = 0) (hsh : f.sh = 0) (hform : f.form = 0) (himm : f.imm = 0)

/-- A well-formed shifter operand fills the fields of its form. -/
theorem op2Format_putOp2 {o : Op2} {f : Fields} (hwf : o.wf = true) (hrm : f.rm = 0)
    (hrs : f.rs = 0) (hsh : f.sh = 0) (himm : f.imm = 0) : Op2Format (putOp2 o f) := by
  cases o with
  | imm imm8 rot => exact .imm rfl hrm hrs hsh (dpImm_fields rot imm8).1
  | regImm rm sh n =>
    obtain ⟨hzero, hn⟩ := dpReg_fields n
    exact .regImm rfl hrs hzero (hn.symm ▸ (sh.amountOk_iff n).1 hwf)
  | regReg rm sh rs => exact .regReg rfl himm
  | rrx rm => exact .rrx rfl rfl hrs himm

theorem off2Format_putOff2 {u : Bool} {idx : Index} {off : Off2} {f : Fields}
    (hwf : off.wf = true) (hrm : f.rm = 0) (hrs : f.rs = 0) (hsh : f.sh = 0) :
    Off2Format (putOff2 u idx off f) := by
  cases off with
  | imm imm12 => exact .imm rfl hrm hrs hsh (mem2Imm_fields u idx.bits imm12).2.1
  | reg rm sh n =>
    obtain ⟨-, hzero, hn, -⟩ := mem2Reg_fields u idx.bits n
    exact .reg rfl hrs hzero (hn.symm ▸ (sh.amountOk_iff n).1 hwf)

theorem off3Format_putOff3 {u : Bool} {idx : Index} {off : Off3} {f : Fields}
    (hrm : f.rm = 0) (hrs : f.rs = 0) (hsh : f.sh = 0) : Off3Format (putOff3 u idx off f) := by
  cases off with
  | imm imm8 => exact .imm rfl hrm hrs hsh (mem3Imm_fields u idx.bits imm8).2.1
  | reg rm => exact .reg rfl hsh hrs (mem3Reg_fields u idx.bits).2.1

theorem Index.bits_ne_three (idx : Index) : idx.bits ≠ 3 := by
  cases idx <;> decide

theorem SatShift.bits_cases (sh : SatShift) : sh.bits = 0 ∨ sh.bits = 2 := by
  cases sh <;> decide

theorem satWidthOk_iff (sat : BitVec 6) :
    satWidthOk sat = true ↔ 1 ≤ sat.toNat ∧ sat.toNat ≤ 32 := by
  simp [satWidthOk]

/-- A well-formed operation fills the fields of its format and no other. (An operation's opc is known
without its operands, so a fact about it holds by evaluation.) -/
theorem format_encodeFields {i : Instr} (hwf : i.wf = true) : Format (encodeFields i) := by
  cases i with
  | and c s rd rn o | eor c s rd rn o | orr c s rd rn o | orn c s rd rn o | bic c s rd rn o
  | add c s rd rn o | sub c s rd rn o | sbc c s rd rn o =>
    exact .dp3 (by rw [encodeFields, putOp2_opc]; exact of_decide_eq_true rfl)
      (op2Format_putOp2 hwf rfl rfl rfl rfl)
  | mov c s rd o | mvn c s rd o =>
    exact .dpMove (by rw [encodeFields, putOp2_opc]; exact of_decide_eq_true rfl) (putOp2_rn ..)
      (op2Format_putOp2 hwf rfl rfl rfl rfl)
  | cmp c rn o | tst c rn o =>
    exact .dpTest (by rw [encodeFields, putOp2_opc]; exact of_decide_eq_true rfl) (putOp2_s ..)
      (putOp2_rd ..) (op2Format_putOp2 hwf rfl rfl rfl rfl)
  | neg => exact .neg rfl rfl rfl rfl rfl rfl
  | qadd16 | qasx | uqsax | uhasx | uadd16 | shadd16 | uhsub8 =>
    exact .pk (of_decide_eq_true rfl) rfl rfl rfl rfl rfl
  | mla | smull | umull => exact .mulS (of_decide_eq_true rfl) rfl rfl rfl
  | umaal => exact .umaal rfl rfl rfl rfl rfl
  | smmul | smmulr | smulwb | smulwt => exact .mul3 (of_decide_eq_true rfl) rfl rfl rfl rfl rfl
  | str c rt rn u idx off =>
    exact .str (congrArg BitVec.toNat (putOff2_opc ..)) (putOff2_s ..)
      ((putOff2_imm u idx off _).1.trans_ne idx.bits_ne_three) (off2Format_putOff2 hwf rfl rfl rfl)
  | ldrt c rt rn u off =>
    exact .ldrt (congrArg BitVec.toNat (putOff2_opc ..)) (putOff2_s ..)
      (putOff2_imm u .post off _).1 (off2Format_putOff2 hwf rfl rfl rfl)
  | strh c rt rn u idx off | strd c rt rn u idx off =>
    exact .mem3 (by rw [encodeFields, putOff3_opc]; exact of_decide_eq_true rfl) (putOff3_s ..)
      ((putOff3_imm u idx off _).1.trans_ne idx.bits_ne_three) (off3Format_putOff3 rfl rfl rfl)
  | stm c rn list am w => exact .mem4 rfl rfl rfl rfl rfl rfl rfl (mem4_fields w am.bits list).1
  | sbfx c rd rn lsb width | bfi c rd rn lsb width =>
    obtain ⟨htop, hmid, -⟩ := bf_fields width lsb
    exact .bf (of_decide_eq_true rfl) rfl rfl rfl rfl rfl htop hmid
  | bfc c rd lsb width =>
    obtain ⟨htop, hmid, -⟩ := bf_fields width lsb
    exact .bfc rfl rfl rfl rfl rfl rfl rfl htop hmid
  | movt c rd imm16 => exact .imm16 rfl rfl rfl rfl rfl rfl rfl (imm16_fields imm16).1
  | ssat c rd rn sh n sat | usat c rd rn sh n sat =>
    obtain ⟨htop, hmid, hamount, hwidth⟩ := sat_fields sat n
    obtain ⟨hn, hsat⟩ := Bool.and_eq_true_iff.1 hwf
    exact .sat (of_decide_eq_true rfl) rfl rfl rfl rfl sh.bits_cases htop hmid
      (hamount.symm ▸ (sh.amountOk_iff n).1 hn) (hwidth.symm ▸ (satWidthOk_iff sat).1 hsat)
  | rev | revsh | rbit => exact .r2 (of_decide_eq_true rfl) rfl rfl rfl rfl rfl rfl

/-! ## What the checks say of a word -/

/-- R82: the opc values outside R80's table. -/
def reservedOpcs : List Nat :=
  [0x0D, 0x0E, 0x0F, 0x17, 0x25, 0x26, 0x27, 0x2E, 0x2F, 0x33, 0x34, 0x35, 0x36, 0x37, 0x38, 0x39,
   0x3A, 0x3B, 0x3C, 0x3D, 0x3E, 0x3F]

/-- R81: a word that decodes has the fields of its format. -/
theorem format_of_decode {w : BitVec 64} {i : Instr} (h : decode w = .ok i) :
    Format (unpackFields w) := by
  obtain ⟨hwf, hf⟩ := encodeFields_of_decodeFields h
  exact hf ▸ format_encodeFields hwf

theorem stepsIllegal_of_not_format {w : BitVec 64} (h : ¬ Format (unpackFields w)) :
    StepsIllegal w :=
  stepsIllegal_of_decode fun _ hi => h (format_of_decode hi)

/-- R61: a field within `imm` is a field of the word. -/
theorem extract_imm (w : BitVec 64) {s k : Nat} (h : s + k ≤ 32) :
    (unpackFields w).imm.extractLsb' s k = w.extractLsb' s k := by
  apply BitVec.eq_of_getLsbD_eq
  intro j hj
  have hlt : s + j < 32 := by omega
  simp [unpackFields, hj, hlt]

theorem idxField_eq (w : BitVec 64) :
    idxField w = ((unpackFields w).imm.extractLsb' 29 2).toNat := by
  rw [extract_imm w (by decide), idxField]

theorem amountField_eq (w : BitVec 64) :
    amountField w = ((unpackFields w).imm.extractLsb' 0 6).toNat := by
  rw [extract_imm w (by decide), amountField]

theorem satField_eq (w : BitVec 64) :
    satField w = ((unpackFields w).imm.extractLsb' 8 6).toNat := by
  rw [extract_imm w (by decide), satField]

section
variable {f : Fields}

/-- R82: no format has a reserved opc. -/
theorem Format.opc_not_reserved (h : Format f) : f.opc.toNat ∉ reservedOpcs := by
  simp only [reservedOpcs, List.mem_cons, List.not_mem_nil, or_false]
  cases h <;> omega

/-- R84: the operations with a flag bit. -/
theorem Format.opc_of_flag (h : Format f) (hs : f.s = true) :
    f.opc.toNat ≤ 0x0C ∨ 0x18 ≤ f.opc.toNat ∧ f.opc.toNat ≤ 0x1A := by
  cases h with
  | dp3 | dpMove | dpTest | neg | mulS => omega
  | _ => simp_all

/-- R84: CMP and TST. -/
theorem Format.flag_of_test (h : Format f) (hopc : f.opc.toNat = 0x0B ∨ f.opc.toNat = 0x0C) :
    f.s = true ∧ f.rd = 0 := by
  cases h with
  | dpTest _ hs hrd => exact ⟨hs, hrd⟩
  | _ => omega

/-- R86: MOV and MVN. -/
theorem Format.rn_of_move (h : Format f) (hopc : f.opc.toNat = 0x05 ∨ f.opc.toNat = 0x06) :
    f.rn = 0 := by
  cases h with
  | dpMove _ hrn => exact hrn
  | _ => omega

/-- R85: form 11 of a shifter operand is RRX, whose shift kind is 11. -/
theorem Op2Format.sh_of_form (h : Op2Format f) (hform : f.form.toNat = 3) : f.sh = 3 := by
  cases h with
  | rrx _ hsh => exact hsh
  | _ => simp_all

/-- R72: the amount of a shifter operand's form 01. -/
theorem Op2Format.amount_le (h : Op2Format f) (hform : f.form.toNat = 1) :
    (f.imm.extractLsb' 0 6).toNat ≤ maxAmount f.sh.toNat := by
  cases h with
  | regImm _ _ _ hamount => exact hamount
  | _ => simp_all

theorem Off2Format.amount_le (h : Off2Format f) (hform : f.form.toNat = 1) :
    (f.imm.extractLsb' 0 6).toNat ≤ maxAmount f.sh.toNat := by
  cases h with
  | reg _ _ _ hamount => exact hamount
  | imm => simp_all

theorem Off2Format.form_lt (h : Off2Format f) : f.form.toNat < 2 := by
  cases h <;> simp_all

theorem Off3Format.form_lt (h : Off3Format f) : f.form.toNat < 2 := by
  cases h <;> simp_all

theorem Off3Format.sh_of_form (h : Off3Format f) (hform : f.form.toNat = 1) : f.sh = 0 := by
  cases h with
  | reg _ hsh => exact hsh
  | imm => simp_all

/-- R86: NEG's plain-register form. -/
theorem Format.plain_of_neg (h : Format f) (hopc : f.opc.toNat = 0x0A) :
    f.rn = 0 ∧ f.form = 1 ∧ f.sh = 0 ∧ f.imm = 0 := by
  cases h with
  | neg _ hrn hform hsh _ himm => exact ⟨hrn, hform, hsh, himm⟩
  | _ => omega

/-- R86: the multiplies with three registers. -/
theorem Format.rs_of_mul3 (h : Format f) (hopc : 0x1C ≤ f.opc.toNat ∧ f.opc.toNat ≤ 0x1F) :
    f.rs = 0 := by
  cases h with
  | mul3 _ _ hrs => exact hrs
  | _ => omega

/-- R62: every data-processing word has a shifter operand, NEG too. -/
theorem Format.op2 (h : Format f) (hopc : f.opc.toNat ≤ 0x0C) : Op2Format f := by
  cases h with
  | dp3 _ hop | dpMove _ _ hop | dpTest _ _ _ hop => exact hop
  | neg _ _ hform _ hrs himm => exact .regImm hform hrs (by simp [himm]) (by simp [himm])
  | _ => omega

theorem Format.off2 (h : Format f) (hopc : f.opc.toNat = 0x20 ∨ f.opc.toNat = 0x23) :
    Off2Format f := by
  cases h with
  | str _ _ _ hoff | ldrt _ _ _ hoff => exact hoff
  | _ => omega

theorem Format.off3 (h : Format f) (hopc : f.opc.toNat = 0x21 ∨ f.opc.toNat = 0x22) :
    Off3Format f := by
  cases h with
  | mem3 _ _ _ hoff => exact hoff
  | _ => omega

/-- R85: a memory word of mode two or three has form 00 or 01. -/
theorem Format.form_lt_two (h : Format f) (hopc : 0x20 ≤ f.opc.toNat ∧ f.opc.toNat ≤ 0x23) :
    f.form.toNat < 2 := by
  cases h with
  | str _ _ _ hoff | ldrt _ _ _ hoff | mem3 _ _ _ hoff => exact hoff.form_lt
  | _ => omega

/-- R85: index mode 11 is reserved. -/
theorem Format.index_ne_three (h : Format f) (hopc : 0x20 ≤ f.opc.toNat ∧ f.opc.toNat ≤ 0x23) :
    f.imm.extractLsb' 29 2 ≠ 3 := by
  cases h with
  | str _ _ hidx | mem3 _ _ hidx => exact hidx
  | ldrt _ _ hidx => rw [hidx]; decide
  | _ => omega

/-- R85: LDRT is post-indexed. -/
theorem Format.index_of_ldrt (h : Format f) (hopc : f.opc.toNat = 0x23) :
    f.imm.extractLsb' 29 2 = 2 := by
  cases h with
  | ldrt _ _ hidx => exact hidx
  | _ => omega

/-- R85: form, shift kind, amount and width of a saturate. -/
theorem Format.saturate (h : Format f) (hopc : f.opc.toNat = 0x2C ∨ f.opc.toNat = 0x2D) :
    f.form = 1 ∧ (f.sh = 0 ∨ f.sh = 2) ∧
      (f.imm.extractLsb' 0 6).toNat ≤ maxAmount f.sh.toNat ∧
      1 ≤ (f.imm.extractLsb' 8 6).toNat ∧ (f.imm.extractLsb' 8 6).toNat ≤ 32 := by
  cases h with
  | sat _ _ _ _ hform hsh _ _ hamount hsat => exact ⟨hform, hsh, hamount, hsat⟩
  | _ => omega

end

/-! ## Unlisted bits (R83) -/

/-- A word whose bits are zero in ranges that cover what a mask leaves out has no bit outside the
mask. -/
theorem and_not_eq_zero {w m : BitVec 64} (rs : List (Nat × Nat))
    (hm : ∀ j < 64, m.getLsbD j = false → ∃ r ∈ rs, r.1 ≤ j ∧ j < r.1 + r.2)
    (hw : rs.Forall fun r => w.extractLsb' r.1 r.2 = 0) : w &&& ~~~ m = 0 := by
  apply BitVec.eq_of_getLsbD_eq
  intro j hj
  cases hbit : m.getLsbD j with
  | true => simp [hbit]
  | false =>
    obtain ⟨r, hr, hlo, hhi⟩ := hm j hj hbit
    have hzero := congrArg (BitVec.getLsbD · (j - r.1)) (List.forall_iff_forall_mem.1 hw r hr)
    have hlt : j - r.1 < r.2 := by omega
    have hadd : r.1 + (j - r.1) = j := by omega
    have hbit' : w.getLsbD j = false := by simpa [hlt, hadd] using hzero
    simp [hbit']

theorem opcOf_eq (w : BitVec 64) : opcOf w = (unpackFields w).opc.toNat := rfl

/-- R62: the bits a data-processing word leaves zero, by its form. -/
theorem Op2Format.unlisted_eq_zero {w : BitVec 64} (h : Op2Format (unpackFields w))
    (hopc : opcOf w ≤ 0x0C) : w &&& ~~~ listedBits w = 0 := by
  cases h with
  | imm hform hrm hrs hsh himm =>
    rw [extract_imm w (by decide)] at himm
    replace hform : formField w = 0 := congrArg BitVec.toNat hform
    simp (disch := omega) only [listedBits, if_pos]
    exact and_not_eq_zero [(40, 4), (36, 4), (34, 2), (12, 20)] (by decide) ⟨hrm, hrs, hsh, himm⟩
  | regImm hform hrs himm =>
    rw [extract_imm w (by decide)] at himm
    replace hform : formField w = 1 := congrArg BitVec.toNat hform
    simp (disch := omega) only [listedBits, if_pos, if_neg]
    exact and_not_eq_zero [(36, 4), (6, 26)] (by decide) ⟨hrs, himm⟩
  | regReg hform himm =>
    replace hform : formField w = 2 := congrArg BitVec.toNat hform
    simp (disch := omega) only [listedBits, if_pos, if_neg]
    exact and_not_eq_zero [(0, 32)] (by decide) himm
  | rrx hform _ hrs himm =>
    replace hform : formField w = 3 := congrArg BitVec.toNat hform
    simp (disch := omega) only [listedBits, if_pos, if_neg]
    exact and_not_eq_zero [(36, 4), (0, 32)] (by decide) ⟨hrs, himm⟩

/-- R65: the same for a mode-two word. -/
theorem Off2Format.unlisted_eq_zero {w : BitVec 64} (h : Off2Format (unpackFields w))
    (hopc : opcOf w = 0x20 ∨ opcOf w = 0x23) :
    w &&& ~~~ listedBits w = 0 := by
  cases h with
  | imm hform hrm hrs hsh himm =>
    rw [extract_imm w (by decide)] at himm
    replace hform : formField w = 0 := congrArg BitVec.toNat hform
    simp (disch := omega) only [listedBits, if_pos, if_neg]
    exact and_not_eq_zero [(40, 4), (36, 4), (34, 2), (12, 17)] (by decide) ⟨hrm, hrs, hsh, himm⟩
  | reg hform hrs himm =>
    rw [extract_imm w (by decide)] at himm
    replace hform : formField w = 1 := congrArg BitVec.toNat hform
    simp (disch := omega) only [listedBits, if_pos, if_neg]
    exact and_not_eq_zero [(36, 4), (6, 23)] (by decide) ⟨hrs, himm⟩

/-- R66: the same for a mode-three word. -/
theorem Off3Format.unlisted_eq_zero {w : BitVec 64} (h : Off3Format (unpackFields w))
    (hopc : opcOf w = 0x21 ∨ opcOf w = 0x22) :
    w &&& ~~~ listedBits w = 0 := by
  cases h with
  | imm hform hrm hrs hsh himm =>
    rw [extract_imm w (by decide)] at himm
    replace hform : formField w = 0 := congrArg BitVec.toNat hform
    simp (disch := omega) only [listedBits, if_pos, if_neg]
    exact and_not_eq_zero [(40, 4), (36, 4), (34, 2), (8, 21)] (by decide) ⟨hrm, hrs, hsh, himm⟩
  | reg hform hsh hrs himm =>
    rw [extract_imm w (by decide)] at himm
    replace hform : formField w = 1 := congrArg BitVec.toNat hform
    simp (disch := omega) only [listedBits, if_pos, if_neg]
    exact and_not_eq_zero [(36, 4), (0, 29)] (by decide) ⟨hrs, himm⟩

/-- R83: a word with the fields of its format has no unlisted bit. -/
theorem Format.unlisted_eq_zero {w : BitVec 64} (h : Format (unpackFields w)) :
    w &&& ~~~ listedBits w = 0 := by
  by_cases hdp : opcOf w ≤ 0x0C
  · exact (h.op2 hdp).unlisted_eq_zero hdp
  cases h with
  | dp3 hopc | dpMove hopc | dpTest hopc | neg hopc =>
    rw [← opcOf_eq] at hopc
    omega
  | str hopc _ _ hoff => exact hoff.unlisted_eq_zero (.inl hopc)
  | ldrt hopc _ _ hoff => exact hoff.unlisted_eq_zero (.inr hopc)
  | mem3 hopc _ _ hoff => exact hoff.unlisted_eq_zero hopc
  | pk hopc _ hrs hsh hform himm =>
    rw [← opcOf_eq] at hopc
    simp (disch := omega) only [listedBits, if_pos, if_neg]
    exact and_not_eq_zero [(36, 4), (34, 2), (32, 2), (0, 32)] (by decide) ⟨hrs, hsh, hform, himm⟩
  | mulS hopc hsh hform himm | umaal hopc _ hsh hform himm | mul3 hopc _ _ hsh hform himm =>
    rw [← opcOf_eq] at hopc
    simp (disch := omega) only [listedBits, if_pos, if_neg]
    exact and_not_eq_zero [(34, 2), (32, 2), (0, 32)] (by decide) ⟨hsh, hform, himm⟩
  | mem4 hopc _ hrd hrm hrs hsh hform himm =>
    rw [extract_imm w (by decide)] at himm
    rw [← opcOf_eq] at hopc
    simp (disch := omega) only [listedBits, if_pos, if_neg]
    exact and_not_eq_zero [(48, 4), (40, 4), (36, 4), (34, 2), (32, 2), (19, 13)] (by decide)
      ⟨hrd, hrm, hrs, hsh, hform, himm⟩
  | bf hopc _ hrm hrs hsh hform htop hmid =>
    rw [extract_imm w (by decide)] at htop hmid
    rw [← opcOf_eq] at hopc
    simp (disch := omega) only [listedBits, if_pos, if_neg]
    exact and_not_eq_zero [(40, 4), (36, 4), (34, 2), (32, 2), (14, 18), (5, 3)] (by decide)
      ⟨hrm, hrs, hsh, hform, htop, hmid⟩
  | bfc hopc _ hrn hrm hrs hsh hform htop hmid =>
    rw [extract_imm w (by decide)] at htop hmid
    rw [← opcOf_eq] at hopc
    simp (disch := omega) only [listedBits, if_pos, if_neg]
    exact and_not_eq_zero [(44, 4), (40, 4), (36, 4), (34, 2), (32, 2), (14, 18), (5, 3)]
      (by decide) ⟨hrn, hrm, hrs, hsh, hform, htop, hmid⟩
  | imm16 hopc _ hrn hrm hrs hsh hform himm =>
    rw [extract_imm w (by decide)] at himm
    rw [← opcOf_eq] at hopc
    simp (disch := omega) only [listedBits, if_pos, if_neg]
    exact and_not_eq_zero [(44, 4), (40, 4), (36, 4), (34, 2), (32, 2), (16, 16)] (by decide)
      ⟨hrn, hrm, hrs, hsh, hform, himm⟩
  | sat hopc _ hrm hrs _ _ htop hmid =>
    rw [extract_imm w (by decide)] at htop hmid
    rw [← opcOf_eq] at hopc
    simp (disch := omega) only [listedBits, if_pos, if_neg]
    exact and_not_eq_zero [(40, 4), (36, 4), (14, 18), (6, 2)] (by decide) ⟨hrm, hrs, htop, hmid⟩
  | r2 hopc _ hrn hrs hsh hform himm =>
    rw [← opcOf_eq] at hopc
    simp (disch := omega) only [listedBits, if_pos, if_neg]
    exact and_not_eq_zero [(44, 4), (36, 4), (34, 2), (32, 2), (0, 32)] (by decide)
      ⟨hrn, hrs, hsh, hform, himm⟩

/-- Settles O4: a word that decodes has the fields of its format, which leave no unlisted bit. -/
theorem unlistedBitsAreIllegal : Obligations.UnlistedBitsAreIllegal := by
  intro w hw
  exact stepsIllegal_of_not_format fun h => hw h.unlisted_eq_zero

/-! ## Suffix and policy (R84) -/

/-- R84: the suffix fields of an operation are those of its suffix. -/
theorem encodeFields_suffix (i : Instr) : (encodeFields i).p = i.suffix.isSome ∧
    (encodeFields i).cond = (baseFields i.suffix 0 false).cond := by
  cases i with
  | and | eor | orr | orn | bic | mov | mvn | add | sub | sbc | cmp | tst =>
    exact ⟨putOp2_p .., putOp2_cond ..⟩
  | str | ldrt => exact ⟨putOff2_p .., putOff2_cond ..⟩
  | strh | strd => exact ⟨putOff3_p .., putOff3_cond ..⟩
  | _ => exact ⟨rfl, rfl⟩

/-- R84: without a suffix, `cond` is 0000. -/
theorem cond_eq_zero_of_decode {w : BitVec 64} {i : Instr} (h : decode w = .ok i)
    (hp : suffixBit w = false) : condField w = 0 := by
  obtain ⟨-, hf⟩ := encodeFields_of_decodeFields h
  obtain ⟨hsome, hcond⟩ := encodeFields_suffix i
  rw [hf] at hsome hcond
  have hnone : i.suffix = none := Option.isNone_iff_eq_none.1
    (Option.isSome_eq_false_iff.1 (hsome.symm.trans hp))
  rw [hnone] at hcond
  exact congrArg BitVec.toNat hcond

theorem regBits_inj {r q : Reg} (h : regBits r = regBits q) : r = q := congrArg BitVec.toFin h

/-- R84: what the policy looks at, in the fields of the word. -/
theorem flagSetsPc_of_fields {i : Instr} (hopc : (encodeFields i).opc.toNat ≤ 0x0A)
    (hs : (encodeFields i).s = true) (hrd : (encodeFields i).rd = regBits 15) :
    i.flagSetsPc = true := by
  cases i with
  | and c s rd rn o | eor c s rd rn o | orr c s rd rn o | orn c s rd rn o | bic c s rd rn o
  | mov c s rd o | mvn c s rd o | add c s rd rn o | sub c s rd rn o | sbc c s rd rn o =>
    rw [encodeFields, putOp2_s] at hs
    rw [encodeFields, putOp2_rd] at hrd
    exact Bool.and_eq_true_iff.2 ⟨hs, beq_iff_eq.2 (regBits_inj hrd)⟩
  | neg => exact Bool.and_eq_true_iff.2 ⟨hs, beq_iff_eq.2 (regBits_inj hrd)⟩
  | cmp | tst =>
    rw [encodeFields, putOp2_opc] at hopc
    exact absurd hopc (of_decide_eq_false rfl)
  | str | ldrt =>
    rw [encodeFields, putOff2_opc] at hopc
    exact absurd hopc (of_decide_eq_false rfl)
  | strh | strd =>
    rw [encodeFields, putOff3_opc] at hopc
    exact absurd hopc (of_decide_eq_false rfl)
  | _ => exact absurd hopc (of_decide_eq_false rfl)

/-- R84: under the refuse policy, a flag-setting data-processing word with Rd = 15 is not
accepted. -/
theorem accepted_of_refuse {ps : Config.Params} {w : BitVec 64} (hpolicy : ps.pcFlagset = .refuse)
    (hopc : opcOf w ≤ 0x0A) (hs : flagBit w = true) (hrd : rdField w = 15) :
    accepted ps w = none := by
  cases h : decode w with
  | error e => simp [accepted, h]
  | ok i =>
    obtain ⟨-, hf⟩ := encodeFields_of_decodeFields h
    have hpc : i.flagSetsPc = true :=
      flagSetsPc_of_fields (by rw [hf]; exact hopc) (by rw [hf]; exact hs)
        (by rw [hf]; exact BitVec.eq_of_toNat_eq hrd)
    exact accepted_of_refusedBy h (by simp [Instr.refusedBy, hpolicy, hpc])

/-! ## An operation of each opc (R80) -/

/-- An operation with this opc, and this flag bit and shifter operand where it has them. -/
def operationOf (s : Bool) (o : Op2) : Nat → Instr
  | 0x00 => .and none s 0 0 o
  | 0x01 => .eor none s 0 0 o
  | 0x02 => .orr none s 0 0 o
  | 0x03 => .orn none s 0 0 o
  | 0x04 => .bic none s 0 0 o
  | 0x05 => .mov none s 0 o
  | 0x06 => .mvn none s 0 o
  | 0x07 => .add none s 0 0 o
  | 0x08 => .sub none s 0 0 o
  | 0x09 => .sbc none s 0 0 o
  | 0x0A => .neg none s 0 0
  | 0x0B => .cmp none 0 o
  | 0x0C => .tst none 0 o
  | 0x10 => .qadd16 none 0 0 0
  | 0x11 => .qasx none 0 0 0
  | 0x12 => .uqsax none 0 0 0
  | 0x13 => .uhasx none 0 0 0
  | 0x14 => .uadd16 none 0 0 0
  | 0x15 => .shadd16 none 0 0 0
  | 0x16 => .uhsub8 none 0 0 0
  | 0x18 => .mla none s 0 0 0 0
  | 0x19 => .smull none s 0 0 0 0
  | 0x1A => .umull none s 0 0 0 0
  | 0x1B => .umaal none 0 0 0 0
  | 0x1C => .smmul none 0 0 0
  | 0x1D => .smmulr none 0 0 0
  | 0x1E => .smulwb none 0 0 0
  | 0x1F => .smulwt none 0 0 0
  | 0x20 => .str none 0 0 true .offset (.imm 0)
  | 0x21 => .strh none 0 0 true .offset (.imm 0)
  | 0x22 => .strd none 0 0 true .offset (.imm 0)
  | 0x23 => .ldrt none 0 0 true (.imm 0)
  | 0x24 => .stm none 0 0 .ia false
  | 0x28 => .sbfx none 0 0 0 0
  | 0x29 => .bfc none 0 0 0
  | 0x2A => .bfi none 0 0 0 0
  | 0x2B => .movt none 0 0
  | 0x2C => .ssat none 0 0 .lsl 0 1
  | 0x2D => .usat none 0 0 .lsl 0 1
  | 0x30 => .rev none 0 0
  | 0x31 => .revsh none 0 0
  | _ => .rbit none 0 0

/-- A shifter operand of each form (R62). -/
def operandOf : Nat → Op2
  | 0 => .imm 0 0
  | 1 => .regImm 0 .lsl 0
  | 2 => .regReg 0 .lsl 0
  | _ => .rrx 0

/-- R80, R82: every opc that is not reserved has its operation. -/
theorem opcOf_operationOf : ∀ k < 0x40, k ∉ reservedOpcs →
    (operationOf true (.rrx 0) k).wf = true ∧ opcOf (encode (operationOf true (.rrx 0) k)) = k := by
  decide

theorem flagBit_operationOf : ∀ k ≤ 0x1A, k ≤ 0x0C ∨ 0x18 ≤ k →
    flagBit (encode (operationOf true (.rrx 0) k)) = true := by
  decide

theorem formField_operationOf : ∀ n ≤ 0x0C, n ≠ 0x0A → ∀ k < 4,
    (operationOf true (operandOf k) n).wf = true ∧
      opcOf (encode (operationOf true (operandOf k) n)) = n ∧
      formField (encode (operationOf true (operandOf k) n)) = k := by
  decide

/-! ## The checks -/

/-- Settles O3: no format has a reserved opc, and each other opc has its operation. -/
theorem reservedOpcodesAreIllegal : Obligations.ReservedOpcodesAreIllegal := by
  refine ⟨fun w hopc => ?_, fun k hk hres => ?_⟩
  · exact stepsIllegal_of_not_format fun h => h.opc_not_reserved hopc
  · exact ⟨operationOf true (.rrx 0) k, opcOf_operationOf k hk hres⟩

/-- Settles O5: the flag bit is read off the format, `cond` off the suffix, and the policy refuses
what decodes. -/
theorem flagAndSuffixBitsChecked : Obligations.FlagAndSuffixBitsChecked := by
  refine ⟨fun w hs hopc => ?allowed, fun k hk => ?exist, fun w hs hopc => ?required,
    fun w hp hcond => ?suffix, fun s w p rest hp hpolicy hopc hs hrd => ?policy⟩
  case allowed => exact stepsIllegal_of_not_format fun h => hopc (h.opc_of_flag hs)
  case exist =>
    have hres : k ∉ reservedOpcs := by
      simp only [reservedOpcs, List.mem_cons, List.not_mem_nil, or_false]
      omega
    obtain ⟨hwf, hopc⟩ := opcOf_operationOf k (by omega) hres
    exact ⟨_, hwf, hopc, flagBit_operationOf k (by omega) (by omega)⟩
  case required =>
    refine stepsIllegal_of_not_format fun h => ?_
    exact Bool.eq_false_iff.1 hs (h.flag_of_test hopc).1
  case suffix =>
    exact stepsIllegal_of_decode fun i hi => hcond (cond_eq_zero_of_decode hi hp)
  case policy => exact step_of_not_accepted hp (accepted_of_refuse hpolicy hopc hs hrd)

/-- Settles O6: each range is read off the format; every bit-field operation is well-formed. -/
theorem formsAndRangesChecked : Obligations.FormsAndRangesChecked := by
  refine ⟨fun o ho hneg k hk => ?forms, fun w hopc hform hsh => ?rrx,
    fun w hopc hform hamount => ?amount, fun w hopc hbad => ?memory, fun w hopc hidx => ?ldrt,
    fun w hopc hform hsh => ?plain, fun w hopc hbad => ?saturate, fun c rd rn lsb width => ?field⟩
  case forms =>
    exact ⟨operationOf true (operandOf k) o, formField_operationOf o ho hneg k hk⟩
  case rrx =>
    refine stepsIllegal_of_not_format fun h => hsh ?_
    exact congrArg BitVec.toNat ((h.op2 hopc).sh_of_form hform)
  case amount =>
    rw [amountField_eq] at hamount
    refine stepsIllegal_of_not_format fun h => absurd hamount (Nat.not_lt.2 ?_)
    simp only [List.mem_cons, List.not_mem_nil, or_false] at hopc
    rcases hopc with hdp | hstr | hldrt | hsat
    · exact (h.op2 hdp).amount_le hform
    · exact (h.off2 (.inl hstr)).amount_le hform
    · exact (h.off2 (.inr hldrt)).amount_le hform
    · obtain ⟨-, -, hle, -⟩ := h.saturate hsat
      exact hle
  case memory =>
    simp only [List.mem_cons, List.not_mem_nil, or_false] at hopc
    have hrange : 0x20 ≤ opcOf w ∧ opcOf w ≤ 0x23 := by omega
    refine stepsIllegal_of_not_format fun h => hbad.elim (fun hform => ?_) fun hidx => ?_
    · exact Nat.not_le.2 (h.form_lt_two hrange) hform
    · rw [idxField_eq] at hidx
      exact h.index_ne_three hrange (BitVec.eq_of_toNat_eq hidx)
  case ldrt =>
    refine stepsIllegal_of_not_format fun h => hidx ?_
    rw [idxField_eq, h.index_of_ldrt hopc]
    rfl
  case plain =>
    refine stepsIllegal_of_not_format fun h => hsh ?_
    exact congrArg BitVec.toNat ((h.off3 hopc).sh_of_form hform)
  case saturate =>
    refine stepsIllegal_of_not_format fun h => ?_
    obtain ⟨hform, hsh, -, hlo, hhi⟩ := h.saturate hopc
    have hform' : formField w = 1 := congrArg BitVec.toNat hform
    have hsh' : shField w = 0 ∨ shField w = 2 :=
      hsh.imp (congrArg BitVec.toNat) (congrArg BitVec.toNat)
    rw [← satField_eq] at hlo hhi
    omega
  case field =>
    exact ⟨decodeOfEncode _ rfl, decodeOfEncode _ rfl, decodeOfEncode _ rfl⟩

/-- Settles O7: each register field is read off the format. -/
theorem registerFieldsChecked : Obligations.RegisterFieldsChecked := by
  refine ⟨fun w hopc hrn => ?move, fun w hopc hrd => ?test, fun w hopc hbad => ?neg,
    fun w hlo hhi hrs => ?mul⟩
  case move =>
    exact stepsIllegal_of_not_format fun h => hrn (congrArg BitVec.toNat (h.rn_of_move hopc))
  case test =>
    exact stepsIllegal_of_not_format fun h => hrd (congrArg BitVec.toNat (h.flag_of_test hopc).2)
  case neg =>
    refine stepsIllegal_of_not_format fun h => ?_
    obtain ⟨hrn, hform, hsh, himm⟩ := h.plain_of_neg hopc
    rcases hbad with hbad | hbad | hbad | hbad
    · exact hbad (congrArg BitVec.toNat hrn)
    · exact hbad (congrArg BitVec.toNat hform)
    · exact hbad (congrArg BitVec.toNat hsh)
    · rw [amountField_eq, himm] at hbad
      exact hbad rfl
  case mul =>
    exact stepsIllegal_of_not_format fun h => hrs (congrArg BitVec.toNat (h.rs_of_mul3 ⟨hlo, hhi⟩))

/-- Settles O8: each word is decoded. -/
theorem specWordsDecode : Obligations.SpecWordsDecode := by
  unfold Obligations.SpecWordsDecode
  decide

end Sys2Proof
end

section
/-! PROOFS. The combinational primitives (spec/40_datapath_primitives.md R102-R105, R108-R110, R112,
R116): each pattern is named by the integer it reads as, and the rules follow from the integers. -/

namespace Sys2Proof.Machine
open Sys2Proof.Safety

/-! ## Extension (R102, R103) -/

theorem sext_eq_signExtend {n : Nat} (m : Nat) (v : BitVec n) : sext m v = v.signExtend m := rfl

theorem zext_toNat_of_le {n m : Nat} (v : BitVec n) (h : n ≤ m) :
    (zext m v).toNat = v.toNat := by
  rw [zext, BitVec.toNat_ofNat]
  exact Nat.mod_eq_of_lt (v.isLt.trans_le (Nat.pow_le_pow_right Nat.two_pos h))

/-- R102, bit by bit. -/
theorem sext_getLsbD {n m i : Nat} (v : BitVec n) (hi : i < m) :
    (sext m v).getLsbD i = if i < n then v.getLsbD i else v.getLsbD (n - 1) := by
  rw [sext_eq_signExtend, BitVec.getLsbD_signExtend, BitVec.msb_eq_getLsbD_last]
  simp only [hi, decide_true, Bool.true_and]

/-- A pattern that holds the integer `x` as signed extends to any width by its sign. -/
theorem sext_ofInt {n : Nat} (m : Nat) {x : Int} (hn : 0 < n) (hlo : -2 ^ (n - 1) ≤ x)
    (hhi : x < 2 ^ (n - 1)) : sext m (BitVec.ofInt n x) = BitVec.ofInt m x := by
  rw [sext, BitVec.toInt_ofInt_eq_self hn hlo hhi]

theorem ofInt_toNat_of_lt {n : Nat} {x : Int} (hlo : 0 ≤ x) (hhi : x < 2 ^ n) :
    (BitVec.ofInt n x).toNat = x.toNat := by
  rw [BitVec.toNat_ofInt, Int.emod_eq_of_lt hlo (by exact_mod_cast hhi)]

/-- A pattern that holds the integer `x` as unsigned extends to any width by zeros. -/
theorem zext_ofInt {n : Nat} (m : Nat) {x : Int} (hlo : 0 ≤ x) (hhi : x < 2 ^ n) :
    zext m (BitVec.ofInt n x) = BitVec.ofInt m x := by
  rw [zext, ofInt_toNat_of_lt hlo hhi, ← BitVec.ofInt_natCast, Int.toNat_of_nonneg hlo]

/-! ## Sign extension in three steps (R104) -/

/-- The mask of the second step takes the number modulo `2 ^ n`. -/
theorem ofNat_and_lowMask {n m : Nat} (x : Nat) (h : n ≤ m) :
    BitVec.ofNat m x &&& BitVec.ofNat m (2 ^ n - 1) = BitVec.ofNat m (x % 2 ^ n) := by
  have hle : 2 ^ n ≤ 2 ^ m := Nat.pow_le_pow_right Nat.two_pos h
  have hmask : (2 ^ n - 1) % 2 ^ m = 2 ^ n - 1 := by
    have hpos := Nat.two_pow_pos n
    exact Nat.mod_eq_of_lt (by omega)
  have hmod : x % 2 ^ n % 2 ^ m = x % 2 ^ n :=
    Nat.mod_eq_of_lt ((Nat.mod_lt x (Nat.two_pow_pos n)).trans_le hle)
  apply BitVec.eq_of_toNat_eq
  rw [BitVec.toNat_and, BitVec.toNat_ofNat, BitVec.toNat_ofNat, BitVec.toNat_ofNat, hmask,
    Nat.and_two_pow_sub_one_eq_mod, hmod, Nat.mod_mod_of_dvd x (Nat.pow_dvd_pow 2 h)]

/-- The three steps on the exact numbers: add half the range, wrap, subtract it again. -/
theorem sextSteps_eq_ofInt {n m : Nat} (v : BitVec n) (h : n ≤ m) :
    sextSteps m v =
      BitVec.ofInt m (((v.toNat + 2 ^ (n - 1)) % 2 ^ n : Nat) - (2 ^ (n - 1) : Nat)) := by
  rw [sextSteps, zext, ← BitVec.ofNat_add, ofNat_and_lowMask _ h, Int.sub_eq_add_neg,
    BitVec.ofInt_add, BitVec.ofInt_neg, BitVec.ofInt_natCast, BitVec.ofInt_natCast,
    BitVec.sub_eq_add_neg]

/-- The signed reading: half the range added, wrapped and subtracted again. -/
theorem toInt_eq_shifted_mod {n : Nat} (v : BitVec n) (hn : 0 < n) :
    v.toInt = ((v.toNat + 2 ^ (n - 1)) % 2 ^ n : Nat) - (2 ^ (n - 1) : Nat) := by
  have hlt := v.isLt
  have hpow := mul_pow_sub_one hn.ne' 2
  rw [BitVec.toInt_eq_toNat_cond]
  split
  case isTrue hneg => rw [Nat.mod_eq_of_lt (by omega)]; omega
  case isFalse hneg => rw [Nat.mod_eq_sub_mod (by omega), Nat.mod_eq_of_lt (by omega)]; omega

theorem sextSteps_eq_sext {n m : Nat} (v : BitVec n) (hn : 0 < n) (h : n ≤ m) :
    sextSteps m v = sext m v := by
  rw [sextSteps_eq_ofInt v h, sext, toInt_eq_shifted_mod v hn]

/-- Settles O14: the three steps compute the signed reading. -/
theorem signExtensionSteps : Obligations.SignExtensionSteps :=
  fun _ _ v hn h => ⟨sextSteps_eq_sext v hn h, fun _ hi => sext_getLsbD v hi⟩

/-! ## The adder (R108, R109) -/

/-- The overflow identity of R109 on the three sign bits. -/
theorem sign_identity_iff :
    ∀ a b r : Bool, ((a ^^ r) && (b ^^ r)) = true ↔ a = b ∧ r ≠ a := by decide

/-- R109: overflow at a bit is same signs in, different sign out. -/
theorem overflow_eq_true_iff (a b r : Word) (p : Nat) :
    overflow a b r p = true ↔ a.getLsbD p = b.getLsbD p ∧ r.getLsbD p ≠ a.getLsbD p := by
  rw [overflow, BitVec.getLsbD_and, BitVec.getLsbD_xor, BitVec.getLsbD_xor]
  exact sign_identity_iff _ _ _

/-- The 64-bit accumulator holds the sum exactly. -/
theorem accumulator_toNat (a b : Word) (cin : Bool) :
    (zext 64 a + zext 64 b + zext 64 (BitVec.ofBool cin)).toNat =
      a.toNat + b.toNat + cin.toNat := by
  have ha := a.isLt
  have hb := b.isLt
  have hc := Bool.toNat_le cin
  rw [BitVec.toNat_add, BitVec.toNat_add, zext_toNat_of_le a (by decide),
    zext_toNat_of_le b (by decide), zext_toNat_of_le _ (by decide), BitVec.toNat_ofBool]
  omega

theorem addWithCarry_toNat (a b : Word) (cin : Bool) :
    (addWithCarry a b cin).1.toNat = (a.toNat + b.toNat + cin.toNat) % 2 ^ 32 := by
  simp only [addWithCarry, BitVec.extractLsb'_toNat, accumulator_toNat, Nat.shiftRight_zero]

theorem addWithCarry_carry (a b : Word) (cin : Bool) :
    (addWithCarry a b cin).2.1 = decide (2 ^ 32 ≤ a.toNat + b.toNat + cin.toNat) := by
  have ha := a.isLt
  have hb := b.isLt
  have hc := Bool.toNat_le cin
  simp only [addWithCarry, BitVec.getLsbD, accumulator_toNat, Nat.testBit_eq_decide_div_mod_eq,
    decide_eq_decide]
  omega

theorem addWithCarry_overflow (a b : Word) (cin : Bool) :
    (addWithCarry a b cin).2.2 = overflow a b (addWithCarry a b cin).1 31 := rfl

/-- The sign bit of a word says that its number is in the upper half of the range. -/
theorem getLsbD_top_eq (v : Word) : v.getLsbD 31 = decide (2 ^ 31 ≤ v.toNat) :=
  (BitVec.msb_eq_getLsbD_last v).symm.trans (BitVec.msb_eq_decide v)

/-- R109 at bit 31: the signed sum is out of the 32-bit range. -/
theorem addWithCarry_signedOverflow (a b : Word) (cin : Bool) :
    (addWithCarry a b cin).2.2 = signedOverflow (a.toInt + b.toInt + cin.toNat) := by
  have ha := a.isLt
  have hb := b.isLt
  have hc := Bool.toNat_le cin
  rw [Bool.eq_iff_iff, addWithCarry_overflow, overflow_eq_true_iff, signedOverflow,
    getLsbD_top_eq, getLsbD_top_eq, getLsbD_top_eq, addWithCarry_toNat, BitVec.toInt_eq_toNat_cond,
    BitVec.toInt_eq_toNat_cond, ne_eq, decide_eq_decide, decide_eq_decide, decide_eq_true_iff]
  omega

/-- Settles O15: every output is read off the exact sum in the accumulator. -/
theorem addWithCarryExact : Obligations.AddWithCarryExact :=
  ⟨fun a b cin => ⟨addWithCarry_toNat a b cin, addWithCarry_carry a b cin,
    addWithCarry_overflow a b cin, addWithCarry_signedOverflow a b cin⟩, overflow_eq_true_iff⟩

/-! ## Subtraction (R110) -/

theorem subWithCarry_eq_addWithCarry (a b : Word) (cin : Bool) :
    subWithCarry a b cin = addWithCarry a (~~~ b) cin := rfl

/-- R110: the difference, less the borrow. -/
theorem subWithCarry_result (a b : Word) (cin : Bool) :
    (subWithCarry a b cin).1 = a - b - BitVec.ofNat 32 (1 - cin.toNat) := by
  have hb := b.isLt
  have hc := Bool.toNat_le cin
  apply BitVec.eq_of_toNat_eq
  rw [subWithCarry_eq_addWithCarry, addWithCarry_toNat, BitVec.toNat_not, BitVec.toNat_sub,
    BitVec.toNat_sub, BitVec.toNat_ofNat]
  omega

/-- R110: the carry is 1 exactly when no borrow occurs. -/
theorem subWithCarry_carry (a b : Word) (cin : Bool) :
    (subWithCarry a b cin).2.1 = decide (b.toNat + (1 - cin.toNat) ≤ a.toNat) := by
  have hb := b.isLt
  have hc := Bool.toNat_le cin
  rw [subWithCarry_eq_addWithCarry, addWithCarry_carry, BitVec.toNat_not, decide_eq_decide]
  omega

/-- The subtract form of the overflow identity on the three sign bits. -/
theorem sign_identity_not_right :
    ∀ a b r : Bool, ((a ^^ r) && (!b ^^ r)) = ((a ^^ b) && (a ^^ r)) := by decide

/-- The subtract form of the overflow identity, at any bit of a word. -/
theorem overflow_not_right (a b r : Word) {p : Nat} (hp : p < 32) :
    overflow a (~~~ b) r p = ((a ^^^ b) &&& (a ^^^ r)).getLsbD p := by
  simp only [overflow, BitVec.getLsbD_and, BitVec.getLsbD_xor, BitVec.getLsbD_not, hp, decide_true,
    Bool.true_and]
  exact sign_identity_not_right _ _ _

/-- Settles O16: the adder's rules, read at NOT b. -/
theorem subtractNoBorrow : Obligations.SubtractNoBorrow :=
  fun a b cin => ⟨subWithCarry_eq_addWithCarry a b cin, subWithCarry_result a b cin,
    subWithCarry_carry a b cin, overflow_not_right a b _ (by decide)⟩

/-! ## Saturation (R105) -/

theorem satLow_le_satHigh (bits : Nat) (kind : SatKind) : satLow bits kind ≤ satHigh bits kind := by
  cases kind with
  | signed =>
    have hpos : (0 : Int) < 2 ^ (bits - 1) := by positivity
    simp only [satLow, satHigh]
    omega
  | unsigned =>
    have hpos : (0 : Int) < 2 ^ bits := by positivity
    exact Int.le_sub_one_of_lt hpos

/-- R105: the integer returned is the clamp into the range. -/
theorem saturate_fst (x : Int) (bits : Nat) (kind : SatKind) :
    (saturate x bits kind).1 = clamp (satLow bits kind) (satHigh bits kind) x := by
  have hrange := satLow_le_satHigh bits kind
  unfold saturate clamp
  split
  case isTrue hbelow => dsimp only; omega
  case isFalse hlow =>
    split
    case isTrue habove => dsimp only; omega
    case isFalse hhigh => dsimp only; omega

/-- R105: the bit returned says whether the integer was outside the range. -/
theorem saturate_snd (x : Int) (bits : Nat) (kind : SatKind) :
    (saturate x bits kind).2 = decide (x < satLow bits kind ∨ satHigh bits kind < x) := by
  unfold saturate
  split
  case isTrue hbelow => simp only [hbelow, true_or, decide_true]
  case isFalse hlow =>
    split
    case isTrue habove => simp only [habove, or_true, decide_true]
    case isFalse hhigh => simp only [hlow, hhigh, or_self, decide_false]

/-- R105: the integer returned is in the range. -/
theorem saturate_fst_mem (x : Int) (bits : Nat) (kind : SatKind) :
    satLow bits kind ≤ (saturate x bits kind).1 ∧
      (saturate x bits kind).1 ≤ satHigh bits kind := by
  have hrange := satLow_le_satHigh bits kind
  rw [saturate_fst, clamp]
  omega

/-- R105: a wider destination holds the sign extension of a signed saturated pattern. -/
theorem ofInt_saturate_signed (x : Int) {bits : Nat} (d : Nat) (h : 0 < bits) :
    BitVec.ofInt d (saturate x bits .signed).1 =
      sext d (BitVec.ofInt bits (saturate x bits .signed).1) := by
  obtain ⟨hlo, hhi⟩ := saturate_fst_mem x bits .signed
  exact (sext_ofInt d h hlo (Int.lt_of_le_sub_one hhi)).symm

/-- R105: a wider destination holds the zero extension of an unsigned saturated pattern. -/
theorem ofInt_saturate_unsigned (x : Int) (bits d : Nat) :
    BitVec.ofInt d (saturate x bits .unsigned).1 =
      zext d (BitVec.ofInt bits (saturate x bits .unsigned).1) := by
  obtain ⟨hlo, hhi⟩ := saturate_fst_mem x bits .unsigned
  exact (zext_ofInt d hlo (Int.lt_of_le_sub_one hhi)).symm

/-- Settles O17: the rules for either kind, at the bounds of that kind. -/
theorem saturationClamps : Obligations.SaturationClamps :=
  fun x bits d hbits _ => ⟨saturate_fst x bits .signed, saturate_snd x bits .signed,
    saturate_fst x bits .unsigned, saturate_snd x bits .unsigned,
    ofInt_saturate_signed x d hbits, ofInt_saturate_unsigned x bits d⟩

/-! ## Halving (R116) -/

/-- The low bit of an integer does not reach the upper bits of its pattern. -/
theorem emod_two_mul_ediv_two (x k : Int) : x % (2 * k) / 2 = x / 2 % k := by
  have hquot : x / (2 * k) = x / 2 / k := (Int.ediv_ediv_of_nonneg two_pos.le).symm
  rw [Int.emod_def, Int.emod_def, hquot, Int.mul_assoc]
  omega

/-- R116: bits w..1 of the two's-complement form. -/
theorem half_eq_extractLsb' (x : Int) (w : Nat) :
    half x w = (BitVec.ofInt (w + 1) x).extractLsb' 1 w := by
  have hpow : ((2 ^ (w + 1) : Nat) : Int) = 2 * (2 ^ w : Nat) := by
    exact_mod_cast Nat.pow_succ'
  have hpos : (0 : Int) < (2 ^ w : Nat) := by positivity
  have hlow := Int.emod_nonneg x (b := 2 * (2 ^ w : Nat)) (by omega)
  have hhigh := Int.emod_lt_of_pos x (b := 2 * (2 ^ w : Nat)) (by omega)
  apply BitVec.eq_of_toNat_eq
  rw [half, BitVec.toNat_ofInt, BitVec.extractLsb'_toNat, BitVec.toNat_ofInt, hpow,
    Nat.shiftRight_one, ← emod_two_mul_ediv_two, Nat.mod_eq_of_lt (by omega)]
  omega

/-- The halved integer is the signed reading of the lane where the integer has one bit more. -/
theorem half_toInt {x : Int} {w : Nat} (hw : 0 < w) (hlo : -2 ^ w ≤ x) (hhi : x < 2 ^ w) :
    (half x w).toInt = x / 2 := by
  have hpow := mul_pow_sub_one hw.ne' (2 : Int)
  exact BitVec.toInt_ofInt_eq_self hw (by omega) (by omega)

theorem half_toNat {x : Int} {w : Nat} (hlo : 0 ≤ x) (hhi : x < 2 * 2 ^ w) :
    (half x w).toNat = (x / 2).toNat :=
  ofInt_toNat_of_lt (by omega) (by omega)

theorem half_signedSum {w : Nat} (hw : 0 < w) (a b : BitVec w) :
    (half (a.toInt + b.toInt) w).toInt = (a.toInt + b.toInt) / 2 := by
  have hpow := mul_pow_sub_one hw.ne' (2 : Int)
  have ha := a.le_toInt
  have ha' := a.toInt_lt
  have hb := b.le_toInt
  have hb' := b.toInt_lt
  exact half_toInt hw (by omega) (by omega)

theorem half_unsignedSum {w : Nat} (a b : BitVec w) :
    (half (a.toNat + b.toNat : Int) w).toNat = (a.toNat + b.toNat) / 2 := by
  have ha : (a.toNat : Int) < 2 ^ w := by exact_mod_cast a.isLt
  have hb : (b.toNat : Int) < 2 ^ w := by exact_mod_cast b.isLt
  rw [half_toNat (by omega) (by omega)]
  omega

theorem half_unsignedDifference {w : Nat} (hw : 0 < w) (a b : BitVec w) :
    (half (a.toNat - b.toNat : Int) w).toInt = (a.toNat - b.toNat : Int) / 2 := by
  have ha : (a.toNat : Int) < 2 ^ w := by exact_mod_cast a.isLt
  have hb : (b.toNat : Int) < 2 ^ w := by exact_mod_cast b.isLt
  exact half_toInt hw (by omega) (by omega)

/-- Settles O18: each lane sum or difference has at most one bit more than the lane. -/
theorem halvingKeepsUpperBits : Obligations.HalvingKeepsUpperBits :=
  fun w hw => ⟨fun x => half_eq_extractLsb' x w, fun a b =>
    ⟨half_signedSum hw a b, half_unsignedSum a b, half_unsignedDifference hw a b⟩⟩

/-! ## Widening multiplies (R112) -/

/-- The signed product is at most the square of half the range. -/
theorem sMulWide_toInt {n : Nat} (a b : BitVec n) : (sMulWide a b).toInt = a.toInt * b.toInt := by
  rcases Nat.eq_zero_or_pos n with rfl | hn
  · simp [BitVec.eq_nil a, BitVec.eq_nil b, sMulWide]
  · have hlo := BitVec.le_toInt_mul_toInt (x := a) (y := b)
    have hhi := BitVec.toInt_mul_toInt_le (x := a) (y := b)
    have hpow : (2 : Int) ^ (2 * n - 1) = 2 * 2 ^ (n * 2 - 2) := by
      rw [← mul_pow_sub_one (by omega), Nat.sub_sub, Nat.mul_comm]
    have hpos : (0 : Int) < 2 ^ (n * 2 - 2) := by positivity
    exact BitVec.toInt_ofInt_eq_self (by omega) (by omega) (by omega)

theorem uMulWide_toNat {n : Nat} (a b : BitVec n) : (uMulWide a b).toNat = a.toNat * b.toNat := by
  rw [uMulWide, BitVec.toNat_ofNat, Nat.mul_comm 2 n, Nat.pow_mul, Nat.pow_two]
  exact Nat.mod_eq_of_lt (Nat.mul_lt_mul'' a.isLt b.isLt)

/-- Settles O60: the exact product is in the range of twice the width. -/
theorem wideningMultipliesExact : Obligations.WideningMultipliesExact :=
  fun _ a b => ⟨sMulWide_toInt a b, uMulWide_toNat a b⟩

end Sys2Proof.Machine
end

section
/-! PROOFS. The addressing-mode datapath (spec/41_addressing_modes.md R130-R155): the shifts with
carry at every amount, the shifter operand made of them, and the accesses of modes two and three. -/

namespace Sys2Proof.Machine
open Sys2Proof.Safety

/-! ## Shifts of a pattern as arithmetic -/

section
variable (v : Word) (n : Nat)

theorem shiftLeft_eq_ofNat : v <<< n = BitVec.ofNat 32 (v.toNat * 2 ^ n) :=
  BitVec.eq_of_toNat_eq <| by rw [BitVec.toNat_shiftLeft, BitVec.toNat_ofNat, Nat.shiftLeft_eq]

theorem ushiftRight_eq_ofNat : v >>> n = BitVec.ofNat 32 (v.toNat / 2 ^ n) := by
  rw [← Nat.shiftRight_eq_div_pow, ← BitVec.toNat_ushiftRight, BitVec.ofNat_toNat,
    BitVec.setWidth_eq]

theorem sshiftRight_eq_ofInt : v.sshiftRight n = BitVec.ofInt 32 (v.toInt / 2 ^ n) := by
  rw [BitVec.sshiftRight_eq, Int.shiftRight_eq_div_pow, Nat.cast_pow, Nat.cast_ofNat]

/-- An arithmetic shift by the width or more leaves the sign in every bit. -/
theorem sshiftRight_of_width_le (h : 32 ≤ n) :
    v.sshiftRight n = if v.getLsbD 31 then BitVec.allOnes 32 else 0 := by
  ext i hi
  rw [BitVec.getElem_sshiftRight, dif_neg (by omega), BitVec.msb_eq_getLsbD_last]
  split
  case isTrue hsign => rwa [BitVec.getElem_allOnes]
  case isFalse hsign => simpa using hsign

end

/-! ## Shifts with carry, at every amount (R111) -/

section
variable (v : Word) (n : Nat) (cin : Carry)

/-- The four ranges of R111's logical shifts: the result `r` is the pattern itself at 0 and zero
from the width on, and the bit `lost` last goes to the carry as far as the width. -/
theorem logicalShift_ranges (r : Word) (lost : Nat → Bool) (hzero : n = 0 → r = v)
    (hpast : 32 ≤ n → r = 0) :
    (if n = 0 then (v, cin)
      else if n ≤ 31 then (r, some (lost n))
      else if n = 32 then (0, some (lost 32))
      else (0, some false)) =
      (r, if n = 0 then cin else if n ≤ 32 then some (lost n) else some false) := by
  rcases (by omega : n = 0 ∨ (n ≠ 0 ∧ n ≤ 31) ∨ n = 32 ∨ 32 < n) with h | ⟨hpos, hle⟩ | h | hgt
  · rw [if_pos h, if_pos h, hzero h]
  · rw [if_neg hpos, if_pos hle, if_neg hpos, if_pos (by omega)]
  · simp [h, hpast h.ge]
  · have hpos : n ≠ 0 := by omega
    rw [if_neg hpos, if_neg (by omega), if_neg hgt.ne', if_neg hpos, if_neg hgt.not_ge,
      hpast hgt.le]

theorem lslC_eq : lslC v n cin =
    (BitVec.ofNat 32 (v.toNat * 2 ^ n),
      if n = 0 then cin else if n ≤ 32 then some (v.getLsbD (32 - n)) else some false) := by
  rw [← shiftLeft_eq_ofNat]
  exact logicalShift_ranges v n cin (v <<< n) (fun i => v.getLsbD (32 - i))
    (fun h => h ▸ BitVec.shiftLeft_zero v) BitVec.shiftLeft_eq_zero

theorem lsrC_eq : lsrC v n cin =
    (BitVec.ofNat 32 (v.toNat / 2 ^ n),
      if n = 0 then cin else if n ≤ 32 then some (v.getLsbD (n - 1)) else some false) := by
  rw [← ushiftRight_eq_ofNat]
  exact logicalShift_ranges v n cin (v >>> n) (fun i => v.getLsbD (i - 1))
    (fun h => h ▸ BitVec.ushiftRight_zero v) BitVec.ushiftRight_eq_zero

theorem asrC_eq : asrC v n cin =
    (BitVec.ofInt 32 (v.toInt / 2 ^ n),
      if n = 0 then cin else if n ≤ 31 then some (v.getLsbD (n - 1))
      else some (v.getLsbD 31)) := by
  rw [← sshiftRight_eq_ofInt, asrC]
  split_ifs with hzero hle hsign
  · rw [hzero, BitVec.sshiftRight_zero]
  · rfl
  · rw [sshiftRight_of_width_le v n (by omega), if_pos hsign]
  · rw [sshiftRight_of_width_le v n (by omega), if_neg hsign]

/-- The amount counts modulo the width, and a rotation by a multiple of it still gives a carry. -/
theorem rorC_eq : rorC v n cin =
    (v.rotateRight n, if n = 0 then cin else some ((v.rotateRight n).getLsbD 31)) := by
  rw [rorC, BitVec.rotateRight_def]
  split_ifs with hzero hmult
  · simp [hzero]
  · simp [hmult]
  · rfl

/-- R143: a shift of any kind by 0. -/
theorem shiftC_zero (sh : ShiftKind) : shiftC sh v 0 cin = (v, cin) := by
  cases sh <;> rfl

theorem rrxC_eq (b : Bool) :
    rrxC v b = (BitVec.ofNat 32 (v.toNat / 2 + b.toNat * 2 ^ 31), some (v.getLsbD 0)) := by
  have hvalue : BitVec.ofBool b ++ v.extractLsb' 1 31 =
      BitVec.ofNat 32 (v.toNat / 2 + b.toNat * 2 ^ 31) := by
    have hv := v.isLt
    have hb := b.toNat_le
    apply BitVec.eq_of_toNat_eq
    rw [BitVec.toNat_append, ← Nat.shiftLeft_add_eq_or_of_lt (BitVec.isLt _), BitVec.toNat_ofBool,
      BitVec.extractLsb'_toNat, BitVec.toNat_ofNat, Nat.shiftLeft_eq, Nat.shiftRight_eq_div_pow]
    omega
  rw [rrxC, hvalue]

end

/-! ## The shifter operand (R130-R143) -/

section
variable {s : State} {rm rs : Reg} {v k : Word}

theorem immOperand_eq (imm8 : BitVec 8) (rot : BitVec 4) : immOperand imm8 rot =
    ((BitVec.ofNat 32 imm8.toNat).rotateRight (2 * rot.toNat),
      if rot = 0 then none
      else some (((BitVec.ofNat 32 imm8.toNat).rotateRight (2 * rot.toNat)).getLsbD 31)) := by
  rw [immOperand, rorC_eq, zext]

theorem shifter_imm (imm8 : BitVec 8) (rot : BitVec 4) :
    shifter s (.imm imm8 rot) = some (immOperand imm8 rot) := rfl

theorem shifter_regImm (sh : ShiftKind) (n : BitVec 6) (hv : s.readReg rm = some v) :
    shifter s (.regImm rm sh n) = some (shiftC sh v n.toNat none) := by
  simp only [shifter, hv]

/-- R138: only the low byte of the amount register counts. -/
theorem shifter_regReg (sh : ShiftKind) (hv : s.readReg rm = some v) (hk : s.readReg rs = some k) :
    shifter s (.regReg rm sh rs) = some (shiftC sh v (k.toNat % 256) none) := by
  simp only [shifter, hv, hk, BitVec.extractLsb'_toNat, Nat.shiftRight_zero, Nat.reducePow]

theorem shifter_rrx {b : Bool} (hv : s.readReg rm = some v) (hc : s.flags.c = some b) :
    shifter s (.rrx rm) = some (rrxC v b) := by
  simp only [shifter, hv, hc]

theorem shifter_rrx_eq_none (hc : s.flags.c = none) : shifter s (.rrx rm) = none :=
  (shifter_eq_none s _).2 ⟨.flag .c, by simp [op2Reads], by simp [State.holds, Flags.get, hc]⟩

end

/-- Settles O19: a rotation by twice `rot`, whose carry is replaced by `KEEP` at 0. -/
theorem immediateOperand : Obligations.ImmediateOperand := fun _ imm8 rot => by
  rw [shifter_imm, immOperand_eq]

/-- Settles O20: the shifts with carry, at the amounts an immediate can have. -/
theorem shiftByImmediate : Obligations.ShiftByImmediate := by
  intro s rm v n hv
  have hamount : n.toNat = 0 ↔ n = 0 := BitVec.toNat_inj (y := 0)
  simp only [shifter_regImm _ n hv, shiftC, lslC_eq, lsrC_eq, asrC_eq, rorC_eq, hamount]
  refine ⟨fun hn => ?lsl, fun hn => ?lsr, fun hn => ?asr, fun _ => trivial⟩
  case lsl => rw [if_pos (hn.trans (by decide))]
  case lsr => rw [if_pos hn]
  case asr =>
    rcases hn.lt_or_eq with hlt | hwidth
    · rw [if_pos (Nat.le_of_lt_succ hlt)]
    · simp [hwidth]

/-- Settles O21: the shifts with carry, at the low byte of the amount register. -/
theorem shiftByRegister : Obligations.ShiftByRegister := by
  intro s rm rs v k hv hk n
  have hshift (sh : ShiftKind) : shifter s (.regReg rm sh rs) = some (shiftC sh v n none) :=
    shifter_regReg sh hv hk
  refine ⟨?lsl, ?lsr, ?asr, ?ror⟩
  case lsl => rw [hshift, shiftC, lslC_eq]
  case lsr => rw [hshift, shiftC, lsrC_eq]
  case asr => rw [hshift, shiftC, asrC_eq]
  case ror => rw [hshift, shiftC, rorC_eq, BitVec.rotateRight_mod_eq_rotateRight]

/-- Settles O23: a shift by 0 is the identity, and the immediate operand is a rotation by 0. -/
theorem shiftByZero : Obligations.ShiftByZero := by
  intro s rm rs v k sh imm8 hv hk
  refine ⟨?regImm, fun hbyte => ?regReg, ?imm⟩
  case regImm =>
    rw [shifter_regImm sh 0 hv]
    exact congrArg some (shiftC_zero v none sh)
  case regReg => rw [shifter_regReg sh hv hk, hbyte, shiftC_zero]
  case imm =>
    rw [shifter_imm, immOperand_eq]
    simp [BitVec.rotateRight_def]

/-! ## RRX and its read of C (R137) -/

/-- R406: when one read alone holds no value, the set is that one. -/
theorem State.missing_eq_singleton {s : State} {reads : List Source} {y : Source}
    (h : ∀ x, (x ∈ reads ∧ s.holds x = false) ↔ x = y) : s.missing reads = [y] := by
  calc s.missing reads = allSources.filter fun x => decide (x = y) :=
        List.filter_congr fun x _ => by simp [← h x]
    _ = [y] := by
        rw [List.filter_eq, List.count_eq_one_of_mem allSources_nodup (mem_allSources y),
          List.replicate_one]

/-- C is the one read of RRX without a value. -/
theorem missing_rrx {s : State} {rm : Reg} {v : Word} (hv : s.readReg rm = some v)
    (hc : s.flags.c = none) : s.missing (op2Reads (.rrx rm)) = [.flag .c] :=
  State.missing_eq_singleton fun x => by
    simp only [op2Reads, List.mem_cons, List.not_mem_nil, or_false]
    constructor
    · rintro ⟨rfl | rfl, hx⟩
      · simp [State.holds, hv] at hx
      · rfl
    · rintro rfl
      exact ⟨.inr rfl, by simp [State.holds, Flags.get, hc]⟩

theorem exec_mov (c : Suffix) (sf : Bool) (rd : Reg) (o : Op2) (s : State) :
    exec (.mov c sf rd o) s = gate c s (logical2 opcMOV (fun b => b) sf rd o) := rfl

/-- R408 steps 4 and 5 of MOV, for an operand that lacks a value. -/
theorem exec_mov_of_shifter_eq_none {c : Suffix} {s : State} {rd : Reg} {o : Op2} (sf : Bool)
    (hpass : passes c s = true) (hknown : op2Unknown [rd] o = false) (ho : shifter s o = none) :
    exec (.mov c sf rd o) s = .next (endedWith s (.unwrittenRead (s.missing (op2Reads o)))) := by
  rw [exec_mov, gate_of_passes _ hpass, logical2, hknown, shifter_begin, ho, State.begin_missing]
  rfl

/-- Settles O22: with C held the operand is R111's, and without it C is the whole missing set. -/
theorem rotateWithExtend : Obligations.RotateWithExtend := by
  intro s rm v hv
  refine ⟨fun b hb => ?held, fun hc c sf rd hpass => ?unheld⟩
  case held => rw [shifter_rrx hv hb, rrxC_eq]
  case unheld =>
    rw [exec_mov_of_shifter_eq_none sf hpass rfl (shifter_rrx_eq_none hc), missing_rrx hv hc]

/-! ## Modes two and three -/

theorem modeTwo_eq {s : State} {rn : Reg} {base offset : Word} (u : Bool) (idx : Index) {off : Off2}
    (hbase : s.readReg rn = some base) (hoff : off2Value s off = some offset) :
    modeTwo s rn u idx off = some (indexed base offset u idx) := by
  simp only [modeTwo, hbase, hoff]

theorem modeThree_eq {s : State} {rn : Reg} {base offset : Word} (u : Bool) (idx : Index)
    {off : Off3} (hbase : s.readReg rn = some base) (hoff : off3Value s off = some offset) :
    modeThree s rn u idx off = some (indexed base offset u idx) := by
  simp only [modeThree, hbase, hoff]

/-- R153: the offset of mode two is mode one's operand without its carry. -/
theorem off2Value_reg (s : State) (rm : Reg) (sh : ShiftKind) (n : BitVec 6) :
    off2Value s (.reg rm sh n) = (shifter s (.regImm rm sh n)).map Prod.fst := by
  cases h : s.readReg rm <;> simp only [off2Value, shifter, h, Option.map]

theorem writesBack_eq (idx : Index) : writesBack idx = decide (idx = .pre ∨ idx = .post) := by
  cases idx <;> rfl

theorem indexed_addr (base offset : Word) (u : Bool) (idx : Index) :
    (indexed base offset u idx).addr =
      if idx = .post then base else (indexed base offset u idx).wbval := by
  cases idx <;> rfl

/-- R41, R150: the sum or difference of the numbers, modulo 2^32. -/
theorem indexed_wbval_eq_ofInt (base offset : Word) (u : Bool) (idx : Index) :
    (indexed base offset u idx).wbval =
      BitVec.ofInt 32 (if u then base.toNat + offset.toNat else base.toNat - offset.toNat) := by
  rw [indexed_wbval]
  cases u
  case true => simp [BitVec.ofInt_add]
  case false =>
    simp [Int.sub_eq_add_neg, BitVec.ofInt_add, BitVec.ofInt_neg, BitVec.sub_eq_add_neg]

/-- Settles O25: each mode is `indexed` at its own offset, and `indexed` is exact modulo 2^32. -/
theorem indexedAddresses : Obligations.IndexedAddresses := by
  intro s rn base u idx hbase target access
  have haccess (offset : Word) : indexed base offset u idx = access offset := by
    have htarget : target offset = (indexed base offset u idx).wbval :=
      (indexed_wbval_eq_ofInt base offset u idx).symm
    simp only [access, htarget, ← writesBack_eq, ← indexed_addr, ← indexed_wb base offset u idx]
  refine ⟨fun k => ?immTwo, fun rm sh n offset cout ho => ?regTwo, fun k => ?immThree,
    fun rm offset ho => ?regThree⟩
  case immTwo => rw [← haccess, modeTwo_eq u idx hbase rfl, zext]
  case regTwo =>
    have hoffset : off2Value s (.reg rm sh n) = some offset := by
      rw [off2Value_reg, ho, Option.map_some]
    rw [← haccess, modeTwo_eq u idx hbase hoffset]
  case immThree => rw [← haccess, modeThree_eq u idx hbase rfl, zext]
  case regThree => rw [← haccess, modeThree_eq (off := .reg rm) u idx hbase ho]

end Sys2Proof.Machine
end

section
/-! PROOFS. Predication (spec/42_predication.md R170-R178): the condition table, and every operation as
a body behind the multiplexer `gate`. -/

namespace Sys2Proof.Machine
open Sys2Proof.Safety

/-! ## The condition table (R171) -/

/-- R171: the "flags read" columns of the model and of the statements agree. -/
theorem condReads_eq_row : ∀ row ∈ conditionTable, condReads row.1 = row.2.1.map .flag := by
  decide

/-- R171: a condition has a value when every flag of its row has one, and it is the row's. -/
theorem Flags.condHolds_of_mem_conditionTable (f : Flags) {k : Cond} {reads : List FlagName}
    {holdsWhen : Bool → Bool → Bool → Bool → Bool} (h : (k, reads, holdsWhen) ∈ conditionTable) :
    f.condHolds k =
      if ∀ x ∈ reads, (f.get x).isSome = true then
        some (holdsWhen (f.n.getD false) (f.z.getD false) (f.c.getD false) (f.v.getD false))
      else none := by
  cases k <;>
    simp only [conditionTable, List.mem_cons, Prod.mk.injEq, reduceCtorEq, false_and, true_and,
      false_or, or_false, List.not_mem_nil] at h <;>
    obtain ⟨rfl, rfl⟩ := h
  case eq | ne => cases hz : f.z <;> simp [condHolds, get, hz]
  case cs | cc => cases hc : f.c <;> simp [condHolds, get, hc]
  case mi | pl => cases hn : f.n <;> simp [condHolds, get, hn]
  case vs | vc => cases hv : f.v <;> simp [condHolds, get, hv]
  case hi | ls => cases hc : f.c <;> cases hz : f.z <;> simp [condHolds, get, hc, hz]
  case ge | lt => cases hn : f.n <;> cases hv : f.v <;> simp [condHolds, get, hn, hv]
  case gt | le =>
    cases hz : f.z <;> cases hn : f.n <;> cases hv : f.v <;> simp [condHolds, get, hz, hn, hv]
  case al | nv => simp [condHolds]

/-- Each of the sixteen conditions has one row. -/
theorem conditionTable_conds :
    (conditionTable.map (·.1)).Nodup ∧ ∀ k : Cond, k ∈ conditionTable.map (·.1) := by
  refine ⟨by decide, fun k => ?_⟩
  cases k <;> decide

/-! ## Every operation behind the multiplexer (R172) -/

@[simp] theorem withSuffix_suffix (i : Instr) : withSuffix i.suffix i = i := by
  cases i <;> rfl

/-- R172, R174: everything an operation does stands behind the multiplexer; its suffix only selects the
condition. -/
theorem exec_withSuffix_eq_gate (i : Instr) :
    ∃ body, ∀ c s, exec (withSuffix c i) s = gate c s body := by
  cases i <;> exact ⟨_, fun _ _ => rfl⟩

/-- R172: with a suffix that passes, an operation does what it does without one. -/
theorem exec_withSuffix_of_passes {c : Suffix} {s : State} (i : Instr) (h : passes c s = true) :
    exec (withSuffix c i) s = exec (withSuffix none i) s := by
  obtain ⟨body, hbody⟩ := exec_withSuffix_eq_gate i
  calc exec (withSuffix c i) s = gate c s body := hbody c s
    _ = body s.begin := gate_of_passes body h
    _ = gate none s body := rfl
    _ = exec (withSuffix none i) s := (hbody none s).symm

/-- R172, R402: with a suffix whose condition is false, an operation is `Skipped`. -/
theorem exec_withSuffix_of_condHolds_false {k : Cond} {s : State} (i : Instr)
    (h : s.flags.condHolds k = some false) :
    exec (withSuffix (some k) i) s = .next (endedWith s .skipped) := by
  obtain ⟨body, hbody⟩ := exec_withSuffix_eq_gate i
  rw [hbody, gate, h]
  rfl

/-- R171, R406, R408 step 2: with a suffix whose condition reads a flag without a value, an operation
ends `UnwrittenRead`. -/
theorem exec_withSuffix_of_condHolds_none {k : Cond} {s : State} (i : Instr)
    (h : s.flags.condHolds k = none) :
    exec (withSuffix (some k) i) s =
      .next (endedWith s (.unwrittenRead (s.missing (condReads k)))) := by
  obtain ⟨body, hbody⟩ := exec_withSuffix_eq_gate i
  rw [hbody, gate, h]
  rfl

/-- R406: some read without a value means the set of them is not empty. -/
theorem State.missing_ne_nil {s : State} {reads : List Source} {x : Source} (hx : x ∈ reads)
    (hs : s.holds x = false) : s.missing reads ≠ [] :=
  List.ne_nil_of_mem (((s.missing_isMissingSet reads).2 x).2 ⟨hx, hs⟩)

/-- R171: a condition with an unwritten flag in its row ends the operation with the row's unwritten
flags. -/
theorem exec_of_unwritten_condition {k : Cond} {reads : List FlagName}
    {holdsWhen : Bool → Bool → Bool → Bool → Bool} {i : Instr} {s : State}
    (hrow : (k, reads, holdsWhen) ∈ conditionTable) (hi : i.suffix = some k)
    (hunwritten : ∃ f ∈ reads, (s.flags.get f).isSome = false) :
    ∃ set, set ≠ [] ∧ IsMissingSet s (reads.map .flag) set ∧
      exec i s = .next (endedWith s (.unwrittenRead set)) := by
  obtain ⟨f, hf, hnone⟩ := hunwritten
  have hcond : s.flags.condHolds k = none := by
    rw [s.flags.condHolds_of_mem_conditionTable hrow, if_neg]
    exact fun hall => absurd (hall f hf) (by simp [hnone])
  have hexec := exec_withSuffix_of_condHolds_none i hcond
  rw [← hi, withSuffix_suffix, condReads_eq_row _ hrow] at hexec
  exact ⟨_, State.missing_ne_nil (x := .flag f) (List.mem_map_of_mem hf) hnone, s.missing_isMissingSet _, hexec⟩

/-- Settles O11: the model's table is the row's when the row's flags hold values, and has no value
otherwise. -/
theorem conditionTruthTable : Obligations.ConditionTruthTable := by
  obtain ⟨hnodup, hevery⟩ := conditionTable_conds
  refine ⟨hnodup, hevery, ?_⟩
  rintro ⟨k, reads, holdsWhen⟩ hrow i s hi
  refine ⟨fun hheld => ?_, exec_of_unwritten_condition hrow hi⟩
  rw [s.flags.condHolds_of_mem_conditionTable hrow, if_pos hheld]

/-- Settles O12: an operation with a suffix is its unsuffixed form behind the multiplexer. -/
theorem conditionGates : Obligations.ConditionGates := by
  intro i s k hi
  have hself : withSuffix (some k) i = i := by rw [← hi, withSuffix_suffix]
  refine ⟨fun hfalse => ?_, fun htrue => ?_⟩
  · rw [← exec_withSuffix_of_condHolds_false i hfalse, hself]
  · rw [← exec_withSuffix_of_passes (c := some k) i (by simp [passes, htrue]), hself]

/-- Settles O13: the conditions of NV and AL are constants, so no flag is read. -/
theorem neverAndAlways : Obligations.NeverAndAlways := fun i _ =>
  ⟨exec_withSuffix_of_condHolds_false i rfl, exec_withSuffix_of_passes (c := some .al) i rfl⟩

end Sys2Proof.Machine
end

section
/-! PROOFS. Data processing (spec/43_alu_flags.md R190-R203): how the checks and reads of an
operation trap, and the result, flags and frame of the logical and additive operations. -/

namespace Sys2Proof.Machine
open Sys2Proof.Safety

/-! ## Traps (R408 steps 4 and 5) -/

/-- What a body that reads `reads` does in a case of R404's table, and otherwise when something it
reads holds no value. -/
structure BodyTraps (unknown : Bool) (opc : BitVec 6) (reads : List Source) (s : State)
    (out : Result) : Prop where
  fault : unknown = true → out = .fault (.unknownEffect opc)
  unwritten : unknown = false → (∃ x ∈ reads, s.holds x = false) →
    out = raise (.unwrittenRead (s.missing reads)) s

section
variable {opc : BitVec 6} {reads : List Source} {s : State} {out : Result}

/-- The unknown-effect check in front of the reads. -/
theorem check_traps (unknown : Bool)
    (h : (∃ x ∈ reads, s.holds x = false) → out = raise (.unwrittenRead (s.missing reads)) s) :
    BodyTraps unknown opc reads s (if unknown then .fault (.unknownEffect opc) else out) := by
  cases unknown with
  | false => exact ⟨nofun, fun _ => h⟩
  | true => exact ⟨fun _ => rfl, nofun⟩

/-- An operation whose condition passes traps as its body does. -/
theorem trapsAsListed_of_body {i : Instr} (hexec : exec i s = out)
    (h : BodyTraps (unknownCase i) opc (operandReads i) s.begin out) : TrapsAsListed i opc s := by
  refine ⟨fun hu => hexec.trans (h.fault hu), ?_⟩
  rintro hu ⟨x, hx, hs⟩
  exact ⟨s.missing (operandReads i), State.missing_ne_nil hx hs, s.missing_isMissingSet _,
    hexec.trans (h.unwritten hu ⟨x, hx, hs⟩)⟩

/-- A read without a value contradicts every read holding one. -/
theorem absurd_of_held {p : Prop} (hall : ∀ x ∈ reads, s.holds x = true)
    (h : ∃ x ∈ reads, s.holds x = false) : p := by
  obtain ⟨x, hx, hs⟩ := h
  exact absurd (hall x hx) (by simp [hs])

end

/-! ## What the operands of data processing read -/

/-- R144: the two checks for R15 in form REG_REG, the model's and the statements', agree. -/
theorem op2Unknown_eq_regRegPc (others : List Reg) (o : Op2) :
    op2Unknown others o = regRegPc others o := by
  cases o with
  | regReg rm sh rs => simp [op2Unknown, regRegPc, eq_comm, Bool.or_assoc]
  | imm | regImm | rrx => rfl

theorem op2Reads_held {s : State} {o : Op2} {p : Word × Carry} (ho : shifter s o = some p) :
    ∀ x ∈ op2Reads o, s.holds x = true :=
  (shifter_eq_some_iff s o).1 ⟨p, ho⟩

theorem holds_reg_of_readReg {s : State} {r : Reg} {v : Word} (h : s.readReg r = some v) :
    s.holds (.reg r) = true := by
  rw [← State.readReg_isSome, h, Option.isSome_some]

theorem reg_op2Reads_held {s : State} {rn : Reg} {a : Word} {o : Op2} {p : Word × Carry}
    (hn : s.readReg rn = some a) (ho : shifter s o = some p) :
    ∀ x ∈ .reg rn :: op2Reads o, s.holds x = true :=
  List.forall_mem_cons.2 ⟨holds_reg_of_readReg hn, op2Reads_held ho⟩

theorem holds_c_of_eq_some {s : State} {b : Bool} (h : s.flags.c = some b) :
    s.holds (.flag .c) = true :=
  congrArg Option.isSome h

/-! ## Commits (R191, R203) -/

/-- R191: the flags of a logical operation are those of R29's first row. -/
theorem Flags.setLogical_eq_logicalFlags (f : Flags) (r : Word) (cout : Carry) :
    f.setLogical r cout = logicalFlags f r cout := by
  cases cout <;> rfl

/-- R191: the flags of an additive operation are those of R29's second row. -/
theorem Flags.setAdditive_eq_additiveFlags (f : Flags) (r : Word) (c v : Bool) :
    f.setAdditive r c v = additiveFlags f r c v := rfl

theorem commitLogical_begin (s : State) (sf : Bool) (rd : Reg) (r : Word) (cout : Carry) :
    s.begin.commitLogical sf rd r cout = .next (wrote s [(rd, r)]
      (if sf then logicalFlags s.flags r cout else s.flags)) := by
  rw [State.commitLogical, Flags.setLogical_eq_logicalFlags]
  rfl

theorem commitAdditive_begin (s : State) (sf : Bool) (rd : Reg) {x : Word × Bool × Bool} {r : Word}
    {c v : Bool} (hx : x = (r, c, v)) :
    s.begin.commitAdditive sf rd x = .next (wrote s [(rd, r)]
      (if sf then additiveFlags s.flags r c v else s.flags)) := by
  rw [hx, State.commitAdditive, Flags.setAdditive_eq_additiveFlags]
  rfl

/-! ## The shared bodies -/

section
variable (opc : BitVec 6) (sf : Bool) (rd rn rm : Reg) (o : Op2) (s : State)

theorem logical3_traps (f : Word → Word → Word) :
    BodyTraps (regRegPc [rd, rn] o) opc (.reg rn :: op2Sources o) s
      (logical3 opc f sf rd rn o s) := by
  rw [logical3, op2Unknown_eq_regRegPc, op2Sources_eq_op2Reads]
  refine check_traps _ fun hnone => ?_
  split
  case h_1 hn ho => exact absurd_of_held (reg_op2Reads_held hn ho) hnone
  case h_2 => rfl

theorem logical2_traps (f : Word → Word) :
    BodyTraps (regRegPc [rd] o) opc (op2Sources o) s (logical2 opc f sf rd o s) := by
  rw [logical2, op2Unknown_eq_regRegPc, op2Sources_eq_op2Reads]
  refine check_traps _ fun hnone => ?_
  split
  case h_1 ho => exact absurd_of_held (op2Reads_held ho) hnone
  case h_2 => rfl

theorem additive3_traps (f : Word → Word → Word × Bool × Bool) :
    BodyTraps (regRegPc [rd, rn] o) opc (.reg rn :: op2Sources o) s
      (additive3 opc f sf rd rn o s) := by
  rw [additive3, op2Unknown_eq_regRegPc, op2Sources_eq_op2Reads]
  refine check_traps _ fun hnone => ?_
  split
  case h_1 hn ho => exact absurd_of_held (reg_op2Reads_held hn ho) hnone
  case h_2 => rfl

/-- R201: C is among the reads whatever S is. -/
theorem sbcBody_traps :
    BodyTraps (regRegPc [rd, rn] o) opcSBC (.reg rn :: .flag .c :: op2Sources o) s
      (sbcBody sf rd rn o s) := by
  rw [sbcBody, op2Unknown_eq_regRegPc, op2Sources_eq_op2Reads]
  refine check_traps _ fun hnone => ?_
  split
  case h_1 hn ho hc =>
    exact absurd_of_held (List.forall_mem_cons.2 ⟨holds_reg_of_readReg hn,
      List.forall_mem_cons.2 ⟨holds_c_of_eq_some hc, op2Reads_held ho⟩⟩) hnone
  case h_2 => rfl

theorem negBody_traps : BodyTraps false opcNEG [.reg rm] s (negBody sf rd rm s) := by
  refine ⟨nofun, fun _ hnone => ?_⟩
  rw [negBody]
  split
  case h_1 hm => exact absurd_of_held (List.forall_mem_singleton.2 (holds_reg_of_readReg hm)) hnone
  case h_2 => rfl

variable {opc rd rn rm o s} {a b : Word} {cout : Carry}

theorem logical3_begin (f : Word → Word → Word) (hknown : regRegPc [rd, rn] o = false)
    (hn : s.readReg rn = some a) (ho : shifter s o = some (b, cout)) :
    logical3 opc f sf rd rn o s.begin = .next (wrote s [(rd, f a b)]
      (if sf then logicalFlags s.flags (f a b) cout else s.flags)) := by
  rw [logical3, op2Unknown_eq_regRegPc, hknown, State.begin_readReg, hn, shifter_begin, ho]
  exact commitLogical_begin s sf rd _ cout

theorem logical2_begin (f : Word → Word) (hknown : regRegPc [rd] o = false)
    (ho : shifter s o = some (b, cout)) :
    logical2 opc f sf rd o s.begin = .next (wrote s [(rd, f b)]
      (if sf then logicalFlags s.flags (f b) cout else s.flags)) := by
  rw [logical2, op2Unknown_eq_regRegPc, hknown, shifter_begin, ho]
  exact commitLogical_begin s sf rd _ cout

/-- The shifter's carry is ignored. -/
theorem additive3_begin {f : Word → Word → Word × Bool × Bool} {r : Word} {c v : Bool}
    (hknown : regRegPc [rd, rn] o = false) (hn : s.readReg rn = some a)
    (ho : shifter s o = some (b, cout)) (hf : f a b = (r, c, v)) :
    additive3 opc f sf rd rn o s.begin = .next (wrote s [(rd, r)]
      (if sf then additiveFlags s.flags r c v else s.flags)) := by
  rw [additive3, op2Unknown_eq_regRegPc, hknown, State.begin_readReg, hn, shifter_begin, ho]
  exact commitAdditive_begin s sf rd hf

end

/-! ## The adder's three outputs, by operation (R199-R202) -/

/-- R199: addition has no carry in. -/
theorem addWithCarry_false (a b : Word) :
    addWithCarry a b false =
      (a + b, decide (2 ^ 32 ≤ a.toNat + b.toNat), signedOverflow (a.toInt + b.toInt)) := by
  have hsum : (addWithCarry a b false).1 = a + b :=
    BitVec.eq_of_toNat_eq (by rw [addWithCarry_toNat, BitVec.toNat_add]; rfl)
  have hcarry := addWithCarry_carry a b false
  have hover := addWithCarry_signedOverflow a b false
  simp only [Bool.toNat_false, Nat.add_zero, Nat.cast_zero, Int.add_zero] at hcarry hover
  rw [← hsum, ← hcarry, ← hover]

/-- The signed number of a complement. -/
theorem toInt_not_eq (b : Word) : (~~~ b).toInt = -b.toInt - 1 := by
  have hb := b.isLt
  rw [BitVec.toInt_eq_toNat_cond, BitVec.toInt_eq_toNat_cond, BitVec.toNat_not]
  omega

/-- R110: overflow of a difference less its borrow. -/
theorem subWithCarry_signedOverflow (a b : Word) (cin : Bool) :
    (subWithCarry a b cin).2.2 =
      signedOverflow (a.toInt - b.toInt - ((1 - cin.toNat : Nat) : Int)) := by
  have hc := Bool.toNat_le cin
  rw [subWithCarry_eq_addWithCarry, addWithCarry_signedOverflow, toInt_not_eq]
  congr 1
  omega

/-- R201: the outputs of a subtraction with a borrow. -/
theorem subWithCarry_eq (a b : Word) (cin : Bool) :
    subWithCarry a b cin = (a - b - BitVec.ofNat 32 (1 - cin.toNat),
      decide (b.toNat + (1 - cin.toNat) ≤ a.toNat),
      signedOverflow (a.toInt - b.toInt - ((1 - cin.toNat : Nat) : Int))) := by
  rw [← subWithCarry_result, ← subWithCarry_carry, ← subWithCarry_signedOverflow]

/-- R200: a subtraction without a borrow. -/
theorem subWithCarry_true (a b : Word) :
    subWithCarry a b true =
      (a - b, decide (b.toNat ≤ a.toNat), signedOverflow (a.toInt - b.toInt)) := by
  rw [subWithCarry_eq]
  simp

/-- R202: subtracting from 0 borrows unless the operand is 0, and only the least number has no
negative. -/
theorem subWithCarry_zero_left (b : Word) :
    subWithCarry 0 b true = (-b, decide (b = 0), decide (b = 0x80000000)) := by
  have hcarry : decide (b.toNat ≤ (0 : Word).toNat) = decide (b = 0) := by
    rw [decide_eq_decide]
    bv_omega
  have hover : signedOverflow ((0 : Word).toInt - b.toInt) = decide (b = 0x80000000) := by
    have hb := b.isLt
    have hleast : (0x80000000 : Word).toNat = 0x80000000 := rfl
    have hzero : (0 : Word).toInt = 0 := rfl
    rw [signedOverflow, decide_eq_decide, hzero, BitVec.toInt_eq_toNat_cond b,
      ← BitVec.toNat_inj, hleast]
    omega
  rw [subWithCarry_true, hcarry, hover, zero_sub]

/-! ## The operations -/

/-- Settles O26: the five are one body, behind the multiplexer, with five functions. -/
theorem logicalResults : Obligations.LogicalResults := by
  intro c sf rd rn o s hpass
  refine ⟨⟨?andTraps, ?eorTraps, ?orrTraps, ?ornTraps, ?bicTraps⟩,
    fun a b cout hknown hn ho => ⟨?and, ?eor, ?orr, ?orn, ?bic⟩⟩
  case andTraps | eorTraps | orrTraps | ornTraps | bicTraps =>
    exact trapsAsListed_of_body (gate_of_passes _ hpass) (logical3_traps _ sf rd rn o s.begin _)
  case and | eor | orr | orn | bic =>
    exact (gate_of_passes _ hpass).trans (logical3_begin sf _ hknown hn ho)

/-- Settles O27: both are one body with two functions of the operand. -/
theorem moveResults : Obligations.MoveResults := by
  intro c sf rd o s hpass
  refine ⟨⟨?movTraps, ?mvnTraps⟩, fun b cout hknown ho => ⟨?mov, ?mvn⟩⟩
  case movTraps | mvnTraps =>
    exact trapsAsListed_of_body (gate_of_passes _ hpass) (logical2_traps _ sf rd o s.begin _)
  case mov | mvn => exact (gate_of_passes _ hpass).trans (logical2_begin sf _ hknown ho)

/-- Settles O28: one body with the adder's outputs at carry in 0, and of a difference without a
borrow. -/
theorem addSubResults : Obligations.AddSubResults := by
  intro c sf rd rn o s hpass
  refine ⟨⟨?addTraps, ?subTraps⟩, fun a b cout hknown hn ho => ⟨?add, ?sub⟩⟩
  case addTraps | subTraps =>
    exact trapsAsListed_of_body (gate_of_passes _ hpass) (additive3_traps _ sf rd rn o s.begin _)
  case add =>
    exact (gate_of_passes _ hpass).trans
      (additive3_begin sf hknown hn ho (addWithCarry_false a b))
  case sub =>
    exact (gate_of_passes _ hpass).trans (additive3_begin sf hknown hn ho (subWithCarry_true a b))

/-- Settles O29: the adder's outputs for a difference less the borrow that C says. -/
theorem subtractWithCarryResult : Obligations.SubtractWithCarryResult := by
  intro c sf rd rn o s hpass
  refine ⟨trapsAsListed_of_body (gate_of_passes _ hpass) (sbcBody_traps sf rd rn o s.begin), ?_⟩
  intro a b cout cin hknown hn ho hc
  refine (gate_of_passes _ hpass).trans ?_
  rw [sbcBody, op2Unknown_eq_regRegPc, hknown, State.begin_readReg, hn, shifter_begin, ho,
    State.begin_flags, hc]
  exact commitAdditive_begin s sf rd (subWithCarry_eq a b cin)

/-- Settles O30: the adder's outputs for a difference from 0. -/
theorem negateResult : Obligations.NegateResult := by
  intro c sf rd rm s hpass
  refine ⟨trapsAsListed_of_body (gate_of_passes _ hpass) (negBody_traps sf rd rm s.begin), ?_⟩
  intro b hm
  refine (gate_of_passes _ hpass).trans ?_
  rw [negBody, State.begin_readReg, hm]
  exact commitAdditive_begin s sf rd (subWithCarry_zero_left b)

end Sys2Proof.Machine
end

section
/-! PROOFS. Packed saturating and halving arithmetic (spec/44_packed_saturating.md R230-R239): the
shared body of the packed operations, and the words that their lanes make. -/

namespace Sys2Proof.Machine
open Sys2Proof.Safety

/-! ## Lanes side by side (R230) -/

theorem ofInt_toNat_eq_emod (w : Nat) (x : Int) : ((BitVec.ofInt w x).toNat : Int) = x % 2 ^ w := by
  rw [BitVec.toNat_ofInt, Nat.cast_pow, Nat.cast_ofNat,
    Int.toNat_of_nonneg (Int.emod_nonneg _ (by positivity))]

/-- A pattern put above another holds both integers, each modulo its width. -/
theorem append_ofInt {w v : Nat} (x y : Int) :
    BitVec.ofInt w x ++ BitVec.ofInt v y =
      BitVec.ofInt (w + v) (x % 2 ^ w * 2 ^ v + y % 2 ^ v) := by
  have happend : ((BitVec.ofInt w x ++ BitVec.ofInt v y).toNat : Int) =
      x % 2 ^ w * 2 ^ v + y % 2 ^ v := by
    rw [BitVec.toNat_append, ← Nat.shiftLeft_add_eq_or_of_lt (BitVec.isLt _), Nat.shiftLeft_eq,
      Nat.cast_add, Nat.cast_mul, Nat.cast_pow, Nat.cast_ofNat, ofInt_toNat_eq_emod,
      ofInt_toNat_eq_emod]
  rw [← happend, BitVec.ofInt_natCast, BitVec.ofNat_toNat, BitVec.setWidth_eq]

theorem pack16_eq_lanes (x1 x0 : Int) : pack16 x1 x0 = lanes x1 x0 := append_ofInt x1 x0

theorem half_append_half (x1 x0 : Int) : half x1 16 ++ half x0 16 = lanes (x1 / 2) (x0 / 2) :=
  append_ofInt (x1 / 2) (x0 / 2)

/-- Four byte lanes. -/
theorem append_bytes (x3 x2 x1 x0 : Int) :
    BitVec.ofInt 8 x3 ++ BitVec.ofInt 8 x2 ++ BitVec.ofInt 8 x1 ++ BitVec.ofInt 8 x0 =
      BitVec.ofInt 32 (x3 % 256 * 2 ^ 24 + x2 % 256 * 2 ^ 16 + x1 % 256 * 2 ^ 8 + x0 % 256) := by
  rw [append_ofInt, append_ofInt, append_ofInt]
  refine congrArg (BitVec.ofInt 32) ?_
  omega

/-! ## Saturated lanes (R231-R233, R239) -/

/-- R105: an integer clamped exactly when clamping changed it. -/
theorem saturate_snd_eq_clamp_ne (x : Int) (bits : Nat) (kind : SatKind) :
    (saturate x bits kind).2 = (clamp (satLow bits kind) (satHigh bits kind) x != x) := by
  have hrange := satLow_le_satHigh bits kind
  rw [saturate_snd, Bool.eq_iff_iff, decide_eq_true_iff, bne_iff_ne, clamp]
  omega

theorem Flags.setQ_eq_setQIf (f : Flags) (clamped : Bool) : f.setQ clamped = setQIf clamped f := by
  cases clamped <;> rfl

/-- R106, R239: Q is set when a lane clamped and the parameter lets it. -/
theorem packedQ_eq_setQIf (p : Config.Params) (clamped : Bool) (f : Flags) :
    packedQ p clamped f = setQIf (p.packedSatSetsQ && clamped) f := by
  rw [packedQ, Flags.setQ_eq_setQIf]
  cases p.packedSatSetsQ <;> rfl

/-- The word and the flags of two saturated lanes. -/
theorem satLanes_saturate (x1 x0 : Int) (kind : SatKind) (p : Config.Params) (f : Flags) :
    let clamped := clamp (satLow 16 kind) (satHigh 16 kind)
    satLanes (saturate x1 16 kind, saturate x0 16 kind) p f =
      (lanes (clamped x1) (clamped x0),
        setQIf (p.packedSatSetsQ && (clamped x1 != x1 || clamped x0 != x0)) f) := by
  intro clamped
  rw [satLanes, pack16_eq_lanes, packedQ_eq_setQIf, saturate_fst, saturate_fst,
    saturate_snd_eq_clamp_ne, saturate_snd_eq_clamp_ne, Bool.or_comm]

/-! ## Halved bytes (R237) -/

theorem lane8_toNat (v : Word) (i : Nat) : (lane8 v i).toNat = v.toNat / 2 ^ (8 * i) % 256 := by
  rw [lane8, BitVec.extractLsb'_toNat, Nat.shiftRight_eq_div_pow]

/-- R237: half the difference of bytes `k`, rounded toward minus infinity. -/
def byteDifferenceHalf (n m : Word) (k : Nat) : Int :=
  (((n.toNat / 2 ^ (8 * k) % 256 : Nat) : Int) - (m.toNat / 2 ^ (8 * k) % 256 : Nat)) / 2

theorem uhsub8Lane_eq (n m : Word) (k : Nat) :
    uhsub8Lane n m k = BitVec.ofInt 8 (byteDifferenceHalf n m k) := by
  rw [uhsub8Lane, half, lane8_toNat, lane8_toNat, byteDifferenceHalf]

theorem uhsub8Value_eq (n m : Word) :
    uhsub8Value n m = BitVec.ofInt 32 (byteDifferenceHalf n m 3 % 256 * 2 ^ 24 +
      byteDifferenceHalf n m 2 % 256 * 2 ^ 16 + byteDifferenceHalf n m 1 % 256 * 2 ^ 8 +
      byteDifferenceHalf n m 0 % 256) := by
  rw [uhsub8Value, uhsub8Lane_eq, uhsub8Lane_eq, uhsub8Lane_eq, uhsub8Lane_eq]
  exact append_bytes _ _ _ _

/-! ## The shared body (R230, R238) -/

theorem packed_traps (opc : BitVec 6) (f : Word → Word → Config.Params → Flags → Word × Flags)
    (rd rn rm : Reg) (s : State) :
    BodyTraps (decide (15 ∈ [rd, rn, rm])) opc [.reg rn, .reg rm] s (packed opc f rd rn rm s) := by
  rw [packed, anyPc]
  refine check_traps _ fun hnone => ?_
  split
  case h_1 hn hm =>
    exact absurd_of_held (List.forall_mem_cons.2 ⟨holds_reg_of_readReg hn,
      List.forall_mem_singleton.2 (holds_reg_of_readReg hm)⟩) hnone
  case h_2 => rfl

section
variable {opc : BitVec 6} {rd rn rm : Reg} {s : State} {n m : Word}

theorem packed_begin {f : Word → Word → Config.Params → Flags → Word × Flags} {r : Word}
    {g : Flags} (hpc : 15 ∉ [rd, rn, rm]) (hn : s.readReg rn = some n)
    (hm : s.readReg rm = some m) (hf : f n m s.params s.flags = (r, g)) :
    packed opc f rd rn rm s.begin = .next (wrote s [(rd, r)] g) := by
  rw [packed, anyPc, decide_eq_false hpc, State.begin_readReg, hn, State.begin_readReg, hm]
  simp only [State.begin_params, State.begin_flags, hf]
  rfl

/-- R231-R233, R239: a packed operation whose lanes saturate the exact results `x1` and `x0`. -/
theorem packed_satLanes_begin {l : Word → Word → (Int × Bool) × (Int × Bool)} {x1 x0 : Int}
    (kind : SatKind) (hpc : 15 ∉ [rd, rn, rm]) (hn : s.readReg rn = some n)
    (hm : s.readReg rm = some m) (hl : l n m = (saturate x1 16 kind, saturate x0 16 kind)) :
    packed opc (fun n m => satLanes (l n m)) rd rn rm s.begin =
      .next (satLanesWrote s rd (satLow 16 kind) (satHigh 16 kind) x1 x0) :=
  packed_begin hpc hn hm (by rw [hl]; exact satLanes_saturate x1 x0 kind _ _)

end

/-! ## The operations -/

/-- Settles O32: one body with two saturating lanes, signed for QADD16 and QASX and unsigned for
UQSAX. -/
theorem packedSaturation : Obligations.PackedSaturation := by
  intro c rd rn rm s hpass
  refine ⟨⟨?qadd16Traps, ?qasxTraps, ?uqsaxTraps⟩,
    fun n m hpc hn hm => ⟨?qadd16, ?qasx, ?uqsax⟩⟩
  case qadd16Traps | qasxTraps | uqsaxTraps =>
    exact trapsAsListed_of_body (gate_of_passes _ hpass) (packed_traps _ _ rd rn rm s.begin)
  case qadd16 | qasx =>
    exact (gate_of_passes _ hpass).trans (packed_satLanes_begin .signed hpc hn hm rfl)
  case uqsax =>
    exact (gate_of_passes _ hpass).trans (packed_satLanes_begin .unsigned hpc hn hm rfl)

/-- Settles O33: one body that leaves the flags, with halved halfword lanes or halved bytes. -/
theorem packedHalving : Obligations.PackedHalving := by
  intro c rd rn rm s hpass
  refine ⟨⟨?uhasxTraps, ?shadd16Traps, ?uhsub8Traps⟩,
    fun n m hpc hn hm => ⟨?uhasx, ?shadd16, ?uhsub8⟩⟩
  case uhasxTraps | shadd16Traps | uhsub8Traps =>
    exact trapsAsListed_of_body (gate_of_passes _ hpass) (packed_traps _ _ rd rn rm s.begin)
  case uhasx | shadd16 =>
    exact (gate_of_passes _ hpass).trans
      (packed_begin hpc hn hm (Prod.ext (half_append_half _ _) rfl))
  case uhsub8 =>
    exact (gate_of_passes _ hpass).trans
      (packed_begin hpc hn hm (Prod.ext (uhsub8Value_eq n m) rfl))

/-- Settles O34: the lanes reassemble modulo 2^16, and the carries of the exact sums go to GE. -/
theorem packedAddAndGE : Obligations.PackedAddAndGE := by
  intro c rd rn rm s hpass
  refine ⟨trapsAsListed_of_body (gate_of_passes _ hpass) (packed_traps _ _ rd rn rm s.begin), ?_⟩
  intro n m hpc hn hm s0 s1
  exact (gate_of_passes _ hpass).trans
    (packed_begin hpc hn hm (Prod.ext (pack16_eq_lanes s1 s0) rfl))

end Sys2Proof.Machine
end

section
/-! PROOFS. Widening and accumulating multiplies (spec/45_multiply.md R260-R271): the words cut out of
an exact product, N and Z of a 64-bit result, and the bodies that the multiplies share. -/

namespace Sys2Proof.Machine
open Sys2Proof.Safety

/-! ## Words of an exact integer (R260, R265-R268) -/

/-- The bits of an integer from `k` up are those of its quotient by `2 ^ k`, rounded toward minus
infinity. -/
theorem ofInt_extractLsb' {w k n : Nat} (x : Int) (h : k + n ≤ w) :
    (BitVec.ofInt w x).extractLsb' k n = BitVec.ofInt n (x / 2 ^ k) := by
  obtain ⟨e, rfl⟩ := Nat.exists_eq_add_of_le h
  have hwidth : (2 : Int) ^ (k + n + e) = 2 ^ k * (2 ^ n * 2 ^ e) := by
    rw [Nat.add_assoc, pow_add, pow_add]
  have hquot : x % 2 ^ (k + n + e) / 2 ^ k = x / 2 ^ k - 2 ^ n * (2 ^ e * (x / 2 ^ (k + n + e))) := by
    rw [Int.emod_def, sub_eq_add_neg, hwidth, Int.mul_assoc, ← Int.mul_neg,
      Int.add_mul_ediv_left _ _ (by positivity), ← sub_eq_add_neg, Int.mul_assoc]
  apply BitVec.eq_of_toNat_eq
  zify
  rw [BitVec.extractLsb'_toNat, Nat.shiftRight_eq_div_pow]
  push_cast
  rw [ofInt_toNat_eq_emod, ofInt_toNat_eq_emod, hquot, Int.sub_mul_emod_self_left]

theorem ofNat_extractLsb' {w k n : Nat} (p : Nat) (h : k + n ≤ w) :
    (BitVec.ofNat w p).extractLsb' k n = BitVec.ofNat n (p / 2 ^ k) := by
  rw [← BitVec.ofInt_natCast, ofInt_extractLsb' _ h, ← BitVec.ofInt_natCast]
  norm_cast

theorem ofInt_extractLsb'_zero {w n : Nat} (x : Int) (h : n ≤ w) :
    (BitVec.ofInt w x).extractLsb' 0 n = BitVec.ofInt n x := by
  rw [ofInt_extractLsb' x (by omega), pow_zero, Int.ediv_one]

theorem ofNat_extractLsb'_zero {w n : Nat} (p : Nat) (h : n ≤ w) :
    (BitVec.ofNat w p).extractLsb' 0 n = BitVec.ofNat n p := by
  rw [ofNat_extractLsb' p (by omega), pow_zero, Nat.div_one]

/-- R264: a product of two words leaves room for two more words in 64 bits. -/
theorem umaal_sum_lt (n m lo hi : Word) :
    n.toNat * m.toNat + lo.toNat + hi.toNat < 2 ^ 64 := by
  have hmul : n.toNat * m.toNat ≤ (2 ^ 32 - 1) * (2 ^ 32 - 1) :=
    Nat.mul_le_mul (Nat.le_sub_one_of_lt n.isLt) (Nat.le_sub_one_of_lt m.isLt)
  have hlo := lo.isLt
  have hhi := hi.isLt
  omega

/-! ## N and Z of a long product (R115, R269) -/

/-- The sign of the exact integer, where the pattern holds it as signed. -/
theorem nz_eq_of_toInt {w : Nat} {r : BitVec w} {x : Int} (h : r.toInt = x) :
    nz r = (decide (x < 0), decide (x = 0)) := by
  have hzero : r = 0 ↔ x = 0 := by
    rw [BitVec.ofNat_eq_ofNat, ← BitVec.toInt_inj, BitVec.toInt_zero, h]
  rw [nz, ← BitVec.msb_eq_getLsbD_last, BitVec.msb_eq_toInt, h, beq_eq_decide,
    decide_eq_decide.2 hzero]

/-- The top bit by magnitude, where the pattern holds the number as unsigned. -/
theorem nz_eq_of_toNat {w p : Nat} {r : BitVec w} (h : r.toNat = p) :
    nz r = (decide (2 ^ (w - 1) ≤ p), decide (p = 0)) := by
  have hzero : r = 0 ↔ p = 0 := by
    rw [BitVec.ofNat_eq_ofNat, ← BitVec.toNat_inj, BitVec.toNat_zero, h]
  rw [nz, ← BitVec.msb_eq_getLsbD_last, BitVec.msb_eq_decide, h, beq_eq_decide,
    decide_eq_decide.2 hzero]

/-! ## The shared bodies (R270, R271) -/

section
variable {opc : BitVec 6} {sf : Bool} {rd rdLo rn rm ra rdHi : Reg} {s : State}
  {n m a lo hi : Word}

theorem regs_pair_held (hn : s.readReg rn = some n) (hm : s.readReg rm = some m) :
    ∀ x ∈ [.reg rn, .reg rm], s.holds x = true :=
  List.forall_mem_cons.2 ⟨holds_reg_of_readReg hn,
    List.forall_mem_singleton.2 (holds_reg_of_readReg hm)⟩

theorem mlaBody_traps :
    BodyTraps (decide (15 ∈ [rd, rn, rm, ra])) opcMLA [.reg rn, .reg rm, .reg ra] s
      (mlaBody sf rd rn rm ra s) := by
  rw [mlaBody, anyPc]
  refine check_traps _ fun hnone => ?_
  split
  case h_1 hn hm ha =>
    exact absurd_of_held
      (List.forall_mem_cons.2 ⟨holds_reg_of_readReg hn, regs_pair_held hm ha⟩) hnone
  case h_2 => rfl

/-- R270: RdLo and RdHi are only written, so they are not among the reads. -/
theorem mulLong_traps (f : Word → Word → DWord) :
    BodyTraps (decide (15 ∈ [rdLo, rn, rm, rdHi]) || decide (rdHi = rdLo)) opc [.reg rn, .reg rm] s
      (mulLong opc f sf rdLo rn rm rdHi s) := by
  rw [mulLong, longUnknown, anyPc]
  refine check_traps _ fun hnone => ?_
  split
  case h_1 hn hm => exact absurd_of_held (regs_pair_held hn hm) hnone
  case h_2 => rfl

theorem umaalBody_traps :
    BodyTraps (decide (15 ∈ [rdLo, rn, rm, rdHi]) || decide (rdHi = rdLo)) opcUMAAL
      [.reg rn, .reg rm, .reg rdLo, .reg rdHi] s (umaalBody rdLo rn rm rdHi s) := by
  rw [umaalBody, longUnknown, anyPc]
  refine check_traps _ fun hnone => ?_
  split
  case h_1 hn hm hlo hhi =>
    exact absurd_of_held (List.forall_mem_cons.2 ⟨holds_reg_of_readReg hn,
      List.forall_mem_cons.2 ⟨holds_reg_of_readReg hm, regs_pair_held hlo hhi⟩⟩) hnone
  case h_2 => rfl

theorem mul3_traps (f : Word → Word → Word) :
    BodyTraps (decide (15 ∈ [rd, rn, rm])) opc [.reg rn, .reg rm] s (mul3 opc f rd rn rm s) := by
  rw [mul3, anyPc]
  refine check_traps _ fun hnone => ?_
  split
  case h_1 hn hm => exact absurd_of_held (regs_pair_held hn hm) hnone
  case h_2 => rfl

theorem longUnknown_eq_false (hpc : 15 ∉ [rdLo, rn, rm, rdHi]) (hne : rdHi ≠ rdLo) :
    longUnknown rdLo rn rm rdHi = false := by
  rw [longUnknown, anyPc, decide_eq_false hpc, decide_eq_false hne, Bool.or_false]

theorem mlaBody_begin {r : Word} (hpc : 15 ∉ [rd, rn, rm, ra]) (hn : s.readReg rn = some n)
    (hm : s.readReg rm = some m) (ha : s.readReg ra = some a)
    (hr : BitVec.ofNat 32 (n.toNat * m.toNat + a.toNat) = r) :
    mlaBody sf rd rn rm ra s.begin = .next (wrote s [(rd, r)]
      (if sf then { s.flags with n := some (r.getLsbD 31), z := some (decide (r = 0)) }
        else s.flags)) := by
  rw [mlaBody, anyPc, decide_eq_false hpc, State.begin_readReg, hn, State.begin_readReg, hm,
    State.begin_readReg, ha, ← hr]
  rfl

/-- R260, R269: RdLo first, then RdHi, and the flags of the 64-bit result. -/
theorem commitLong_begin {r : DWord} {b z : Bool} (hlo : r.extractLsb' 0 32 = lo)
    (hhi : r.extractLsb' 32 32 = hi) (hnz : nz r = (b, z)) :
    s.begin.commitLong sf rdLo rdHi r = .next (wrote s [(rdLo, lo), (rdHi, hi)]
      (if sf then { s.flags with n := some b, z := some z } else s.flags)) := by
  rw [State.commitLong, hlo, hhi, Flags.setNZ, hnz]
  rfl

theorem mulLong_begin {f : Word → Word → DWord} {b z : Bool} (hpc : 15 ∉ [rdLo, rn, rm, rdHi])
    (hne : rdHi ≠ rdLo) (hn : s.readReg rn = some n) (hm : s.readReg rm = some m)
    (hlo : (f n m).extractLsb' 0 32 = lo) (hhi : (f n m).extractLsb' 32 32 = hi)
    (hnz : nz (f n m) = (b, z)) :
    mulLong opc f sf rdLo rn rm rdHi s.begin = .next (wrote s [(rdLo, lo), (rdHi, hi)]
      (if sf then { s.flags with n := some b, z := some z } else s.flags)) := by
  rw [mulLong, longUnknown_eq_false hpc hne, State.begin_readReg, hn, State.begin_readReg, hm]
  exact commitLong_begin hlo hhi hnz

/-- R264: the flags stay, so the sum's N and Z do not matter. -/
theorem umaalBody_begin {p : Nat} (hpc : 15 ∉ [rdLo, rn, rm, rdHi]) (hne : rdHi ≠ rdLo)
    (hn : s.readReg rn = some n) (hm : s.readReg rm = some m) (hlo : s.readReg rdLo = some lo)
    (hhi : s.readReg rdHi = some hi) (hp : n.toNat * m.toNat + lo.toNat + hi.toNat = p) :
    umaalBody rdLo rn rm rdHi s.begin = .next (wrote s
      [(rdLo, BitVec.ofNat 32 p), (rdHi, BitVec.ofNat 32 (p / 2 ^ 32))] s.flags) := by
  rw [umaalBody, longUnknown_eq_false hpc hne, State.begin_readReg, hn, State.begin_readReg, hm,
    State.begin_readReg, hlo, State.begin_readReg, hhi, ← hp]
  exact commitLong_begin (sf := false) (ofNat_extractLsb'_zero _ (by decide))
    (ofNat_extractLsb' _ (by decide)) rfl

theorem mul3_begin {f : Word → Word → Word} {r : Word} (hpc : 15 ∉ [rd, rn, rm])
    (hn : s.readReg rn = some n) (hm : s.readReg rm = some m) (hf : f n m = r) :
    mul3 opc f rd rn rm s.begin = .next (wrote s [(rd, r)] s.flags) := by
  rw [mul3, anyPc, decide_eq_false hpc, State.begin_readReg, hn, State.begin_readReg, hm, ← hf]
  rfl

end

/-! ## The operations -/

/-- Settles O35: the 64-bit sum of UMAAL is exact, so its halves are the two registers. -/
theorem accumulatingMultiplies : Obligations.AccumulatingMultiplies := by
  intro c sf rd rn rm ra s hpass
  refine ⟨⟨?mlaTraps, ?umaalTraps⟩, fun n m a hpc hn hm ha => ?mla,
    fun n m lo hi hpc hne hn hm hlo hhi => ⟨umaal_sum_lt n m lo hi, ?umaal⟩⟩
  case mlaTraps => exact trapsAsListed_of_body (gate_of_passes _ hpass) mlaBody_traps
  case umaalTraps => exact trapsAsListed_of_body (gate_of_passes _ hpass) umaalBody_traps
  case mla => exact (gate_of_passes _ hpass).trans (mlaBody_begin hpc hn hm ha rfl)
  case umaal => exact (gate_of_passes _ hpass).trans (umaalBody_begin hpc hne hn hm hlo hhi rfl)

/-- Settles O36: the product's 64-bit pattern holds it exactly, as signed or as unsigned. -/
theorem longMultiplies : Obligations.LongMultiplies := by
  intro c sf rdLo rn rm rdHi s hpass
  refine ⟨⟨?smullTraps, ?umullTraps⟩, fun n m hpc hne hn hm => ⟨?smull, ?umull⟩⟩
  case smullTraps | umullTraps =>
    exact trapsAsListed_of_body (gate_of_passes _ hpass) (mulLong_traps _)
  case smull =>
    exact (gate_of_passes _ hpass).trans (mulLong_begin hpc hne hn hm
      (ofInt_extractLsb'_zero _ (by decide)) (ofInt_extractLsb' _ (by decide))
      (nz_eq_of_toInt (sMulWide_toInt n m)))
  case umull =>
    exact (gate_of_passes _ hpass).trans (mulLong_begin hpc hne hn hm
      (ofNat_extractLsb'_zero _ (by decide)) (ofNat_extractLsb' _ (by decide))
      (nz_eq_of_toNat (uMulWide_toNat n m)))

/-- Settles O37: each result is a word cut out of the exact product, which is a floor division. -/
theorem highPartMultiplies : Obligations.HighPartMultiplies := by
  intro c rd rn rm s hpass
  refine ⟨⟨?smmulTraps, ?smmulrTraps, ?smulwbTraps, ?smulwtTraps⟩,
    fun n m hpc hn hm => ⟨?smmul, ?smmulr, ?smulwb, ?smulwt⟩⟩
  case smmulTraps | smmulrTraps | smulwbTraps | smulwtTraps =>
    exact trapsAsListed_of_body (gate_of_passes _ hpass) (mul3_traps _)
  case smmul | smmulr | smulwb | smulwt =>
    exact (gate_of_passes _ hpass).trans
      (mul3_begin hpc hn hm (ofInt_extractLsb' _ (by decide)))

end Sys2Proof.Machine
end

section
/-! PROOFS. Loads and stores (spec/46_load_store.md R290-R295): one rule per answer of the port for each
kind of request, what the words of a block leave in memory, and the effect of each operation. -/

namespace Sys2Proof.Machine
open Sys2Proof.Safety

/-! ## The bytes of a value (R43) -/

theorem lane8_eq_ofNat (v : Word) (k : Nat) : lane8 v k = BitVec.ofNat 8 (v.toNat / 2 ^ (8 * k)) :=
  BitVec.eq_of_toNat_eq (lane8_toNat v k)

theorem bytesOfWord_eq_storedBytes (e : Config.Endian) (v : Word) :
    bytesOfWord e v = storedBytes e 4 v := by
  cases e <;> simp only [bytesOfWord, lane8_eq_ofNat] <;> rfl

/-- A halfword's bytes are the low two of the word it is cut from. -/
theorem bytesOfHalf_eq_storedBytes (e : Config.Endian) (v : Word) :
    bytesOfHalf e (lo16 v) = storedBytes e 2 v := by
  have hlow : (lo16 v).extractLsb' 0 8 = lane8 v 0 := by
    rw [lo16, lane8, BitVec.extractLsb'_extractLsb'_of_le (by decide)]
  have hhigh : (lo16 v).extractLsb' 8 8 = lane8 v 1 := by
    rw [lo16, lane8, BitVec.extractLsb'_extractLsb'_of_le (by decide)]
  cases e <;> simp only [bytesOfHalf, hlow, hhigh, lane8_eq_ofNat] <;> rfl

theorem bytesOfWord_length (e : Config.Endian) (v : Word) : (bytesOfWord e v).length = 4 := by
  cases e <;> rfl

theorem bytesOfHalf_length (e : Config.Endian) (v : Half) : (bytesOfHalf e v).length = 2 := by
  cases e <;> rfl

/-- The bytes of a word put together from four. -/
theorem lane8_append (b3 b2 b1 b0 : Byte) :
    lane8 (b3 ++ b2 ++ b1 ++ b0) 0 = b0 ∧ lane8 (b3 ++ b2 ++ b1 ++ b0) 1 = b1 ∧
      lane8 (b3 ++ b2 ++ b1 ++ b0) 2 = b2 ∧ lane8 (b3 ++ b2 ++ b1 ++ b0) 3 = b3 := by
  refine ⟨BitVec.extractLsb'_append_eq_right, ?lane1, ?lane2, ?lane3⟩
  case lane1 =>
    exact (BitVec.extractLsb'_append_eq_of_le (by decide)).trans BitVec.extractLsb'_append_eq_right
  case lane2 =>
    exact ((BitVec.extractLsb'_append_eq_of_le (by decide)).trans
      (BitVec.extractLsb'_append_eq_of_le (by decide))).trans BitVec.extractLsb'_append_eq_right
  case lane3 =>
    exact ((BitVec.extractLsb'_append_eq_of_le (by decide)).trans
      (BitVec.extractLsb'_append_eq_of_le (by decide))).trans BitVec.extractLsb'_append_eq_left

theorem byteAt_eq_add (a : Word) (k : Nat) : byteAt a k = (a + BitVec.ofNat 32 k).toNat := by
  simp [byteAt, BitVec.toNat_add]

/-- The word read at an address is the one whose bytes stand there. -/
theorem storedBytes_readWord (e : Config.Endian) (m : Memory) (a : Word) :
    storedBytes e 4 (m.readWord e a) = (List.range 4).map fun k => m.read (byteAt a k) := by
  have hrange : (List.range 4).map (fun k => m.read (byteAt a k)) =
      [m.read a.toNat, m.read (a + 1).toNat, m.read (a + 2).toNat, m.read (a + 3).toNat] := by
    change [m.read (byteAt a 0), m.read (byteAt a 1), m.read (byteAt a 2), m.read (byteAt a 3)] = _
    rw [byteAt_zero, byteAt_eq_add, byteAt_eq_add, byteAt_eq_add]
    rfl
  rw [hrange, ← bytesOfWord_eq_storedBytes]
  cases e with
  | little =>
    obtain ⟨h0, h1, h2, h3⟩ := lane8_append (m.read (a + 3).toNat) (m.read (a + 2).toNat)
      (m.read (a + 1).toNat) (m.read a.toNat)
    simp only [bytesOfWord, Memory.readWord, h0, h1, h2, h3]
  | big =>
    obtain ⟨h0, h1, h2, h3⟩ := lane8_append (m.read a.toNat) (m.read (a + 1).toNat)
      (m.read (a + 2).toNat) (m.read (a + 3).toNat)
    simp only [bytesOfWord, Memory.readWord, h0, h1, h2, h3]

/-- Bytes written after one another are written in one go. -/
theorem Memory.writeBytes_append (bs cs : List Byte) (m : Memory) (a : Word) :
    m.writeBytes a (bs ++ cs) =
      (m.writeBytes a bs).writeBytes (a + BitVec.ofNat 32 bs.length) cs := by
  induction bs generalizing m a with
  | nil => simp [Memory.writeBytes]
  | cons b bs ih =>
    rw [List.cons_append, Memory.writeBytes, ih, Memory.writeBytes, List.length_cons,
      Nat.add_comm bs.length 1, BitVec.ofNat_add, ← BitVec.add_assoc]
    rfl

/-! ## The alignment check and the port (R42, R45) -/

/-- The number of bytes of a request (R42). -/
def Request.size : Request → Nat
  | .writeHalf _ _ => 2
  | .writeWord _ _ => 4
  | .readWord _ _ => 4

theorem extract_eq_zero_eq_decide {w : Nat} (a : BitVec w) (k : Nat) :
    (a.extractLsb' 0 k == 0) = decide (a.toNat % 2 ^ k = 0) := by
  rw [Bool.eq_iff_iff, beq_iff_eq, decide_eq_true_iff, ← BitVec.toNat_inj]
  simp

/-- R45: the low address bits of an aligned request are a multiple of its size. -/
theorem mayIssue_eq_addrOk (r : Request) (s : State) :
    r.mayIssue s.params.alignPolicy = addrOk r.size s r.addr := by
  cases hp : s.params.alignPolicy with
  | allow => simp [Request.mayIssue, addrOk, hp]
  | fault =>
    cases r <;>
      simp only [Request.mayIssue, Request.aligned, addrOk, hp, extract_eq_zero_eq_decide] <;> rfl

/-- R48: words four bytes apart are all aligned or none is. -/
theorem addrOk_add_four (s : State) (a : Word) : addrOk 4 s (a + 4) = addrOk 4 s a := by
  have hmod : (a + 4).toNat % 4 = a.toNat % 4 := by
    rw [BitVec.toNat_add]
    change (a.toNat + 4) % 2 ^ 32 % 4 = a.toNat % 4
    omega
  rw [addrOk, addrOk, hmod]

theorem portServes_one (s : State) :
    portServes 1 s = true ↔ s.port.head? = none ∨ s.port.head? = some .served := by
  cases h : s.port <;> simp [portServes, h]

/-- The port serves a request and then `n` more. -/
theorem portServes_succ (n : Nat) (s : State) :
    portServes (n + 1) s = true ↔
      portServes 1 s = true ∧ portServes n { s with port := s.port.tail } = true := by
  cases h : s.port <;> simp [portServes, h]

section
variable {r : Request} {s : State}

theorem issue_misaligned (h : addrOk r.size s r.addr = false) :
    issue r s = .error (raise (.alignmentFault r.addr) s) := by
  rw [issue, mayIssue_eq_addrOk, h]
  rfl

theorem issue_aborted (h : addrOk r.size s r.addr = true) (hp : s.port.head? = some .abort) :
    issue r s = .error (raise (.memAbort r.addr) (s.issued r)) := by
  rw [issue, mayIssue_eq_addrOk, h, hp]
  rfl

theorem issue_served (h : addrOk r.size s r.addr = true)
    (hp : s.port.head? = none ∨ s.port.head? = some .served) :
    issue r s = .ok (none, s.issued r) := by
  rw [issue, mayIssue_eq_addrOk, h]
  rcases hp with hp | hp <;> rw [hp] <;> rfl

theorem issue_servedAs {d : Word} (h : addrOk r.size s r.addr = true)
    (hp : s.port.head? = some (.servedAs d)) : issue r s = .ok (some d, s.issued r) := by
  rw [issue, mayIssue_eq_addrOk, h, hp]
  rfl

end

/-! ## One write (R42, R43) -/

/-- What one write request of these bytes answers: misaligned, aborted and served. -/
structure WriteRule (r : Request) (bytes : List Byte) (s : State) (x : Except Result State) :
    Prop where
  misaligned : addrOk r.size s r.addr = false → x = .error (raise (.alignmentFault r.addr) s)
  aborted : addrOk r.size s r.addr = true → s.port.head? = some .abort →
    x = .error (raise (.memAbort r.addr) (s.issued r))
  served : addrOk r.size s r.addr = true → portServes 1 s = true →
    x = .ok { s.issued r with mem := s.mem.writeBytes r.addr bytes }

theorem memWriteWord_rule (a v : Word) (s : State) :
    WriteRule (.writeWord a v) (bytesOfWord s.params.endian v) s (memWriteWord a v s) where
  misaligned h := by rw [memWriteWord, issue_misaligned h]
  aborted h hp := by rw [memWriteWord, issue_aborted h hp]
  served h hp := by rw [memWriteWord, issue_served h ((portServes_one s).1 hp)]; rfl

theorem memWriteHalf_rule (a : Word) (v : Half) (s : State) :
    WriteRule (.writeHalf a v) (bytesOfHalf s.params.endian v) s (memWriteHalf a v s) where
  misaligned h := by rw [memWriteHalf, issue_misaligned h]
  aborted h hp := by rw [memWriteHalf, issue_aborted h hp]
  served h hp := by rw [memWriteHalf, issue_served h ((portServes_one s).1 hp)]; rfl

/-! ## Words one after the other (R46, R48, R409) -/

/-- `s` after these words are stored from an address on, one served request each. -/
def State.storedWords (s : State) (a : Word) (vs : List Word) : State :=
  { s with
    mem := s.mem.writeBytes a (vs.flatMap (bytesOfWord s.params.endian))
    requests := s.requests ++ wordRequests a vs
    port := s.port.drop vs.length }

/-- The first word's write is the single write of it. -/
theorem State.storedWords_cons (s : State) (a v : Word) (vs : List Word) :
    s.storedWords a (v :: vs) =
      State.storedWords { s.issued (.writeWord a v) with
        mem := s.mem.writeBytes a (bytesOfWord s.params.endian v) } (a + 4) vs := by
  simp only [State.storedWords, State.issued, List.flatMap_cons, Memory.writeBytes_append,
    bytesOfWord_length, wordRequests, List.append_assoc, List.length_cons, List.drop_tail]
  rfl

theorem memWriteWords_misaligned {vs : List Word} {a : Word} {s : State} (hne : vs ≠ [])
    (h : addrOk 4 s a = false) : memWriteWords vs a s = .error (raise (.alignmentFault a) s) := by
  cases vs with
  | nil => exact absurd rfl hne
  | cons v vs => rw [memWriteWords, (memWriteWord_rule a v s).misaligned h]; rfl

/-- R48: when every request is served, the words stand one after the other. -/
theorem memWriteWords_served {vs : List Word} {a : Word} {s : State} (h : addrOk 4 s a = true)
    (hp : portServes vs.length s = true) : memWriteWords vs a s = .ok (s.storedWords a vs) := by
  induction vs generalizing a s with
  | nil => simp [memWriteWords, State.storedWords, Memory.writeBytes, wordRequests]
  | cons v vs ih =>
    obtain ⟨hfirst, hrest⟩ := (portServes_succ vs.length s).1 hp
    rw [memWriteWords, (memWriteWord_rule a v s).served h hfirst, State.storedWords_cons]
    exact ih ((addrOk_add_four s a).trans h) hrest

/-- R409: an abort of request `k` leaves the words before it stored. -/
theorem memWriteWords_aborted {vs : List Word} {a : Word} {s : State} {k : Nat}
    (h : addrOk 4 s a = true) (hk : k < vs.length) (hp : portServes k s = true)
    (habort : s.port[k]? = some .abort) :
    memWriteWords vs a s = .error (raise (.memAbort (a + BitVec.ofNat 32 (4 * k)))
      { s.storedWords a (vs.take k) with
        requests := s.requests ++ wordRequests a (vs.take (k + 1))
        port := s.port.drop (k + 1) }) := by
  induction vs generalizing a s k with
  | nil => exact absurd hk (Nat.not_lt_zero k)
  | cons v vs ih =>
    cases k with
    | zero =>
      rw [memWriteWords, (memWriteWord_rule a v s).aborted h (List.head?_eq_getElem?.trans habort)]
      simp [State.storedWords, State.issued, Memory.writeBytes, wordRequests, Request.addr]
    | succ k =>
      obtain ⟨hfirst, hrest⟩ := (portServes_succ k s).1 hp
      have haddr : a + BitVec.ofNat 32 (4 * (k + 1)) = a + 4 + BitVec.ofNat 32 (4 * k) := by
        rw [Nat.mul_succ, Nat.add_comm, BitVec.ofNat_add, ← BitVec.add_assoc]
        rfl
      rw [memWriteWords, (memWriteWord_rule a v s).served h hfirst, List.take_succ_cons,
        State.storedWords_cons, haddr]
      refine (ih (s := { s.issued (.writeWord a v) with
        mem := s.mem.writeBytes a (bytesOfWord s.params.endian v) })
        ((addrOk_add_four s a).trans h) (Nat.lt_of_succ_lt_succ hk) hrest ?_).trans ?_
      · simpa using habort
      · simp [State.issued, wordRequests]

theorem flatMap_bytesOfWord_length (e : Config.Endian) (vs : List Word) :
    (vs.flatMap (bytesOfWord e)).length = 4 * vs.length := by
  simp [List.length_flatMap, bytesOfWord_length, Nat.mul_comm]

/-- What the words leave in a canonical memory (R43, R48). -/
theorem stored_words (e : Config.Endian) {m : Memory} (a : Word) {vs : List Word}
    (hwf : m.wf = true) (hlen : vs.length ≤ 16) :
    Stored m (m.writeBytes a (vs.flatMap (bytesOfWord e))) a (vs.flatMap (storedBytes e 4)) ∧
      (m.writeBytes a (vs.flatMap (bytesOfWord e))).wf = true := by
  have hbytes : bytesOfWord e = storedBytes e 4 := funext (bytesOfWord_eq_storedBytes e)
  have hfit : (vs.flatMap (bytesOfWord e)).length ≤ 2 ^ 32 := by
    rw [flatMap_bytesOfWord_length]; omega
  rw [← hbytes]
  exact ⟨Memory.stored_writeBytes _ m a hwf hfit, Memory.wf_writeBytes _ m a hwf⟩

/-! ## Commit (R290 step 5, R152) -/

/-- `s` after these register writes, in order. -/
def State.commitRegs (s : State) (ws : List (Reg × Word)) : State :=
  { s with regs := ws.foldl (fun g w => g.set w.1.val (some w.2) w.1.isLt) s.regs }

theorem writeReg_if_eq_commitRegs (b : Bool) (s : State) (r : Reg) (v : Word) :
    (if b then s.writeReg r v else s) = s.commitRegs (if b then [(r, v)] else []) := by
  cases b <;> rfl

section
variable {i : Instr} {s : State} {ws : List (Reg × Word)} {x : Except Result State}
  {commit : State → State}

/-- A body with one write and then its commit. -/
theorem writesOnce_of_rule {r : Request} {bytes : List Byte}
    (hexec : exec i s = afterRequests x commit) (hcommit : ∀ t, commit t = t.commitRegs ws)
    (hlen : bytes.length ≤ 2 ^ 32) (h : WriteRule r bytes s.begin x) :
    WritesOnce i s r r.size bytes ws := by
  refine ⟨fun ha => ?misaligned, fun ha hp => ?aborted, fun ha hp hwf => ?served⟩
  case misaligned => rw [hexec, h.misaligned ha]; rfl
  case aborted => rw [hexec, h.aborted ha hp]; rfl
  case served =>
    refine ⟨_, Memory.stored_writeBytes bytes s.mem r.addr hwf hlen,
      Memory.wf_writeBytes bytes s.mem r.addr hwf, ?_⟩
    rw [hexec, h.served ha hp, afterRequests, hcommit]
    rfl

/-- A body with these word writes and then its commit. -/
theorem writesWords_of_body {a : Word} {vs : List Word}
    (hexec : exec i s = afterRequests (memWriteWords vs a s.begin) commit)
    (hcommit : ∀ t, commit t = t.commitRegs ws) (hne : vs ≠ []) (hlen : vs.length ≤ 16) :
    WritesWords i s a vs ws := by
  refine ⟨fun ha => ?misaligned, fun ha hwf k hk hp habort => ?aborted, fun ha hwf hp => ?served⟩
  case misaligned => rw [hexec, memWriteWords_misaligned (s := s.begin) hne ha]; rfl
  case aborted =>
    obtain ⟨hstored, hwf'⟩ := stored_words s.params.endian a hwf
      ((List.length_take_le' k vs).trans hlen)
    refine ⟨_, hstored, hwf', ?_⟩
    rw [hexec, memWriteWords_aborted (s := s.begin) ha hk hp habort]
    rfl
  case served =>
    obtain ⟨hstored, hwf'⟩ := stored_words s.params.endian a hwf hlen
    refine ⟨_, hstored, hwf', ?_⟩
    rw [hexec, memWriteWords_served (s := s.begin) ha hp, afterRequests, hcommit]
    rfl

end

/-! ## What the operations read -/

theorem off2Sources_eq_off2Reads (off : Off2) : off2Sources off = off2Reads off := by
  cases off <;> rfl

theorem off3Sources_eq_off3Reads (off : Off3) : off3Sources off = off3Reads off := by
  cases off <;> rfl

section
variable {s : State} {rn : Reg} {u : Bool} {idx : Index} {a : Access}

/-- A value that is missing exactly when one of its reads is, is there only when all of them are. -/
theorem held_of_eq_none_iff {α : Type} {o : Option α} {v : α} {reads : List Source}
    (hnone : o = none ↔ ∃ x ∈ reads, s.holds x = false) (h : o = some v) :
    ∀ x ∈ reads, s.holds x = true := by
  intro x hx
  by_contra hempty
  exact nomatch h.symm.trans (hnone.2 ⟨x, hx, Bool.eq_false_iff.2 hempty⟩)

/-- An access of mode two has an address only when its base and its offset hold values. -/
theorem modeTwo_reads_held {off : Off2} (h : modeTwo s rn u idx off = some a) :
    s.holds (.reg rn) = true ∧ ∀ x ∈ off2Reads off, s.holds x = true := by
  unfold modeTwo at h
  split at h
  case h_1 hbase hoff =>
    exact ⟨holds_reg_of_readReg hbase, held_of_eq_none_iff (off2Value_eq_none s off) hoff⟩
  case h_2 => cases h

theorem modeThree_reads_held {off : Off3} (h : modeThree s rn u idx off = some a) :
    s.holds (.reg rn) = true ∧ ∀ x ∈ off3Reads off, s.holds x = true := by
  unfold modeThree at h
  split at h
  case h_1 hbase hoff =>
    exact ⟨holds_reg_of_readReg hbase, held_of_eq_none_iff (off3Value_eq_none s off) hoff⟩
  case h_2 => cases h

end

/-! ## The unknown-effect checks (R154, R156, R293) -/

theorem badBase_eq (rn : Reg) (rs : List Reg) (idx : Index) :
    badBase rn rs idx = (writesBack idx && decide (rn ∈ 15 :: rs)) := by
  cases idx <;> rfl

theorem modeTwoUnknown_eq (rt rn : Reg) (idx : Index) (off : Off2) :
    modeTwoUnknown rt rn idx off = (badBase rn [rt] idx || off2Among [15] off) := by
  rw [badBase_eq]
  cases off <;> simp [modeTwoUnknown, off2Among]

theorem modeThreeUnknown_eq (rt rn : Reg) (idx : Index) (off : Off3) :
    modeThreeUnknown rt rn idx off = (badBase rn [rt] idx || off3Among [15] off) := by
  rw [badBase_eq]
  cases off <;> simp [modeThreeUnknown, off3Among]

theorem strdUnknown_eq (rt rn : Reg) (idx : Index) (off : Off3) :
    strdUnknown rt rn idx off =
      (decide (rt.val % 2 = 1) || decide (rt = 14) || badBase rn [rt, rt + 1] idx ||
        off3Among [15, rt, rt + 1] off) := by
  rw [badBase_eq]
  cases off <;>
    simp [strdUnknown, modeThreeUnknown, off3Among, pairReg, Bool.and_or_distrib_left] <;> ac_rfl

/-! ## The bodies -/

section
variable {rt rn : Reg} {u : Bool} {idx : Index} {s : State} {a : Access}

theorem strBody_traps (off : Off2) :
    BodyTraps (badBase rn [rt] idx || off2Among [15] off) opcSTR
      (.reg rn :: .reg rt :: off2Sources off) s (strBody rt rn u idx off s) := by
  rw [strBody, modeTwoUnknown_eq, off2Sources_eq_off2Reads]
  refine check_traps _ fun hnone => ?_
  split
  case h_1 ha hv =>
    obtain ⟨hbase, hoff⟩ := modeTwo_reads_held ha
    exact absurd_of_held (List.forall_mem_cons.2 ⟨hbase,
      List.forall_mem_cons.2 ⟨holds_reg_of_readReg hv, hoff⟩⟩) hnone
  case h_2 => rfl

theorem strhBody_traps (off : Off3) :
    BodyTraps (decide (rt = 15) || badBase rn [rt] idx || off3Among [15] off) opcSTRH
      (.reg rn :: .reg rt :: off3Sources off) s (strhBody rt rn u idx off s) := by
  rw [strhBody, modeThreeUnknown_eq, off3Sources_eq_off3Reads, ← Bool.or_assoc]
  refine check_traps _ fun hnone => ?_
  split
  case h_1 ha hv =>
    obtain ⟨hbase, hoff⟩ := modeThree_reads_held ha
    exact absurd_of_held (List.forall_mem_cons.2 ⟨hbase,
      List.forall_mem_cons.2 ⟨holds_reg_of_readReg hv, hoff⟩⟩) hnone
  case h_2 => rfl

theorem strdBody_traps (off : Off3) :
    BodyTraps (decide (rt.val % 2 = 1) || decide (rt = 14) || badBase rn [rt, rt + 1] idx ||
        off3Among [15, rt, rt + 1] off) opcSTRD
      (.reg rn :: .reg rt :: .reg (rt + 1) :: off3Sources off) s (strdBody rt rn u idx off s) := by
  rw [strdBody, strdUnknown_eq, off3Sources_eq_off3Reads]
  refine check_traps _ fun hnone => ?_
  split
  case h_1 ha hv0 hv1 =>
    obtain ⟨hbase, hoff⟩ := modeThree_reads_held ha
    exact absurd_of_held (List.forall_mem_cons.2 ⟨hbase,
      List.forall_mem_cons.2 ⟨holds_reg_of_readReg hv0,
        List.forall_mem_cons.2 ⟨holds_reg_of_readReg hv1, hoff⟩⟩⟩) hnone
  case h_2 => rfl

/-- R294: Rt is only written, so it is not among the reads. -/
theorem ldrtBody_traps (off : Off2) :
    BodyTraps (decide (rt = 15) || decide (rn ∈ [15, rt]) || off2Among [15] off) opcLDRT
      (.reg rn :: off2Sources off) s (ldrtBody rt rn u off s) := by
  rw [ldrtBody, modeTwoUnknown_eq, badBase_eq, off2Sources_eq_off2Reads, ← Bool.or_assoc]
  refine check_traps _ fun hnone => ?_
  split
  case h_1 ha =>
    obtain ⟨hbase, hoff⟩ := modeTwo_reads_held ha
    exact absurd_of_held (List.forall_mem_cons.2 ⟨hbase, hoff⟩) hnone
  case h_2 => rfl

theorem stmBody_traps (list : BitVec 16) (am : BlockMode) (w : Bool) :
    BodyTraps (decide (list = 0) || decide (rn = 15) || (w && list.getLsbD rn.val)) opcSTM
      (.reg rn :: (listRegs list).map .reg) s (stmBody rn list am w s) := by
  rw [stmBody, stmUnknown]
  refine check_traps _ fun hnone => ?_
  split
  case h_1 hbase hvs =>
    refine absurd_of_held (List.forall_mem_cons.2
      ⟨holds_reg_of_readReg hbase, List.forall_mem_map.2 fun r hr => ?_⟩) hnone
    rw [← State.readReg_isSome, Option.isSome_iff_ne_none]
    intro hempty
    exact nomatch (State.readRegs_eq_none.2 ⟨r, hr, hempty⟩).symm.trans hvs
  case h_2 => rfl

theorem strBody_begin {off : Off2} {v : Word}
    (hknown : (badBase rn [rt] idx || off2Among [15] off) = false)
    (ha : modeTwo s rn u idx off = some a) (hv : s.readReg rt = some v) :
    strBody rt rn u idx off s.begin =
      afterRequests (memWriteWord a.addr v s.begin) fun t => t.writeBack rn a := by
  rw [strBody, modeTwoUnknown_eq, hknown, modeTwo_begin, ha, State.begin_readReg, hv]
  rfl

theorem strhBody_begin {off : Off3} {v : Word}
    (hknown : (decide (rt = 15) || badBase rn [rt] idx || off3Among [15] off) = false)
    (ha : modeThree s rn u idx off = some a) (hv : s.readReg rt = some v) :
    strhBody rt rn u idx off s.begin =
      afterRequests (memWriteHalf a.addr (lo16 v) s.begin) fun t => t.writeBack rn a := by
  rw [strhBody, modeThreeUnknown_eq, ← Bool.or_assoc, hknown, modeThree_begin, ha,
    State.begin_readReg, hv]
  rfl

theorem strdBody_begin {off : Off3} {v0 v1 : Word}
    (hknown : (decide (rt.val % 2 = 1) || decide (rt = 14) || badBase rn [rt, rt + 1] idx ||
      off3Among [15, rt, rt + 1] off) = false)
    (ha : modeThree s rn u idx off = some a) (hv0 : s.readReg rt = some v0)
    (hv1 : s.readReg (rt + 1) = some v1) :
    strdBody rt rn u idx off s.begin =
      afterRequests (memWriteWords [v0, v1] a.addr s.begin) fun t => t.writeBack rn a := by
  rw [strdBody, strdUnknown_eq, hknown, modeThree_begin, ha, State.begin_readReg, hv0,
    State.begin_readReg, pairReg, hv1]
  rfl

theorem stmBody_begin {list : BitVec 16} {w : Bool} {base : Word} {vs : List Word} (am : BlockMode)
    (hknown : (decide (list = 0) || decide (rn = 15) || (w && list.getLsbD rn.val)) = false)
    (hbase : s.readReg rn = some base) (hvs : s.readRegs (listRegs list) = some vs) :
    stmBody rn list am w s.begin =
      afterRequests (memWriteWords vs (blockStart base list am) s.begin) fun t =>
        if w then t.writeReg rn (blockEnd base list am) else t := by
  rw [stmBody, stmUnknown, hknown, State.begin_readReg, hbase, readRegs_begin, hvs]
  rfl

end

/-! ## The unprivileged read (R294) -/

section
variable {rt rn : Reg} {u : Bool} {off : Off2} {s : State} {a : Access} {base : Word}

/-- R150: the address of a post-indexed access is its base, and it writes its base back. -/
theorem modeTwo_post (hbase : s.readReg rn = some base) (ha : modeTwo s rn u .post off = some a) :
    a.addr = base ∧ a.wb = true := by
  rw [modeTwo, hbase] at ha
  split at ha
  case h_1 hb _ => cases hb; cases ha; exact ⟨rfl, rfl⟩
  case h_2 => cases ha

variable (hknown : (decide (rt = 15) || decide (rn ∈ [15, rt]) || off2Among [15] off) = false)
  (hbase : s.readReg rn = some base) (ha : modeTwo s rn u .post off = some a)
include hknown hbase ha

/-- R290: the body ends as its read does, or commits Rt and the base together. -/
theorem ldrtBody_begin :
    (∀ o, memReadWord base true s.begin = .error o → ldrtBody rt rn u off s.begin = o) ∧
      ∀ d t, memReadWord base true s.begin = .ok (d, t) →
        ldrtBody rt rn u off s.begin = (t.commitRegs [(rt, d), (rn, a.wbval)]).complete := by
  obtain ⟨haddr, hwb⟩ := modeTwo_post hbase ha
  have hcheck : (decide (rt = 15) || modeTwoUnknown rt rn .post off) = false := by
    rw [modeTwoUnknown_eq, badBase_eq, ← Bool.or_assoc]
    exact hknown
  refine ⟨fun o hread => ?failed, fun d t hread => ?served⟩
  case failed =>
    rw [ldrtBody, hcheck, modeTwo_begin, ha]
    simp only [haddr, hread]
    rfl
  case served =>
    rw [ldrtBody, hcheck, modeTwo_begin, ha]
    simp only [haddr, hread, State.writeBack, hwb]
    rfl

end

section
variable {a : Word} {p : Bool} {s : State}

theorem memReadWord_misaligned (h : addrOk 4 s a = false) :
    memReadWord a p s = .error (raise (.alignmentFault a) s) := by
  rw [memReadWord, issue_misaligned (r := .readWord a p) h]
  rfl

theorem memReadWord_aborted (h : addrOk 4 s a = true) (hp : s.port.head? = some .abort) :
    memReadWord a p s = .error (raise (.memAbort a) (s.issued (.readWord a p))) := by
  rw [memReadWord, issue_aborted (r := .readWord a p) h hp]
  rfl

theorem memReadWord_servedAs {d : Word} (h : addrOk 4 s a = true)
    (hp : s.port.head? = some (.servedAs d)) :
    memReadWord a p s = .ok (d, s.issued (.readWord a p)) := by
  rw [memReadWord, issue_servedAs (r := .readWord a p) h hp]

theorem memReadWord_served (h : addrOk 4 s a = true)
    (hp : s.port.head? = none ∨ s.port.head? = some .served) :
    memReadWord a p s = .ok (s.mem.readWord s.params.endian a, s.issued (.readWord a p)) := by
  rw [memReadWord, issue_served (r := .readWord a p) h hp]
  rfl

end

/-! ## The registers of a list (R160, R161) -/

theorem listed_eq_listRegs (list : BitVec 16) : listed list = listRegs list := rfl

theorem mem_allRegs : ∀ r : Reg, r ∈ allRegs := by decide

theorem listRegs_ne_nil {list : BitVec 16} (h : list ≠ 0) : listRegs list ≠ [] := by
  refine fun hnil => h (BitVec.eq_of_getLsbD_eq fun i hi => ?_)
  have hbit := List.filter_eq_nil_iff.1 hnil ⟨i, hi⟩ (mem_allRegs _)
  simpa using hbit

theorem listRegs_length_le (list : BitVec 16) : (listRegs list).length ≤ 16 :=
  List.length_filter_le _ allRegs

/-- R160: the write-back value, by the direction of the sub-mode. -/
theorem blockEnd_eq (base : Word) (list : BitVec 16) (am : BlockMode) :
    blockEnd base list am =
      if am = .ia ∨ am = .ib then base + blockBytes list else base - blockBytes list := by
  cases am <;> rfl

/-! ## The operations -/

/-- Settles O38: the one word write of the body, at the address of mode two. -/
theorem storeWord : Obligations.StoreWord := by
  intro c rt rn u idx off s hpass
  refine ⟨trapsAsListed_of_body (gate_of_passes _ hpass) (strBody_traps off),
    fun a v hknown ha hv => ?_⟩
  rw [← bytesOfWord_eq_storedBytes]
  exact writesOnce_of_rule ((gate_of_passes _ hpass).trans (strBody_begin hknown ha hv))
    (fun t => writeReg_if_eq_commitRegs a.wb t rn a.wbval) (by simp [bytesOfWord_length])
    (memWriteWord_rule a.addr v s.begin)

/-- Settles O39: the one halfword write of the body, at the address of mode three. -/
theorem storeHalfword : Obligations.StoreHalfword := by
  intro c rt rn u idx off s hpass
  refine ⟨trapsAsListed_of_body (gate_of_passes _ hpass) (strhBody_traps off),
    fun a v hknown ha hv => ?_⟩
  rw [← bytesOfHalf_eq_storedBytes]
  exact writesOnce_of_rule ((gate_of_passes _ hpass).trans (strhBody_begin hknown ha hv))
    (fun t => writeReg_if_eq_commitRegs a.wb t rn a.wbval) (by simp [bytesOfHalf_length])
    (memWriteHalf_rule a.addr (lo16 v) s.begin)

/-- Settles O40: the words of the pair, one after the other. -/
theorem storeDoubleword : Obligations.StoreDoubleword := by
  intro c rt rn u idx off s hpass
  refine ⟨trapsAsListed_of_body (gate_of_passes _ hpass) (strdBody_traps off),
    fun a v0 v1 hknown ha hv0 hv1 => ?_⟩
  exact writesWords_of_body ((gate_of_passes _ hpass).trans (strdBody_begin hknown ha hv0 hv1))
    (fun t => writeReg_if_eq_commitRegs a.wb t rn a.wbval) (List.cons_ne_nil _ _) (by simp)

/-- Settles O41: the listed registers' words, one after the other from the sub-mode's start. -/
theorem storeMultiple : Obligations.StoreMultiple := by
  intro c rn list am w s hpass
  refine ⟨trapsAsListed_of_body (gate_of_passes _ hpass) (stmBody_traps list am w), ?_⟩
  intro base vs hknown hbase hvs n
  rw [listed_eq_listRegs] at hvs
  have hlength : (listRegs list).length = vs.length := by simpa using congrArg List.length hvs
  have hn : n = blockBytes list := by rw [blockBytes, hlength]
  have hlist : list ≠ 0 := by
    rintro rfl
    exact nomatch hknown
  have hne : vs ≠ [] := by
    rw [← List.length_pos_iff, ← hlength, List.length_pos_iff]
    exact listRegs_ne_nil hlist
  rw [hn, ← blockEnd_eq]
  refine ⟨by cases am <;> rfl, writesWords_of_body ((gate_of_passes _ hpass).trans
    (stmBody_begin am hknown hbase (State.readRegs_eq_some.2 hvs)))
    (fun t => writeReg_if_eq_commitRegs w t rn _) hne (hlength ▸ listRegs_length_le list)⟩

/-- Settles O42: one clause for each answer of the port to the body's read. -/
theorem loadUnprivileged : Obligations.LoadUnprivileged := by
  intro c rt rn u off s hpass
  refine ⟨trapsAsListed_of_body (gate_of_passes _ hpass) (ldrtBody_traps off), ?_⟩
  intro base a hknown hbase ha i r
  obtain ⟨hfailed, hread⟩ := ldrtBody_begin hknown hbase ha
  have hexec : exec i s = ldrtBody rt rn u off s.begin := gate_of_passes _ hpass
  refine ⟨fun haddr => ?misaligned, fun haddr hp => ?aborted, fun d haddr hp => ?servedAs,
    fun haddr hp => ⟨s.mem.readWord s.params.endian base, storedBytes_readWord _ _ _, ?served⟩⟩
  case misaligned => exact hexec.trans (hfailed _ (memReadWord_misaligned haddr))
  case aborted => exact hexec.trans (hfailed _ (memReadWord_aborted haddr hp))
  case servedAs => exact hexec.trans (hread _ _ (memReadWord_servedAs haddr hp))
  case served => exact hexec.trans (hread _ _ (memReadWord_served haddr hp))

end Sys2Proof.Machine
end

section
/-! PROOFS. Bit fields, saturation to a width, comparisons and reversals (spec/47_bitfield.md
R320-R326, spec/48_saturate.md R340-R343, spec/49_misc.md R350-R356): the bits of each result, and
the bodies around them. -/

namespace Sys2Proof.Machine
open Sys2Proof.Safety

/-! ## Masks and fields, bit by bit (R100, R101, R321-R323) -/

section
variable {lsb width j : Nat} (hj : j < 32)
include hj

/-- R100: the mask's ones are the bits of the field. -/
theorem maskOnes_getLsbD :
    (maskOnes 32 lsb width).getLsbD j = decide (lsb ≤ j ∧ j < lsb + width) := by
  have hfield : lsb ≤ j → (j - lsb < width ↔ j < lsb + width) := by omega
  rw [maskOnes, BitVec.getLsbD_ofNat, Nat.testBit_mul_two_pow, Nat.testBit_two_pow_sub_one]
  by_cases hlsb : lsb ≤ j <;> simp [hj, hlsb, hfield]

/-- R101: the zeros of the other mask are. -/
theorem maskZeros_getLsbD :
    (maskZeros 32 lsb width).getLsbD j = !decide (lsb ≤ j ∧ j < lsb + width) := by
  rw [maskZeros, BitVec.getLsbD_not, maskOnes_getLsbD hj, decide_eq_true hj, Bool.true_and]

/-- R321: past the field's top bit every bit is that one. -/
theorem sbfxValue_getLsbD (n : Word) (hwidth : 1 ≤ width) :
    (sbfxValue n lsb width).getLsbD j = n.getLsbD (lsb + min j (width - 1)) := by
  rw [sbfxValue, sext_getLsbD _ hj, BitVec.getLsbD_extractLsb', BitVec.getLsbD_extractLsb']
  by_cases hin : j < width
  · rw [if_pos hin, min_eq_left (by omega), decide_eq_true hin, Bool.true_and]
  · rw [if_neg hin, min_eq_right (by omega), decide_eq_true (by omega), Bool.true_and]

theorem bfcValue_getLsbD (d : Word) :
    (bfcValue d lsb width).getLsbD j =
      if lsb ≤ j ∧ j < lsb + width then false else d.getLsbD j := by
  rw [bfcValue, BitVec.getLsbD_and, maskZeros_getLsbD hj]
  by_cases hin : lsb ≤ j ∧ j < lsb + width <;> simp [hin]

theorem lslC_getLsbD (n : Word) (cin : Carry) :
    (lslC n lsb cin).1.getLsbD j = (!decide (j < lsb) && n.getLsbD (j - lsb)) := by
  rw [lslC_eq, ← shiftLeft_eq_ofNat, BitVec.getLsbD_shiftLeft, decide_eq_true hj, Bool.true_and]

/-- R323: the two masks select the inserted bits in the field and the old ones elsewhere. -/
theorem bfiValue_getLsbD (d n : Word) :
    (bfiValue d n lsb width).getLsbD j =
      if lsb ≤ j ∧ j < lsb + width then n.getLsbD (j - lsb) else d.getLsbD j := by
  rw [bfiValue, BitVec.getLsbD_or, BitVec.getLsbD_and, BitVec.getLsbD_and, maskZeros_getLsbD hj,
    maskOnes_getLsbD hj, lslC_getLsbD hj]
  by_cases hin : lsb ≤ j ∧ j < lsb + width <;> simp [hin]

end

/-- R324: a halfword over the low half of a word. -/
theorem append_low_half (h : Half) (d : Word) :
    h ++ d.extractLsb' 0 16 = BitVec.ofNat 32 (h.toNat * 2 ^ 16 + d.toNat % 2 ^ 16) := by
  have hh := h.isLt
  apply BitVec.eq_of_toNat_eq
  rw [BitVec.toNat_append, ← Nat.shiftLeft_add_eq_or_of_lt (BitVec.isLt _),
    BitVec.extractLsb'_toNat, BitVec.toNat_ofNat, Nat.shiftLeft_eq, Nat.shiftRight_zero]
  omega

/-! ## Shifted operands (R342) -/

theorem satOperand_lsl_toInt (v : Word) (n : BitVec 6) :
    (satOperand v .lsl n).toInt = (BitVec.ofNat 32 (v.toNat * 2 ^ n.toNat)).toInt := by
  rw [satOperand, lslC_eq]

/-- An arithmetic shift right is a division, rounded toward minus infinity. -/
theorem satOperand_asr_toInt (v : Word) (n : BitVec 6) :
    (satOperand v .asr n).toInt = v.toInt / 2 ^ n.toNat := by
  rw [satOperand, asrC_eq, ← sshiftRight_eq_ofInt, BitVec.toInt_sshiftRight,
    Int.shiftRight_eq_div_pow, Nat.cast_pow, Nat.cast_ofNat]

/-! ## Reversals, bit by bit (R113, R350-R352) -/

/-- A byte below other bits. -/
theorem append_lane8_getLsbD {w : Nat} (x : BitVec w) (m : Word) (i j : Nat) :
    (x ++ lane8 m i).getLsbD j = if j < 8 then m.getLsbD (8 * i + j) else x.getLsbD (j - 8) := by
  rw [BitVec.getLsbD_append, lane8, BitVec.getLsbD_extractLsb']
  by_cases hlow : j < 8
  · rw [if_pos hlow, if_pos hlow, decide_eq_true hlow, Bool.true_and]
  · rw [if_neg hlow, if_neg hlow]

theorem lane8_getLsbD (m : Word) {k : Nat} (i : Nat) (hk : k < 8) :
    (lane8 m i).getLsbD k = m.getLsbD (8 * i + k) := by
  rw [lane8, BitVec.getLsbD_extractLsb', decide_eq_true hk, Bool.true_and]

theorem reverseBits_lt (k x : Nat) : reverseBits k x < 2 ^ k := by
  induction k generalizing x with
  | zero => exact Nat.one_pos
  | succ k ih =>
    have hrest := ih (x / 2)
    have htop : x % 2 * 2 ^ k ≤ 1 * 2 ^ k := Nat.mul_le_mul_right _ (by omega)
    rw [reverseBits, Nat.pow_succ]
    omega

/-- R113: bit `j` of the reversed number is bit `k - 1 - j`. -/
theorem reverseBits_testBit (k x j : Nat) :
    (reverseBits k x).testBit j = (decide (j < k) && x.testBit (k - 1 - j)) := by
  induction k generalizing x with
  | zero => simp [reverseBits]
  | succ k ih =>
    have hparity : (x % 2).testBit (j - k) = (decide (j - k < 1) && x.testBit (j - k)) :=
      Nat.testBit_mod_two_pow x 1 (j - k)
    rw [reverseBits, Nat.mul_comm, Nat.testBit_two_pow_mul_add _ (reverseBits_lt _ _), ih, hparity]
    rcases Nat.lt_trichotomy j k with hlow | rfl | hhigh
    · have hbit : (x / 2).testBit (k - 1 - j) = x.testBit (k - j) := by
        rw [← Nat.testBit_add_one]
        congr 1
        omega
      rw [if_pos hlow, hbit, decide_eq_true hlow, decide_eq_true (by omega)]
      rfl
    · simp
    · rw [if_neg (by omega), decide_eq_false (by omega), decide_eq_false (by omega),
        Bool.false_and, Bool.false_and]

section
variable (m : Word) {j : Nat} (hj : j < 32)
include hj

/-- R350: byte `j / 8` of the result is byte `3 - j / 8` of the operand. -/
theorem revValue_getLsbD : (revValue m).getLsbD j = m.getLsbD (8 * (3 - j / 8) + j % 8) := by
  rw [revValue, append_lane8_getLsbD, append_lane8_getLsbD, append_lane8_getLsbD]
  split_ifs with hbyte0 hbyte1 hbyte2
  case neg =>
    rw [lane8_getLsbD m 0 (by omega)]
    congr 1
    omega
  all_goals
    congr 1
    omega

/-- R351: the swapped halfword, then copies of its bit 15. -/
theorem revshValue_getLsbD : (revshValue m).getLsbD j =
    if j < 8 then m.getLsbD (j + 8) else if j < 16 then m.getLsbD (j - 8) else m.getLsbD 7 := by
  rw [revshValue, sext_getLsbD _ hj, append_lane8_getLsbD, append_lane8_getLsbD]
  rcases (by omega : j < 8 ∨ (¬ j < 8 ∧ j < 16) ∨ ¬ j < 16) with hlow | ⟨hlow, hhigh⟩ | hsign
  · rw [if_pos (by omega), if_pos hlow, if_pos hlow, Nat.add_comm]
  · rw [if_pos hhigh, if_neg hlow, if_neg hlow, if_pos hhigh, lane8_getLsbD m 0 (by omega),
      Nat.mul_zero, Nat.zero_add]
  · rw [if_neg hsign, if_neg (by omega), if_neg (by omega), if_neg hsign,
      lane8_getLsbD m 0 (by decide)]

theorem bitReverse32_getLsbD : (bitReverse32 m).getLsbD j = m.getLsbD (31 - j) := by
  rw [bitReverse32, BitVec.getLsbD_ofNat, reverseBits_testBit, decide_eq_true hj, Bool.true_and,
    Bool.true_and, BitVec.testBit_toNat]

end

/-! ## The unknown-effect checks (R320, R325) -/

/-- R320: the two checks of a field, the model's and the statements', agree. -/
theorem fieldUnknown_eq_badField (lsb : BitVec 5) (width : BitVec 6) :
    fieldUnknown lsb width = badField lsb width := by
  have hempty : width.toNat = 0 ↔ ¬ 1 ≤ width.toNat := by omega
  have hpast : 32 < lsb.toNat + width.toNat ↔ ¬ lsb.toNat + width.toNat ≤ 32 := by omega
  rw [fieldUnknown, badField, decide_eq_decide.2 hempty, decide_eq_decide.2 hpast, decide_not,
    decide_not, Bool.not_and]

theorem badField_eq_false {lsb : BitVec 5} {width : BitVec 6} (hwidth : 1 ≤ width.toNat)
    (hend : lsb.toNat + width.toNat ≤ 32) : badField lsb width = false := by
  rw [badField, decide_eq_true hwidth, decide_eq_true hend]
  rfl

theorem anyPc_singleton (r : Reg) : anyPc [r] = decide (r = 15) := by
  simp [anyPc, eq_comm]

/-! ## The bodies -/

section
variable {opc : BitVec 6} {rd rn rm : Reg} {lsb : BitVec 5} {width : BitVec 6} {o : Op2} {s : State}
  {a b d n m : Word} {cout : Carry}

theorem reg_held (h : s.readReg rn = some n) : ∀ x ∈ [.reg rn], s.holds x = true :=
  List.forall_mem_singleton.2 (holds_reg_of_readReg h)

theorem sbfxBody_traps :
    BodyTraps (badField lsb width || decide (15 ∈ [rd, rn])) opcSBFX [.reg rn] s
      (sbfxBody rd rn lsb width s) := by
  rw [sbfxBody, fieldUnknown_eq_badField, anyPc]
  refine check_traps _ fun hnone => ?_
  split
  case h_1 hn => exact absurd_of_held (reg_held hn) hnone
  case h_2 => rfl

theorem bfcBody_traps :
    BodyTraps (badField lsb width || decide (rd = 15)) opcBFC [.reg rd] s
      (bfcBody rd lsb width s) := by
  rw [bfcBody, fieldUnknown_eq_badField, anyPc_singleton]
  refine check_traps _ fun hnone => ?_
  split
  case h_1 hd => exact absurd_of_held (reg_held hd) hnone
  case h_2 => rfl

theorem bfiBody_traps :
    BodyTraps (badField lsb width || decide (15 ∈ [rd, rn])) opcBFI [.reg rd, .reg rn] s
      (bfiBody rd rn lsb width s) := by
  rw [bfiBody, fieldUnknown_eq_badField, anyPc]
  refine check_traps _ fun hnone => ?_
  split
  case h_1 hd hn => exact absurd_of_held (regs_pair_held hd hn) hnone
  case h_2 => rfl

theorem movtBody_traps {imm16 : BitVec 16} :
    BodyTraps (decide (rd = 15)) opcMOVT [.reg rd] s (movtBody rd imm16 s) := by
  rw [movtBody, anyPc_singleton]
  refine check_traps _ fun hnone => ?_
  split
  case h_1 hd => exact absurd_of_held (reg_held hd) hnone
  case h_2 => rfl

theorem saturateTo_traps {kind : SatKind} {sh : SatShift} {k : BitVec 6} :
    BodyTraps (decide (15 ∈ [rd, rn])) opc [.reg rn] s
      (saturateTo opc kind rd rn sh k width s) := by
  rw [saturateTo, anyPc]
  refine check_traps _ fun hnone => ?_
  split
  case h_1 hn => exact absurd_of_held (reg_held hn) hnone
  case h_2 => rfl

theorem reversal_traps {f : Word → Word} :
    BodyTraps (decide (15 ∈ [rd, rm])) opc [.reg rm] s (reversal opc f rd rm s) := by
  rw [reversal, anyPc]
  refine check_traps _ fun hnone => ?_
  split
  case h_1 hm => exact absurd_of_held (reg_held hm) hnone
  case h_2 => rfl

theorem comparison_traps {f : Word → Word → Carry → Flags → Flags} :
    BodyTraps (regRegPc [rn] o) opc (.reg rn :: op2Sources o) s (comparison opc f rn o s) := by
  rw [comparison, op2Unknown_eq_regRegPc, op2Sources_eq_op2Reads]
  refine check_traps _ fun hnone => ?_
  split
  case h_1 hn ho => exact absurd_of_held (reg_op2Reads_held hn ho) hnone
  case h_2 => rfl

theorem sbfxBody_begin (hfield : badField lsb width = false) (hpc : 15 ∉ [rd, rn])
    (hn : s.readReg rn = some n) :
    sbfxBody rd rn lsb width s.begin =
      .next (wrote s [(rd, sbfxValue n lsb.toNat width.toNat)] s.flags) := by
  rw [sbfxBody, fieldUnknown_eq_badField, hfield, anyPc, decide_eq_false hpc, State.begin_readReg,
    hn]
  rfl

theorem bfcBody_begin (hfield : badField lsb width = false) (hpc : rd ≠ 15)
    (hd : s.readReg rd = some d) :
    bfcBody rd lsb width s.begin =
      .next (wrote s [(rd, bfcValue d lsb.toNat width.toNat)] s.flags) := by
  rw [bfcBody, fieldUnknown_eq_badField, hfield, anyPc_singleton, decide_eq_false hpc,
    State.begin_readReg, hd]
  rfl

theorem bfiBody_begin (hfield : badField lsb width = false) (hpc : 15 ∉ [rd, rn])
    (hd : s.readReg rd = some d) (hn : s.readReg rn = some n) :
    bfiBody rd rn lsb width s.begin =
      .next (wrote s [(rd, bfiValue d n lsb.toNat width.toNat)] s.flags) := by
  rw [bfiBody, fieldUnknown_eq_badField, hfield, anyPc, decide_eq_false hpc, State.begin_readReg,
    hd, State.begin_readReg, hn]
  rfl

theorem movtBody_begin {imm16 : BitVec 16} (hpc : rd ≠ 15) (hd : s.readReg rd = some d) :
    movtBody rd imm16 s.begin =
      .next (wrote s [(rd, BitVec.ofNat 32 (imm16.toNat * 2 ^ 16 + d.toNat % 2 ^ 16))]
        s.flags) := by
  rw [movtBody, anyPc_singleton, decide_eq_false hpc, State.begin_readReg, hd,
    ← append_low_half]
  rfl

/-- R105, R106: the clamped operand `x`, and Q when clamping changed it. -/
theorem saturateTo_begin {kind : SatKind} {sh : SatShift} {k : BitVec 6} {x : Int}
    (hpc : 15 ∉ [rd, rn]) (hn : s.readReg rn = some n) (hx : (satOperand n sh k).toInt = x) :
    let clamped := clamp (satLow width.toNat kind) (satHigh width.toNat kind) x
    saturateTo opc kind rd rn sh k width s.begin =
      .next (wrote s [(rd, BitVec.ofInt 32 clamped)] (setQIf (clamped != x) s.flags)) := by
  intro clamped
  rw [saturateTo, anyPc, decide_eq_false hpc, State.begin_readReg, hn]
  simp only [hx, saturate_fst, saturate_snd_eq_clamp_ne, Flags.setQ_eq_setQIf]
  rfl

theorem reversal_begin (f : Word → Word) (hpc : 15 ∉ [rd, rm]) (hm : s.readReg rm = some m) :
    reversal opc f rd rm s.begin = .next (wrote s [(rd, f m)] s.flags) := by
  rw [reversal, anyPc, decide_eq_false hpc, State.begin_readReg, hm]
  rfl

/-- R356: no register is written. -/
theorem comparison_begin {f : Word → Word → Carry → Flags → Flags} {g : Flags}
    (hknown : regRegPc [rn] o = false) (hn : s.readReg rn = some a)
    (ho : shifter s o = some (b, cout)) (hf : f a b cout s.flags = g) :
    comparison opc f rn o s.begin = .next (wrote s [] g) := by
  rw [comparison, op2Unknown_eq_regRegPc, hknown, State.begin_readReg, hn, shifter_begin, ho, ← hf]
  rfl

/-- R354: the flags of a difference without a borrow. -/
theorem cmpFlags_eq (f : Flags) :
    cmpFlags a b cout f = additiveFlags f (a - b) (decide (b.toNat ≤ a.toNat))
      (signedOverflow (a.toInt - b.toInt)) := by
  rw [cmpFlags, subWithCarry_true, Flags.setAdditive_eq_additiveFlags]

end

/-! ## A write and the reads after it -/

/-- The register written reads as the value, R15 aside (R22). -/
theorem wrote_readReg_self (s : State) {r : Reg} (v : Word) (f : Flags) (h : r ≠ 15) :
    (wrote s [(r, v)] f).readReg r = some v := by
  have hread := s.readReg_writeReg r r v
  rw [if_neg h, if_pos rfl] at hread
  exact hread

/-! ## The operations -/

/-- Settles O43: the bits of the extracted field. -/
theorem signedFieldExtract : Obligations.SignedFieldExtract := by
  intro c rd rn lsb width s hpass
  refine ⟨trapsAsListed_of_body (gate_of_passes _ hpass) sbfxBody_traps,
    fun n hwidth hend hpc hn => ⟨_, (gate_of_passes _ hpass).trans
      (sbfxBody_begin (badField_eq_false hwidth hend) hpc hn), fun j hj => ?_⟩⟩
  exact sbfxValue_getLsbD hj n hwidth

/-- Settles O44: the bits of the field replaced, and MOVT's halfword. -/
theorem fieldReplacement : Obligations.FieldReplacement := by
  intro c rd rn lsb width imm16 s hpass
  refine ⟨⟨?bfcTraps, ?bfiTraps, ?movtTraps⟩,
    fun d hwidth hend hpc hd => ⟨bfcValue d lsb.toNat width.toNat, ?bfc, ?bfcBits⟩,
    fun d n hwidth hend hpc hd hn => ⟨bfiValue d n lsb.toNat width.toNat, ?bfi, ?bfiBits⟩,
    fun d hpc hd => ?movt⟩
  case bfcTraps => exact trapsAsListed_of_body (gate_of_passes _ hpass) bfcBody_traps
  case bfiTraps => exact trapsAsListed_of_body (gate_of_passes _ hpass) bfiBody_traps
  case movtTraps => exact trapsAsListed_of_body (gate_of_passes _ hpass) movtBody_traps
  case bfc =>
    exact (gate_of_passes _ hpass).trans (bfcBody_begin (badField_eq_false hwidth hend) hpc hd)
  case bfcBits => exact fun j hj => bfcValue_getLsbD hj d
  case bfi =>
    exact (gate_of_passes _ hpass).trans (bfiBody_begin (badField_eq_false hwidth hend) hpc hd hn)
  case bfiBits => exact fun j hj => bfiValue_getLsbD hj d n
  case movt => exact (gate_of_passes _ hpass).trans (movtBody_begin hpc hd)

/-- Extracting an inserted field gives the low bits of what was inserted. -/
theorem sbfxValue_bfiValue (d n : Word) {lsb width : Nat} (hend : lsb + width ≤ 32) :
    sbfxValue (bfiValue d n lsb width) lsb width = (n.extractLsb' 0 width).signExtend 32 := by
  have hfield : (bfiValue d n lsb width).extractLsb' lsb width = n.extractLsb' 0 width := by
    refine BitVec.eq_of_getLsbD_eq fun j hj => ?_
    rw [BitVec.getLsbD_extractLsb', BitVec.getLsbD_extractLsb', bfiValue_getLsbD (by omega),
      if_pos (by omega), Nat.add_sub_cancel_left, Nat.zero_add]
  rw [sbfxValue, hfield, sext_eq_signExtend]

/-- Settles O45: the extract reads the register that the insert wrote. -/
theorem insertThenExtract : Obligations.InsertThenExtract := by
  intro rd rn rq lsb width s d n hwidth hend hpc hd hn
  have hfield := badField_eq_false hwidth hend
  obtain ⟨hrd, hrn, hrq⟩ : 15 ≠ rd ∧ 15 ≠ rn ∧ 15 ≠ rq := by simpa using hpc
  refine ⟨_, _, bfiBody_begin hfield (by simp [hrd, hrn]) hd hn,
    sbfxBody_begin hfield (by simp [hrd, hrq]) (wrote_readReg_self s _ _ hrd.symm), ?_⟩
  rw [wrote_readReg_self _ _ _ hrq.symm, sbfxValue_bfiValue d n hend]

/-- Settles O46: one body for both kinds, at the shifted operand's signed reading. -/
theorem saturateToWidth : Obligations.SaturateToWidth := by
  intro c rd rn sh n sat s hpass
  refine ⟨⟨?ssatTraps, ?usatTraps⟩, ?results⟩
  case ssatTraps | usatTraps =>
    exact trapsAsListed_of_body (gate_of_passes _ hpass) saturateTo_traps
  case results =>
    intro v _ hpc hv x
    have hx : (satOperand v sh n).toInt = x := by
      cases sh with
      | lsl => exact satOperand_lsl_toInt v n
      | asr => exact satOperand_asr_toInt v n
    exact ⟨(gate_of_passes _ hpass).trans (saturateTo_begin (kind := .signed) hpc hv hx),
      (gate_of_passes _ hpass).trans (saturateTo_begin (kind := .unsigned) hpc hv hx)⟩

/-- Settles O31: one body that writes only flags, those of the difference or of the bitwise and. -/
theorem compareAndTest : Obligations.CompareAndTest := by
  intro c rn o s hpass
  refine ⟨⟨?cmpTraps, ?tstTraps⟩, fun a b cout hknown hn ho => ⟨?cmp, ?tst⟩⟩
  case cmpTraps | tstTraps =>
    exact trapsAsListed_of_body (gate_of_passes _ hpass) comparison_traps
  case cmp =>
    exact (gate_of_passes _ hpass).trans (comparison_begin hknown hn ho (cmpFlags_eq s.flags))
  case tst =>
    exact (gate_of_passes _ hpass).trans
      (comparison_begin hknown hn ho (s.flags.setLogical_eq_logicalFlags (a &&& b) cout))

/-- Settles O47: one body with three functions of the operand, each known bit by bit. -/
theorem reversals : Obligations.Reversals := by
  intro c rd rm s hpass
  refine ⟨⟨?revTraps, ?revshTraps, ?rbitTraps⟩,
    fun m hpc hm =>
      ⟨revValue m, revshValue m, bitReverse32 m, ?rev, ?revsh, ?rbit, fun j hj => ?bits⟩⟩
  case revTraps | revshTraps | rbitTraps =>
    exact trapsAsListed_of_body (gate_of_passes _ hpass) reversal_traps
  case rev | revsh | rbit => exact (gate_of_passes _ hpass).trans (reversal_begin _ hpc hm)
  case bits =>
    exact ⟨revValue_getLsbD m hj, revshValue_getLsbD m hj, bitReverse32_getLsbD m hj⟩

end Sys2Proof.Machine
end

section
/-! PROOFS. How an operation ends (spec/60_exceptions.md R400-R410, spec/70_reset_and_hazards.md
R453, R459): each body traps as R404 and R406 say and otherwise runs its requests and commits, so
one case analysis covers every operation. -/

namespace Sys2Proof.Machine
open Sys2Proof.Safety

/-! ## The presented operation (R453) -/

theorem accepted_of_not_refusedBy {ps : Config.Params} {w : BitVec 64} {i : Instr}
    (h : decode w = .ok i) (hi : i.refusedBy ps = false) : accepted ps w = some i := by
  simp [accepted, h, hi]

/-- Settles O9: a word that decodes and is not refused is accepted. -/
theorem stepRunsDecodedOperation : Obligations.StepRunsDecodedOperation := by
  intro s w p rest i hp hdecode hi
  simp only [step, hp, accepted_of_not_refusedBy hdecode hi]
  rfl

/-! ## Requests that fail (R405, R407, R459) -/

/-- The port ends the operation: no register or flag differs from `s`, or the run stops at an answer
that never comes. -/
inductive PortFails (s : State) : Result → Prop
  | aborted (a : Word) {t : State} (hregs : t.regs = s.regs) (hflags : t.flags = s.flags) :
    PortFails s (raise (.memAbort a) t)
  | silent (a : Word) (h : PortAnswer.silent ∈ s.port) : PortFails s (.fault (.portSilent a))

/-- The operation's requests do not all succeed: the first is misaligned, or the port ends the
operation. -/
inductive RequestsFail (s : State) : Result → Prop
  | misaligned (a : Word) : RequestsFail s (raise (.alignmentFault a) s)
  | port {out : Result} (h : PortFails s out) : RequestsFail s out

section
variable {s t : State} {out : Result} {r : Request} {a : Word}

/-- A request after a served one. -/
theorem PortFails.of_later (h : PortFails t out) (hregs : t.regs = s.regs)
    (hflags : t.flags = s.flags) (hport : t.port = s.port.tail) : PortFails s out := by
  cases h with
  | aborted a hr hf => exact .aborted a (hr.trans hregs) (hf.trans hflags)
  | silent a h => exact .silent a (List.mem_of_mem_tail (hport ▸ h))

theorem issue_error_portFails (haddr : addrOk r.size s r.addr = true)
    (h : issue r s = .error out) : PortFails s out := by
  rw [← mayIssue_eq_addrOk] at haddr
  rcases issue_cases r s with ⟨hno, -⟩ | ⟨-, -, e⟩ | ⟨-, hp, e⟩ | ⟨-, -, e⟩ | ⟨_, -, -, e⟩
  · exact absurd (hno.symm.trans haddr) Bool.false_ne_true
  · cases e.symm.trans h
    exact .aborted _ rfl rfl
  · cases e.symm.trans h
    exact .silent _ (List.mem_of_mem_head? hp)
  · cases e.symm.trans h
  · cases e.symm.trans h

theorem issue_error_requestsFail (h : issue r s = .error out) : RequestsFail s out := by
  cases haddr : addrOk r.size s r.addr with
  | false =>
    cases (issue_misaligned haddr).symm.trans h
    exact .misaligned _
  | true => exact .port (issue_error_portFails haddr h)

/-- R48: when the first word is aligned so is every other. -/
theorem memWriteWords_error_portFails {vs : List Word} (haddr : addrOk 4 s a = true)
    (h : memWriteWords vs a s = .error out) : PortFails s out := by
  induction vs generalizing a s with
  | nil => cases h
  | cons v vs ih =>
    unfold memWriteWords at h
    split at h
    case h_1 hfirst =>
      cases h
      exact issue_error_portFails (r := .writeWord a v) haddr (memWriteWord_error hfirst)
    case h_2 hfirst =>
      rw [memWriteWord_ok hfirst] at h
      exact (ih (s := { s.issued (.writeWord a v) with
        mem := s.mem.writeBytes a (bytesOfWord s.params.endian v) })
        ((addrOk_add_four s a).trans haddr) h).of_later rfl rfl rfl

theorem memWriteWords_error_requestsFail {vs : List Word} (h : memWriteWords vs a s = .error out) :
    RequestsFail s out := by
  cases haddr : addrOk 4 s a with
  | false =>
    have hne : vs ≠ [] := by
      rintro rfl
      cases h
    cases (memWriteWords_misaligned hne haddr).symm.trans h
    exact .misaligned a
  | true => exact .port (memWriteWords_error_portFails haddr h)

end

/-! ## How a body ends once its operands are read -/

/-- An operation outside R404's cases whose operands hold values: it completes, or, when it reaches
memory, its requests fail. -/
inductive Runs (reaches : Bool) (s : State) : Result → Prop
  | completed {t : State} (h : t.status = some .ok) : Runs reaches s (.next t)
  | failed {out : Result} (hreaches : reaches = true) (h : RequestsFail s out) : Runs reaches s out

/-- All that a body can do (R408 steps 4 to 7). -/
structure BodyRule (unknown : Bool) (opc : BitVec 6) (reads : List Source) (reaches : Bool)
    (s : State) (out : Result) : Prop extends BodyTraps unknown opc reads s.begin out where
  runs : unknown = false → (∀ x ∈ reads, s.holds x = true) → Runs reaches s.begin out

section
variable {reaches : Bool} {s : State} {out : Result}

theorem Runs.of_wrote {s₀ : State} {ws : List (Reg × Word)} {f : Flags}
    (h : out = .next (wrote s₀ ws f)) : Runs reaches s out :=
  h ▸ .completed rfl

/-- R290 steps 4 and 5. -/
theorem afterRequests_runs {x : Except Result State} {commit : State → State}
    (h : ∀ o, x = .error o → RequestsFail s o) : Runs true s (afterRequests x commit) := by
  rcases afterRequests_cases x commit with ⟨o, hx, e⟩ | ⟨t, -, e⟩
  · exact e ▸ .failed rfl (h o hx)
  · exact e ▸ .completed rfl

/-- An operation whose condition passes ends as its body. -/
theorem BodyRule.of_gate {unknown : Bool} {opc : BitVec 6} {reads : List Source} {c : Suffix}
    {body : State → Result} (hpass : passes c s = true)
    (h : BodyRule unknown opc reads reaches s (body s.begin)) :
    BodyRule unknown opc reads reaches s (gate c s body) := by
  rwa [gate_of_passes body hpass]

end

/-! ## The values that held operands give -/

section
variable {s : State}

theorem readReg_of_held {r : Reg} (h : s.holds (.reg r) = true) : ∃ v, s.readReg r = some v :=
  Option.isSome_iff_exists.1 h

theorem readReg_of_single_held {r : Reg} (h : ∀ x ∈ [Source.reg r], s.holds x = true) :
    ∃ v, s.readReg r = some v :=
  readReg_of_held (h _ (List.mem_singleton_self _))

theorem readReg_of_pair_held {r q : Reg}
    (h : ∀ x ∈ [Source.reg r, Source.reg q], s.holds x = true) :
    ∃ v w, s.readReg r = some v ∧ s.readReg q = some w := by
  obtain ⟨hr, hq⟩ := List.forall_mem_cons.1 h
  obtain ⟨v, hv⟩ := readReg_of_held hr
  obtain ⟨w, hw⟩ := readReg_of_single_held hq
  exact ⟨v, w, hv, hw⟩

theorem shifter_of_held {o : Op2} (h : ∀ x ∈ op2Sources o, s.holds x = true) :
    ∃ b cout, shifter s o = some (b, cout) := by
  rw [op2Sources_eq_op2Reads] at h
  obtain ⟨⟨b, cout⟩, ho⟩ := (shifter_eq_some_iff s o).2 h
  exact ⟨b, cout, ho⟩

theorem reg_shifter_of_held {rn : Reg} {o : Op2}
    (h : ∀ x ∈ .reg rn :: op2Sources o, s.holds x = true) :
    ∃ a b cout, s.readReg rn = some a ∧ shifter s o = some (b, cout) := by
  obtain ⟨hrn, hop⟩ := List.forall_mem_cons.1 h
  obtain ⟨a, ha⟩ := readReg_of_held hrn
  obtain ⟨b, cout, ho⟩ := shifter_of_held hop
  exact ⟨a, b, cout, ha, ho⟩

/-- A value that is missing only when one of its reads is, is there when all of them are. -/
theorem eq_some_of_held {α : Type} {o : Option α} {reads : List Source}
    (hnone : o = none ↔ ∃ x ∈ reads, s.holds x = false) (h : ∀ x ∈ reads, s.holds x = true) :
    ∃ v, o = some v :=
  Option.ne_none_iff_exists'.1 fun hn => absurd_of_held h (hnone.1 hn)

theorem modeTwo_of_held {rn : Reg} (u : Bool) (idx : Index) {off : Off2}
    (hrn : s.holds (.reg rn) = true) (hoff : ∀ x ∈ off2Sources off, s.holds x = true) :
    ∃ a, modeTwo s rn u idx off = some a := by
  rw [off2Sources_eq_off2Reads] at hoff
  obtain ⟨base, hbase⟩ := readReg_of_held hrn
  obtain ⟨offset, hoffset⟩ := eq_some_of_held (off2Value_eq_none s off) hoff
  exact ⟨_, by rw [modeTwo, hbase, hoffset]⟩

theorem modeThree_of_held {rn : Reg} (u : Bool) (idx : Index) {off : Off3}
    (hrn : s.holds (.reg rn) = true) (hoff : ∀ x ∈ off3Sources off, s.holds x = true) :
    ∃ a, modeThree s rn u idx off = some a := by
  rw [off3Sources_eq_off3Reads] at hoff
  obtain ⟨base, hbase⟩ := readReg_of_held hrn
  obtain ⟨offset, hoffset⟩ := eq_some_of_held (off3Value_eq_none s off) hoff
  exact ⟨_, by rw [modeThree, hbase, hoffset]⟩

theorem readRegs_of_held {rs : List Reg} (h : ∀ x ∈ rs.map .reg, s.holds x = true) :
    ∃ vs, s.readRegs rs = some vs := by
  refine Option.ne_none_iff_exists'.1 fun hnone => ?_
  obtain ⟨r, hr, hempty⟩ := State.readRegs_eq_none.1 hnone
  obtain ⟨v, hv⟩ := readReg_of_held (h (.reg r) (List.mem_map_of_mem hr))
  exact nomatch hempty.symm.trans hv

end

/-! ## The bodies that do not reach memory -/

section
variable {opc : BitVec 6} {sf reaches : Bool} {rd rn rm : Reg} {o : Op2} {lsb : BitVec 5}
  {width : BitVec 6} {s : State}

theorem logical3_rule {f : Word → Word → Word} :
    BodyRule (regRegPc [rd, rn] o) opc (.reg rn :: op2Sources o) reaches s
      (logical3 opc f sf rd rn o s.begin) where
  toBodyTraps := logical3_traps ..
  runs hknown hheld := by
    obtain ⟨a, b, cout, hn, ho⟩ := reg_shifter_of_held hheld
    exact .of_wrote (logical3_begin sf f hknown hn ho)

theorem logical2_rule {f : Word → Word} :
    BodyRule (regRegPc [rd] o) opc (op2Sources o) reaches s
      (logical2 opc f sf rd o s.begin) where
  toBodyTraps := logical2_traps ..
  runs hknown hheld := by
    obtain ⟨b, cout, ho⟩ := shifter_of_held hheld
    exact .of_wrote (logical2_begin sf f hknown ho)

theorem additive3_rule {f : Word → Word → Word × Bool × Bool} :
    BodyRule (regRegPc [rd, rn] o) opc (.reg rn :: op2Sources o) reaches s
      (additive3 opc f sf rd rn o s.begin) where
  toBodyTraps := additive3_traps ..
  runs hknown hheld := by
    obtain ⟨a, b, cout, hn, ho⟩ := reg_shifter_of_held hheld
    exact .of_wrote (additive3_begin sf hknown hn ho rfl)

theorem sbcBody_rule :
    BodyRule (regRegPc [rd, rn] o) opcSBC (.reg rn :: .flag .c :: op2Sources o) reaches s
      (sbcBody sf rd rn o s.begin) where
  toBodyTraps := sbcBody_traps ..
  runs hknown hheld := by
    obtain ⟨hrn, hheld⟩ := List.forall_mem_cons.1 hheld
    obtain ⟨hflag, hop⟩ := List.forall_mem_cons.1 hheld
    obtain ⟨a, hn⟩ := readReg_of_held hrn
    obtain ⟨cin, hc⟩ : ∃ cin, s.flags.c = some cin := Option.isSome_iff_exists.1 hflag
    obtain ⟨b, cout, ho⟩ := shifter_of_held hop
    rw [sbcBody, op2Unknown_eq_regRegPc, hknown, State.begin_readReg, hn, shifter_begin, ho,
      State.begin_flags, hc]
    exact .completed rfl

theorem negBody_rule :
    BodyRule false opcNEG [.reg rm] reaches s (negBody sf rd rm s.begin) where
  toBodyTraps := negBody_traps ..
  runs _ hheld := by
    obtain ⟨b, hm⟩ := readReg_of_single_held hheld
    rw [negBody, State.begin_readReg, hm]
    exact .completed rfl

theorem comparison_rule {f : Word → Word → Carry → Flags → Flags} :
    BodyRule (regRegPc [rn] o) opc (.reg rn :: op2Sources o) reaches s
      (comparison opc f rn o s.begin) where
  toBodyTraps := comparison_traps
  runs hknown hheld := by
    obtain ⟨a, b, cout, hn, ho⟩ := reg_shifter_of_held hheld
    exact .of_wrote (comparison_begin hknown hn ho rfl)

theorem packed_rule {f : Word → Word → Config.Params → Flags → Word × Flags} :
    BodyRule (decide (15 ∈ [rd, rn, rm])) opc [.reg rn, .reg rm] reaches s
      (packed opc f rd rn rm s.begin) where
  toBodyTraps := packed_traps ..
  runs hknown hheld := by
    obtain ⟨n, m, hn, hm⟩ := readReg_of_pair_held hheld
    exact .of_wrote (packed_begin (of_decide_eq_false hknown) hn hm rfl)

theorem mlaBody_rule {ra : Reg} :
    BodyRule (decide (15 ∈ [rd, rn, rm, ra])) opcMLA [.reg rn, .reg rm, .reg ra] reaches s
      (mlaBody sf rd rn rm ra s.begin) where
  toBodyTraps := mlaBody_traps
  runs hknown hheld := by
    obtain ⟨hrn, hrest⟩ := List.forall_mem_cons.1 hheld
    obtain ⟨n, hn⟩ := readReg_of_held hrn
    obtain ⟨m, a, hm, ha⟩ := readReg_of_pair_held hrest
    exact .of_wrote (mlaBody_begin (of_decide_eq_false hknown) hn hm ha rfl)

theorem mulLong_rule {f : Word → Word → DWord} {rdLo rdHi : Reg} :
    BodyRule (decide (15 ∈ [rdLo, rn, rm, rdHi]) || decide (rdHi = rdLo)) opc [.reg rn, .reg rm]
      reaches s (mulLong opc f sf rdLo rn rm rdHi s.begin) where
  toBodyTraps := mulLong_traps f
  runs hknown hheld := by
    obtain ⟨hpc, hne⟩ := Bool.or_eq_false_iff.1 hknown
    obtain ⟨n, m, hn, hm⟩ := readReg_of_pair_held hheld
    exact .of_wrote (mulLong_begin (of_decide_eq_false hpc) (of_decide_eq_false hne) hn hm
      rfl rfl rfl)

theorem umaalBody_rule {rdLo rdHi : Reg} :
    BodyRule (decide (15 ∈ [rdLo, rn, rm, rdHi]) || decide (rdHi = rdLo)) opcUMAAL
      [.reg rn, .reg rm, .reg rdLo, .reg rdHi] reaches s
      (umaalBody rdLo rn rm rdHi s.begin) where
  toBodyTraps := umaalBody_traps
  runs hknown hheld := by
    obtain ⟨hpc, hne⟩ := Bool.or_eq_false_iff.1 hknown
    obtain ⟨hrn, hheld⟩ := List.forall_mem_cons.1 hheld
    obtain ⟨hrm, hheld⟩ := List.forall_mem_cons.1 hheld
    obtain ⟨n, hn⟩ := readReg_of_held hrn
    obtain ⟨m, hm⟩ := readReg_of_held hrm
    obtain ⟨lo, hi, hlo, hhi⟩ := readReg_of_pair_held hheld
    exact .of_wrote (umaalBody_begin (of_decide_eq_false hpc) (of_decide_eq_false hne) hn hm hlo hhi
      rfl)

theorem mul3_rule {f : Word → Word → Word} :
    BodyRule (decide (15 ∈ [rd, rn, rm])) opc [.reg rn, .reg rm] reaches s
      (mul3 opc f rd rn rm s.begin) where
  toBodyTraps := mul3_traps f
  runs hknown hheld := by
    obtain ⟨n, m, hn, hm⟩ := readReg_of_pair_held hheld
    exact .of_wrote (mul3_begin (of_decide_eq_false hknown) hn hm rfl)

theorem sbfxBody_rule :
    BodyRule (badField lsb width || decide (15 ∈ [rd, rn])) opcSBFX [.reg rn] reaches s
      (sbfxBody rd rn lsb width s.begin) where
  toBodyTraps := sbfxBody_traps
  runs hknown hheld := by
    obtain ⟨hfield, hpc⟩ := Bool.or_eq_false_iff.1 hknown
    obtain ⟨n, hn⟩ := readReg_of_single_held hheld
    exact .of_wrote (sbfxBody_begin hfield (of_decide_eq_false hpc) hn)

theorem bfcBody_rule :
    BodyRule (badField lsb width || decide (rd = 15)) opcBFC [.reg rd] reaches s
      (bfcBody rd lsb width s.begin) where
  toBodyTraps := bfcBody_traps
  runs hknown hheld := by
    obtain ⟨hfield, hpc⟩ := Bool.or_eq_false_iff.1 hknown
    obtain ⟨d, hd⟩ := readReg_of_single_held hheld
    exact .of_wrote (bfcBody_begin hfield (of_decide_eq_false hpc) hd)

theorem bfiBody_rule :
    BodyRule (badField lsb width || decide (15 ∈ [rd, rn])) opcBFI [.reg rd, .reg rn] reaches s
      (bfiBody rd rn lsb width s.begin) where
  toBodyTraps := bfiBody_traps
  runs hknown hheld := by
    obtain ⟨hfield, hpc⟩ := Bool.or_eq_false_iff.1 hknown
    obtain ⟨d, n, hd, hn⟩ := readReg_of_pair_held hheld
    exact .of_wrote (bfiBody_begin hfield (of_decide_eq_false hpc) hd hn)

theorem movtBody_rule {imm16 : BitVec 16} :
    BodyRule (decide (rd = 15)) opcMOVT [.reg rd] reaches s
      (movtBody rd imm16 s.begin) where
  toBodyTraps := movtBody_traps
  runs hknown hheld := by
    obtain ⟨d, hd⟩ := readReg_of_single_held hheld
    exact .of_wrote (movtBody_begin (of_decide_eq_false hknown) hd)

theorem saturateTo_rule {kind : SatKind} {sh : SatShift} {k : BitVec 6} :
    BodyRule (decide (15 ∈ [rd, rn])) opc [.reg rn] reaches s
      (saturateTo opc kind rd rn sh k width s.begin) where
  toBodyTraps := saturateTo_traps
  runs hknown hheld := by
    obtain ⟨n, hn⟩ := readReg_of_single_held hheld
    exact .of_wrote (saturateTo_begin (of_decide_eq_false hknown) hn rfl)

theorem reversal_rule {f : Word → Word} :
    BodyRule (decide (15 ∈ [rd, rm])) opc [.reg rm] reaches s
      (reversal opc f rd rm s.begin) where
  toBodyTraps := reversal_traps
  runs hknown hheld := by
    obtain ⟨m, hm⟩ := readReg_of_single_held hheld
    exact .of_wrote (reversal_begin f (of_decide_eq_false hknown) hm)

end

/-! ## The bodies that reach memory -/

section
variable {rt rn : Reg} {u : Bool} {idx : Index} {s : State}

theorem strBody_rule {off : Off2} :
    BodyRule (badBase rn [rt] idx || off2Among [15] off) opcSTR
      (.reg rn :: .reg rt :: off2Sources off) true s (strBody rt rn u idx off s.begin) where
  toBodyTraps := strBody_traps off
  runs hknown hheld := by
    obtain ⟨hrn, hheld⟩ := List.forall_mem_cons.1 hheld
    obtain ⟨hrt, hoff⟩ := List.forall_mem_cons.1 hheld
    obtain ⟨a, ha⟩ := modeTwo_of_held u idx hrn hoff
    obtain ⟨v, hv⟩ := readReg_of_held hrt
    rw [strBody_begin hknown ha hv]
    exact afterRequests_runs fun _ h => issue_error_requestsFail (memWriteWord_error h)

theorem strhBody_rule {off : Off3} :
    BodyRule (decide (rt = 15) || badBase rn [rt] idx || off3Among [15] off) opcSTRH
      (.reg rn :: .reg rt :: off3Sources off) true s (strhBody rt rn u idx off s.begin) where
  toBodyTraps := strhBody_traps off
  runs hknown hheld := by
    obtain ⟨hrn, hheld⟩ := List.forall_mem_cons.1 hheld
    obtain ⟨hrt, hoff⟩ := List.forall_mem_cons.1 hheld
    obtain ⟨a, ha⟩ := modeThree_of_held u idx hrn hoff
    obtain ⟨v, hv⟩ := readReg_of_held hrt
    rw [strhBody_begin hknown ha hv]
    exact afterRequests_runs fun _ h => issue_error_requestsFail (memWriteHalf_error h)

theorem strdBody_rule {off : Off3} :
    BodyRule (decide (rt.val % 2 = 1) || decide (rt = 14) || badBase rn [rt, rt + 1] idx ||
        off3Among [15, rt, rt + 1] off) opcSTRD
      (.reg rn :: .reg rt :: .reg (rt + 1) :: off3Sources off) true s
      (strdBody rt rn u idx off s.begin) where
  toBodyTraps := strdBody_traps off
  runs hknown hheld := by
    obtain ⟨hrn, hheld⟩ := List.forall_mem_cons.1 hheld
    obtain ⟨hrt, hheld⟩ := List.forall_mem_cons.1 hheld
    obtain ⟨hrt1, hoff⟩ := List.forall_mem_cons.1 hheld
    obtain ⟨a, ha⟩ := modeThree_of_held u idx hrn hoff
    obtain ⟨v0, hv0⟩ := readReg_of_held hrt
    obtain ⟨v1, hv1⟩ := readReg_of_held hrt1
    rw [strdBody_begin hknown ha hv0 hv1]
    exact afterRequests_runs fun _ => memWriteWords_error_requestsFail

theorem stmBody_rule {list : BitVec 16} {am : BlockMode} {w : Bool} :
    BodyRule (decide (list = 0) || decide (rn = 15) || (w && list.getLsbD rn.val)) opcSTM
      (.reg rn :: (listRegs list).map .reg) true s (stmBody rn list am w s.begin) where
  toBodyTraps := stmBody_traps list am w
  runs hknown hheld := by
    obtain ⟨hrn, hlist⟩ := List.forall_mem_cons.1 hheld
    obtain ⟨base, hbase⟩ := readReg_of_held hrn
    obtain ⟨vs, hvs⟩ := readRegs_of_held hlist
    rw [stmBody_begin am hknown hbase hvs]
    exact afterRequests_runs fun _ => memWriteWords_error_requestsFail

theorem ldrtBody_rule {off : Off2} :
    BodyRule (decide (rt = 15) || decide (rn ∈ [15, rt]) || off2Among [15] off) opcLDRT
      (.reg rn :: off2Sources off) true s (ldrtBody rt rn u off s.begin) where
  toBodyTraps := ldrtBody_traps off
  runs hknown hheld := by
    obtain ⟨hrn, hoff⟩ := List.forall_mem_cons.1 hheld
    obtain ⟨a, ha⟩ := modeTwo_of_held u .post hrn hoff
    obtain ⟨base, hbase⟩ := readReg_of_held hrn
    obtain ⟨hfailed, hread⟩ := ldrtBody_begin hknown hbase ha
    cases h : memReadWord base true s.begin with
    | error out =>
      rw [hfailed out h]
      exact .failed rfl (issue_error_requestsFail (memReadWord_error h))
    | ok p =>
      rw [hread p.1 p.2 h]
      exact .completed rfl

end

/-! ## Every operation -/

/-- R61: the opc bits of an operation's word. -/
theorem extractLsb'_opc_encode (i : Instr) :
    (encode i).extractLsb' 53 6 = (encodeFields i).opc :=
  congrArg Fields.opc (unpack_pack (encodeFields i))

/-- R408: an operation whose condition passes does what the tables of R404 and R406 say of it. -/
theorem exec_rule {i : Instr} {s : State} (hpass : passes i.suffix s = true) :
    BodyRule (unknownCase i) (encodeFields i).opc (operandReads i) (reachesMemory i) s
      (exec i s) := by
  cases i with
  | and | eor | orr | orn | bic =>
    rw [encodeFields, putOp2_opc]
    exact .of_gate hpass logical3_rule
  | mov | mvn =>
    rw [encodeFields, putOp2_opc]
    exact .of_gate hpass logical2_rule
  | add | sub =>
    rw [encodeFields, putOp2_opc]
    exact .of_gate hpass additive3_rule
  | sbc =>
    rw [encodeFields, putOp2_opc]
    exact .of_gate hpass sbcBody_rule
  | cmp | tst =>
    rw [encodeFields, putOp2_opc]
    exact .of_gate hpass comparison_rule
  | str =>
    rw [encodeFields, putOff2_opc]
    exact .of_gate hpass strBody_rule
  | strh =>
    rw [encodeFields, putOff3_opc]
    exact .of_gate hpass strhBody_rule
  | strd =>
    rw [encodeFields, putOff3_opc]
    exact .of_gate hpass strdBody_rule
  | ldrt =>
    rw [encodeFields, putOff2_opc]
    exact .of_gate hpass ldrtBody_rule
  | stm => exact .of_gate hpass stmBody_rule
  | neg => exact .of_gate hpass negBody_rule
  | qadd16 | qasx | uqsax | uhasx | uadd16 | shadd16 | uhsub8 => exact .of_gate hpass packed_rule
  | mla => exact .of_gate hpass mlaBody_rule
  | smull | umull => exact .of_gate hpass mulLong_rule
  | umaal => exact .of_gate hpass umaalBody_rule
  | smmul | smmulr | smulwb | smulwt => exact .of_gate hpass mul3_rule
  | sbfx => exact .of_gate hpass sbfxBody_rule
  | bfc => exact .of_gate hpass bfcBody_rule
  | bfi => exact .of_gate hpass bfiBody_rule
  | movt => exact .of_gate hpass movtBody_rule
  | ssat | usat => exact .of_gate hpass saturateTo_rule
  | rev | revsh | rbit => exact .of_gate hpass reversal_rule

/-- All that an operation can do: stop in a case of R404's table, record a status and nothing else
(R402, R406), or run. -/
inductive Ends (i : Instr) (s : State) : Result → Prop
  | unknownEffect (hpass : passes i.suffix s = true) (h : unknownCase i = true) :
    Ends i s (.fault (.unknownEffect (encodeFields i).opc))
  | recorded (st : Status) : Ends i s (raise st s.begin)
  | ran {out : Result} (h : Runs (reachesMemory i) s.begin out) : Ends i s out

theorem exec_ends (i : Instr) (s : State) : Ends i s (exec i s) := by
  obtain ⟨body, hbody⟩ := exec_withSuffix_eq_gate i
  have hexec : exec i s = gate i.suffix s body := by rw [← hbody, withSuffix_suffix]
  rcases gate_cases i.suffix s body with ⟨hpass, -⟩ | ⟨k, -, -, e⟩ | ⟨k, -, -, e⟩
  · have hrule := exec_rule hpass
    cases hu : unknownCase i with
    | true => exact hrule.fault hu ▸ .unknownEffect hpass hu
    | false =>
      by_cases hnone : ∃ x ∈ operandReads i, s.holds x = false
      · exact hrule.unwritten hu hnone ▸ .recorded _
      · refine .ran (hrule.runs hu fun x hx => ?_)
        exact eq_true_of_ne_false fun hs => hnone ⟨x, hx, hs⟩
  · exact hexec.trans e ▸ .recorded _
  · exact hexec.trans e ▸ .recorded .skipped

/-! ## What the ends exclude -/

section
variable {reaches : Bool} {s t : State} {out : Result}

/-- R459: the one stop of an operation that runs. -/
theorem Runs.portSilent_of_fault {f : Fault} (h : Runs reaches s (.fault f)) :
    (∃ a, f = .portSilent a) ∧ reaches = true ∧ PortAnswer.silent ∈ s.port := by
  rcases h with - | ⟨hreaches, - | - | ⟨a, hsilent⟩⟩
  exact ⟨⟨a, rfl⟩, hreaches, hsilent⟩

/-- R401, R405, R407: the statuses of an operation that runs. -/
theorem Runs.next_cases (h : Runs reaches s (.next t)) :
    t.status = some .ok ∨ (∃ a, t = { s with status := some (.alignmentFault a) }) ∨
      ∃ a, t.status = some (.memAbort a) ∧ t.regs = s.regs ∧ t.flags = s.flags := by
  rcases h with hok | ⟨-, ⟨a⟩ | ⟨a, hregs, hflags⟩ | -⟩
  · exact .inl hok
  · exact .inr (.inl ⟨a, rfl⟩)
  · exact .inr (.inr ⟨a, rfl, hregs, hflags⟩)

theorem Runs.ne_refused {r : Refusal} : ¬ Runs reaches s (.refused r) := by
  rintro (- | ⟨-, - | - | -⟩)

end

/-- Settles O48: `UnknownEffect` is raised by the check of R404's cases alone. -/
theorem unknownEffectCases : Obligations.UnknownEffectCases := by
  intro i s
  have honly : ∀ opc, exec i s = .fault (.unknownEffect opc) →
      passes i.suffix s = true ∧ unknownCase i = true := by
    intro opc h
    have hends := exec_ends i s
    rw [h] at hends
    rcases hends with ⟨hpass, hu⟩ | - | hruns
    · exact ⟨hpass, hu⟩
    · obtain ⟨⟨a, ha⟩, -⟩ := hruns.portSilent_of_fault
      cases ha
  refine ⟨fun hpass => ?_, honly⟩
  rw [extractLsb'_opc_encode]
  exact ⟨(exec_rule hpass).fault, fun h => (honly _ h).2⟩

/-- Settles O49: the condition's reads by its row of R171, the operands' by the rule of the body. -/
theorem unwrittenReads : Obligations.UnwrittenReads := by
  intro i s
  refine ⟨fun row hrow hi hnone => exec_of_unwritten_condition hrow hi hnone,
    fun hpass hu => ⟨?unwritten, fun hheld t set h hstatus => ?held⟩⟩
  case unwritten => exact (trapsAsListed_of_body rfl (exec_rule hpass).toBodyTraps).2 hu
  case held =>
    have hruns := (exec_rule hpass).runs hu hheld
    rw [h] at hruns
    rcases hruns.next_cases with hok | ⟨a, rfl⟩ | ⟨a, habort, -⟩
    · cases hok.symm.trans hstatus
    · cases hstatus
    · cases habort.symm.trans hstatus

/-- Settles O50: no end of an operation is a refusal, and two of them are stops. -/
theorem onlyTheseStops : Obligations.OnlyTheseStops := by
  intro i s
  have hends := exec_ends i s
  refine ⟨fun r h => ?_, fun f h => ?_⟩
  · rw [h] at hends
    rcases hends with - | - | hruns
    exact hruns.ne_refused
  · rw [h] at hends
    rcases hends with - | - | hruns
    · exact .inl ⟨_, rfl⟩
    · exact .inr hruns.portSilent_of_fault

/-- Settles O51: only a completed operation commits, and only an aborted one has made requests
without completing. -/
theorem faultsCommitNothing : Obligations.FaultsCommitNothing := by
  intro i s t h hstatus
  have hends := exec_ends i s
  rw [h] at hends
  rcases hends with - | - | hruns
  · exact ⟨rfl, rfl, fun _ => ⟨rfl, rfl, rfl⟩⟩
  · rcases hruns.next_cases with hok | ⟨a, rfl⟩ | ⟨a, habort, hregs, hflags⟩
    · exact absurd hok hstatus
    · exact ⟨rfl, rfl, fun _ => ⟨rfl, rfl, rfl⟩⟩
    · exact ⟨hregs, hflags, fun hnot => absurd habort (hnot a)⟩

end Sys2Proof.Machine
end
